-- ==== Sys2Proof/Word.lean ====
section
/-!
DEFINITION. The word types of the framer. Every quantity of the spec is unsigned (00_scope.md R10, 42_pacedsender.md R175).
-/

namespace Sys2Proof

/-- One byte of a frame. -/
abbrev Byte := BitVec 8

/-- A command word, and the data of a response (30_encoding.md R100, R101). -/
abbrev Word64 := BitVec 64

/-- A MAC address; bits 47:40 are the first byte on the wire (20_memory.md R64). -/
abbrev Mac := BitVec 48

/-- A VLAN id (10_state.md R23). -/
abbrev Vid := BitVec 12

/-- A priority code point, which is also a traffic class and a slot of the frame store (00_scope.md R13). -/
abbrev Pcp := BitVec 3

end Sys2Proof
end

