-- ==== Sys2Proof/Syntax.lean ====
section
/-!
DEFINITION. The fourteen commands of 30_encoding.md R102 as syntax, and the registers of 10_state.md R49.

A command's operand is split as R103 splits `arg[47:0]`. The bits R103 calls "must be 0" stay a field (`mbz`), because
R104 checks them only after BUSY: a word that has them set is still that command (log 16, DEDUCED, safe).
The bits R103 calls "masked off" are the field `hi`.
-/

namespace Sys2Proof

/-- One constructor per row of spec/opcode_table.json. -/
inductive Instr where
  /-- `SETDST mac` (R120). -/
  | setdst (mac : Mac)
  /-- `SETSRC mac` (R121). -/
  | setsrc (mac : Mac)
  /-- `SETVLAN v` (R122): `hi` is `arg[47:12]`, masked off. -/
  | setvlan (hi : BitVec 36) (vid : Vid)
  /-- `SETPROF p` (R123). -/
  | setprof (mbz : BitVec 47) (prof : BitVec 1)
  /-- `SETPSIZE n` (R124). -/
  | setpsize (mbz : BitVec 32) (n : BitVec 16)
  /-- `TCCLR` (R125). -/
  | tcclr (mbz : BitVec 48)
  /-- `TCPUSH c` (R126): `hi` is `arg[47:3]`, masked off. -/
  | tcpush (hi : BitVec 45) (pcp : Pcp)
  /-- `SETPPS p` (R127). -/
  | setpps (mbz : BitVec 16) (rate : BitVec 32)
  /-- `SETDUR d` (R128). -/
  | setdur (mbz : BitVec 16) (seconds : BitVec 32)
  /-- `BUILD c` (R150): `hi` is `arg[47:3]`, masked off. -/
  | build (hi : BitVec 45) (pcp : Pcp)
  /-- `START` (R160 to R163). -/
  | start (mbz : BitVec 48)
  /-- `STOP` (R169). -/
  | stop (mbz : BitVec 48)
  /-- `RD r` (R130): an 8-bit register number. -/
  | rd (mbz : BitVec 40) (reg : BitVec 8)
  /-- `RDFB slot, off` (R131). -/
  | rdfb (mbz : BitVec 34) (slot : Pcp) (off : BitVec 11)
deriving DecidableEq, Repr

/-- The registers `RD` can name (10_state.md R49). -/
inductive Reg where
  | status | dst | src | vlan | profile | psize | tcCount | tcList | pps | duration
  | now | startT | k | total | elapsed | achPps
  | cnt (c : Pcp)
  | flen (s : Pcp)
  | tickHz | sTcCount | sTcList | sPps | sDuration | sPsize | sProfile | sVlan | payloadMax
deriving DecidableEq, Repr

end Sys2Proof
end

