-- ==== Sys2Proof/Decode.lean ====
section
/-!
DEFINITION. The command word (30_encoding.md R100 to R105): the decoder, total on every 64-bit word, and the encoder,
written from the same tables. A command is one 64-bit value and has no byte order (20_memory.md R65).
-/

namespace Sys2Proof

/-- What the decoder answers: a command, or which of the first two checks of R104 failed. -/
inductive Decoded where
  | instr (i : Instr)
  | illop
  | rsvbits
deriving DecidableEq, Repr

/-- R100, bits 63:56. -/
def opField (w : Word64) : BitVec 8 := w.extractLsb' 56 8

/-- R100, bits 55:48. -/
def rsvField (w : Word64) : BitVec 8 := w.extractLsb' 48 8

/-- R100, bits 47:0. -/
def argField (w : Word64) : BitVec 48 := w.extractLsb' 0 48

/-- The opcode map of R102 with the operand fields of R103; `none` is an opcode R102 does not define. -/
def selectOp (op : BitVec 8) (arg : BitVec 48) : Option Instr :=
  match op.toNat with
  | 0x01 => some (.setdst arg)
  | 0x02 => some (.setsrc arg)
  | 0x03 => some (.setvlan (arg.extractLsb' 12 36) (arg.extractLsb' 0 12))
  | 0x04 => some (.setprof (arg.extractLsb' 1 47) (arg.extractLsb' 0 1))
  | 0x05 => some (.setpsize (arg.extractLsb' 16 32) (arg.extractLsb' 0 16))
  | 0x06 => some (.tcclr arg)
  | 0x07 => some (.tcpush (arg.extractLsb' 3 45) (arg.extractLsb' 0 3))
  | 0x08 => some (.setpps (arg.extractLsb' 32 16) (arg.extractLsb' 0 32))
  | 0x09 => some (.setdur (arg.extractLsb' 32 16) (arg.extractLsb' 0 32))
  | 0x10 => some (.build (arg.extractLsb' 3 45) (arg.extractLsb' 0 3))
  | 0x11 => some (.start arg)
  | 0x12 => some (.stop arg)
  | 0x20 => some (.rd (arg.extractLsb' 8 40) (arg.extractLsb' 0 8))
  | 0x21 => some (.rdfb (arg.extractLsb' 14 34) (arg.extractLsb' 11 3) (arg.extractLsb' 0 11))
  | _ => none

/-- Checks (1) and (2) of R104: an undefined opcode comes before a non-zero reserved field. -/
def decode (w : Word64) : Decoded :=
  match selectOp (opField w) (argField w) with
  | none => .illop
  | some i => if rsvField w = 0 then .instr i else .rsvbits

/-- The word of an opcode and an operand, with the reserved field 0 (R100). -/
def commandWord (op : BitVec 8) (arg : BitVec 48) : Word64 := op ++ 0#8 ++ arg

/-- R102, the opcode of a command. -/
def Instr.opcode : Instr → BitVec 8
  | .setdst _ => 0x01
  | .setsrc _ => 0x02
  | .setvlan _ _ => 0x03
  | .setprof _ _ => 0x04
  | .setpsize _ _ => 0x05
  | .tcclr _ => 0x06
  | .tcpush _ _ => 0x07
  | .setpps _ _ => 0x08
  | .setdur _ _ => 0x09
  | .build _ _ => 0x10
  | .start _ => 0x11
  | .stop _ => 0x12
  | .rd _ _ => 0x20
  | .rdfb _ _ _ => 0x21

/-- R103, the operand field of a command. -/
def Instr.operand : Instr → BitVec 48
  | .setdst mac => mac
  | .setsrc mac => mac
  | .setvlan hi vid => hi ++ vid
  | .setprof mbz prof => mbz ++ prof
  | .setpsize mbz n => mbz ++ n
  | .tcclr mbz => mbz
  | .tcpush hi pcp => hi ++ pcp
  | .setpps mbz rate => mbz ++ rate
  | .setdur mbz seconds => mbz ++ seconds
  | .build hi pcp => hi ++ pcp
  | .start mbz => mbz
  | .stop mbz => mbz
  | .rd mbz reg => mbz ++ reg
  | .rdfb mbz slot off => mbz ++ slot ++ off

/-- The word of a command (R100, R102, R103). -/
def encode (i : Instr) : Word64 := commandWord i.opcode i.operand

/-- The command that the decoder reads from `w`, numbered as spec/opcode_table.json numbers its bits: the word is the value. -/
def decodeTableWord (nbits w : Nat) : Option Instr :=
  match decode (BitVec.ofNat 64 (w % 2 ^ nbits)) with
  | .instr i => some i
  | .illop => none
  | .rsvbits => none

end Sys2Proof
end

