-- ==== Sys2Proof/Config.lean ====
section
/-!
DEFINITION. What an implementation fixes (00_scope.md R5) and the values the spec leaves free (the sink's answers, R8).
-/

namespace Sys2Proof

/-- The parameters of 00_scope.md R5. They are arguments of the machine, never written by a step. -/
structure Params where
  /-- TICK_HZ, ticks per second, 63 bits. -/
  tickHz     : BitVec 63
  /-- SRC_IP. -/
  srcIp      : BitVec 32
  /-- DST_IP. -/
  dstIp      : BitVec 32
  /-- SPORT_BASE. -/
  sportBase  : BitVec 16
  /-- DPORT_BASE. -/
  dportBase  : BitVec 16
  /-- PAYLOAD_MAX, 11 bits. -/
  payloadMax : BitVec 11
deriving DecidableEq, Repr

/-- The constraints of R5: 1 ≤ TICK_HZ < 2^63 and PAYLOAD_MAX ≤ 2001. -/
def Params.ok (p : Params) : Bool :=
  decide (1 ≤ p.tickHz.toNat) && decide (p.payloadMax.toNat ≤ 2001)

/-- The column "default used by the vectors" of R5's table. -/
def Params.default : Params :=
  { tickHz := 1000000, srcIp := 0x0A000001, dstIp := 0x0A000002
    sportBase := 10000, dportBase := 20000, payloadMax := 1472 }

/-- The answers of `sink.open()` (60_exceptions.md R206). -/
inductive OpenAns where
  | ok
  | fail
deriving DecidableEq, Repr, Inhabited

/-- The answers of `sink.send(f)` (60_exceptions.md R207). -/
inductive SendAns where
  | success
  | wouldBlock
  | error
deriving DecidableEq, Repr, Inhabited

/-- The free answer number `n` of `sink.open()`: R8 puts it "under no law". DESIGN CHOICE (log 3), safe. -/
opaque Config.sinkOpen : Nat → OpenAns

/-- The free answer number `n` of `sink.send(f)`: R8 puts it "under no law". DESIGN CHOICE (log 3), safe. -/
opaque Config.sinkSend : Nat → SendAns

end Sys2Proof
end

