-- ==== Sys2Proof/Machine/State.lean ====
section
/-!
DEFINITION. The state of the framer (10_state.md R20 to R47) as plain data, the state after reset (R51), and beside it
the model's own fields: the parameters, the response port, the Host's schedule and the sink's coming answers.
-/

namespace Sys2Proof.Machine

/-- `STATE` (R30). The value 3, "never held", has no constructor (log 10, DEDUCED, safe). -/
inductive RunState where
  | idle
  | run
  | done
deriving DecidableEq, Repr

/-- `PHASE` (R30): 0 = TOP, 1 = WAIT. -/
inductive Phase where
  | top
  | wait
deriving DecidableEq, Repr

/-- The frame store `FS` (R46): the bytes that hold a value, addresses strictly rising. An address that is not listed
holds no value (R61; log 7, DESIGN CHOICE, safe). -/
abbrev Memory := List Host.Cell

/-- An event of `TXLOG` (R47). -/
inductive TxEvent where
  /-- `Open(r)`. -/
  | opened (r : OpenAns)
  /-- `Send(t, k, c, f, r)`: ticks since START_T, attempt index, class, frame, answer. -/
  | send (t : Nat) (k : BitVec 64) (c : Pcp) (f : List Byte) (r : SendAns)
  /-- `Close`. -/
  | closed
deriving DecidableEq, Repr

/-- The status of a response (30_encoding.md R101). -/
inductive RespStatus where
  | ok
  | reject
deriving DecidableEq, Repr

/-- A response `status, data` (R101). R101's "0 unless the command is an accepted RD or RDFB" is read with R150, which makes the
data of an accepted BUILD the frame length (log 18, DEDUCED). -/
structure Response where
  status : RespStatus
  data   : Word64
deriving DecidableEq, Repr

/-- The reject reasons (60_exceptions.md R199). -/
inductive Reason where
  | illop | rsvbits | oprange | busy | unset | tcempty | tcdup | badreg | noframe | timerange
deriving DecidableEq, Repr

/-- The session exceptions that use the raise procedure (60_exceptions.md R196). -/
inductive SessionException where
  | handleAcquisition
  | fatalSend
deriving DecidableEq, Repr

/-- The ways a session leaves RUN (42_pacedsender.md R168). -/
inductive FinishKind where
  | normal
  | stopped
  | fatal
deriving DecidableEq, Repr

/-- The result report of 30_encoding.md R114. -/
structure Report where
  success : Bool
  err     : BitVec 4
  /-- (class, count) in the order of S_TC_LIST. -/
  counts  : List (Pcp × Word64)
  total   : Word64
  elapsed : Word64
  achPps  : Word64
  psize   : BitVec 16
deriving DecidableEq, Repr

/-- What the Host's assembler reports of an invocation or of a program. -/
inductive HostOutcome where
  /-- The usage error of 30_encoding.md R112, and the assembler errors of the same kind (R113). -/
  | usage
  /-- ConstructionError, code 1 (60_exceptions.md R191). -/
  | construction
  /-- A command of the expansion was rejected: its reason code (R112). -/
  | rejected (reason : BitVec 8)
  /-- The session ended: the report (R114). -/
  | report (r : Report)
deriving DecidableEq, Repr

/-- One act of the Host's schedule (00_scope.md R6, R7; 60_exceptions.md R210; log 1). -/
inductive HostAct where
  /-- The Host issues one command word. -/
  | word (w : Word64)
  /-- The Host issues nothing: a Sender step if one is enabled, else a Tick step. -/
  | pass
  /-- The reset step (70_reset_and_hazards.md R220). -/
  | reset
  /-- Command lines for the assembler (30_encoding.md R110), issued one a step. -/
  | program (lines : List (List Char))
  /-- The invocation surface (30_encoding.md R112): `txgen.udp` or `txgen.min` with its positional operands. -/
  | txgen (udp : Bool) (args : List (List Char))
  /-- A word of an expansion of R112: the Host stops at the first that is rejected. -/
  | invoked (w : Word64)
  /-- The Host polls until `STATE = DONE` and reads the result (R112, R114). -/
  | await
deriving DecidableEq, Repr

/-- Everything the machine holds. Widths and rules are in INVENTORY.md. -/
structure State where
  -- configuration registers, R21 to R29
  dst      : Mac
  src      : Mac
  vlan     : Vid
  profile  : BitVec 1
  psize    : BitVec 16
  tccnt    : BitVec 4
  tclist   : Vector Pcp 8
  pps      : BitVec 32
  duration : BitVec 32
  wDst     : Bool
  wSrc     : Bool
  wVlan    : Bool
  wProf    : Bool
  wPps     : Bool
  wDur     : Bool
  -- control position, R30, R31
  state    : RunState
  phase    : Phase
  k        : BitVec 64
  -- session, R32 to R35
  now      : BitVec 64
  startT   : BitVec 64
  sN       : BitVec 4
  sOrder   : Vector Pcp 8
  sPps     : BitVec 32
  sDur     : BitVec 32
  sPsize   : BitVec 16
  sProf    : BitVec 1
  sVlan    : Vid
  hopen    : Bool
  -- result, R36 to R39
  total    : BitVec 64
  cnt      : Vector (BitVec 64) 8
  elapsed  : BitVec 64
  success  : Bool
  err      : BitVec 4
  svalid   : Bool
  stopped  : Bool
  -- flags, R43, R44
  trunc    : Bool
  cmderr   : Bool
  lastrej  : BitVec 8
  -- frame cache, R45, R46
  fvalid   : Vector Bool 8
  flen     : Vector (BitVec 11) 8
  fs       : Memory
  -- the record of the sink port, R47
  txlog    : List TxEvent
  -- the model's own: parameters (R5, log 4), response port (R101, log 8), Host (logs 1, 2, 15), sink (log 3)
  par      : Params
  resp     : Option Response
  hostq    : List HostAct
  hostOut  : Option HostOutcome
  openQ    : List OpenAns
  sendQ    : List SendAns
  draws    : Nat
deriving DecidableEq, Repr

/-- Why the machine stops with a fault. The spec gives the framer no such stop: no run from reset reaches one. -/
inductive Fault where
  /-- `MemRead` (20_memory.md R61) meets its requirement but a byte of the range is one no write has reached: it "holds no
  value". Raised by RDFB and Attempt, only in states no run reaches (log 9). Safe: the model stops where no value exists. -/
  | valuelessByte (addr : Nat)
deriving DecidableEq, Repr

/-- Why the machine refuses a step. -/
inductive Refusal where
  /-- An instruction without a meaning: raised by exec's refused arms only, of which there are none. Safe. -/
  | notModelled (mnemonic : String)
  /-- `MemRead` outside a valid frame (20_memory.md R61, "a model may therefore give the primitives no meaning outside their
  requirements (refuse)"). Raised by Attempt, only in states no run reaches (log 9). Safe. -/
  | memReadOutsideFrame
  /-- A frame longer than a slot's FLEN can say (10_state.md R45, 20_memory.md R61). Raised by BUILD and START, only when
  PSIZE exceeds 2001, which no run reaches (log 9). Safe. -/
  | memWriteOutsideSlot
  /-- `S_ORDER[K mod S_N]` with no such entry (42_pacedsender.md R167: "`S_N ≥ 1` always"). Raised by Attempt, only in states
  no run reaches (log 9). Safe. -/
  | noSessionClass
  /-- `TCPUSH` of a new class onto eight or more entries (40_config_commands.md R126: "a ninth push is always a duplicate").
  Raised by TCPUSH, only in states no run reaches (log 9). Safe. -/
  | classListFull
deriving DecidableEq, Repr

/-- What a meaning and a step answer. -/
abbrev Result := Host.Outcome State Fault Refusal

/-- The state after reset for the parameters `p` (10_state.md R51, 70_reset_and_hazards.md R220). The registers that R51
leaves without a value hold 0 (logs 5 and 6, DESIGN CHOICE, unsafe; no rule reads them before they are written). -/
def State.resetWith (p : Params) : State :=
  { dst := 0, src := 0, vlan := 0, profile := 0, psize := 10
    tccnt := 0, tclist := Vector.replicate 8 0, pps := 0, duration := 0
    wDst := false, wSrc := false, wVlan := false, wProf := false, wPps := false, wDur := false
    state := .idle, phase := .top, k := 0
    now := 0, startT := 0, sN := 0, sOrder := Vector.replicate 8 0
    sPps := 0, sDur := 0, sPsize := 0, sProf := 0, sVlan := 0, hopen := false
    total := 0, cnt := Vector.replicate 8 0, elapsed := 0
    success := false, err := 0, svalid := false, stopped := false
    trunc := false, cmderr := false, lastrej := 0
    fvalid := Vector.replicate 8 false, flen := Vector.replicate 8 0, fs := []
    txlog := []
    par := p, resp := none, hostq := [], hostOut := none, openQ := [], sendQ := [], draws := 0 }

/-- The machine right after reset, with the default parameters of 00_scope.md R5 (log 4). -/
def State.reset : State := State.resetWith Params.default

end Sys2Proof.Machine
end

