-- ==== Sys2Proof/Machine/Ops.lean ====
section
/-!
DEFINITION. The named operations of the spec's pseudocode (00_scope.md R11): the eight-entry register files, the frame
store, responses and rejects, the sink, the end of a session, the raise procedure and the reset step.
-/

namespace Sys2Proof.Machine

/-! ### Eight-entry files, indexed by PCP or slot -/

/-- Element `c` of an eight-entry file. -/
def at8 {α : Type} (v : Vector α 8) (c : Pcp) : α := v[c.toNat]'c.isLt

/-- The file with element `c` replaced. -/
def set8 {α : Type} (v : Vector α 8) (c : Pcp) (x : α) : Vector α 8 := v.set c.toNat x c.isLt

/-- The class order being configured: `TCLIST[0] .. TCLIST[TCCNT-1]` (10_state.md R26). -/
def classList (s : State) : List Pcp := s.tclist.toList.take s.tccnt.toNat

/-- The class order of the session: `S_ORDER[0] .. S_ORDER[S_N-1]` (10_state.md R34). -/
def sessionClasses (s : State) : List Pcp := s.sOrder.toList.take s.sN.toNat

/-! ### The frame store (20_memory.md R60, R61) -/

/-- The byte at a flat address, if it holds a value. -/
def Memory.byte : Memory → Nat → Option Byte
  | [], _ => none
  | (b, v) :: rest, a => if a = b then some v else Memory.byte rest a

/-- One byte written; keeps the addresses strictly rising. -/
def Memory.set : Memory → Nat → Byte → Memory
  | [], a, v => [(a, v)]
  | (b, w) :: rest, a, v =>
    if a < b then (a, v) :: (b, w) :: rest
    else if a = b then (a, v) :: rest
    else (b, w) :: Memory.set rest a v

/-- `MemWrite(addr, n, v)`: byte `i` of the sequence goes to `addr + i`. -/
def Memory.setBytes (m : Memory) (a : Nat) : List Byte → Memory
  | [] => m
  | v :: vs => Memory.setBytes (m.set a v) (a + 1) vs

/-- The `n` bytes from `a` on, lowest address first, if each holds a value. -/
def Memory.bytes (m : Memory) (a : Nat) : Nat → Option (List Byte)
  | 0 => some []
  | n + 1 =>
    match m.byte a, Memory.bytes m (a + 1) n with
    | some v, some vs => some (v :: vs)
    | _, _ => none

/-- The canonical form: addresses strictly rising, all inside the 16384 bytes of the store. An unlisted address holds no
value, so no entry can repeat what an unlisted address reads as. -/
def Memory.wf (m : Memory) : Bool :=
  decide (m.Pairwise fun x y => x.1 < y.1) && m.all fun x => decide (x.1 < 16384)

/-- The flat address of slot `s`'s byte 0 (20_memory.md R60: `s × 2048`). -/
def slotBase (s : Pcp) : Nat := s.toNat * 2048

/-- The requirement of `MemRead(addr, n)` (R61): inside the store, and inside a valid frame of the slot. -/
def memReadable (s : State) (addr n : Nat) : Bool :=
  decide (addr + n ≤ 16384) &&
    (at8 s.fvalid (BitVec.ofNat 3 (addr / 2048)) &&
      decide (addr % 2048 + n ≤ (at8 s.flen (BitVec.ofNat 3 (addr / 2048))).toNat))

/-- The lowest of the `n` addresses from `a` on that holds no value (for the fault's name). -/
def Memory.firstHole (m : Memory) (a : Nat) : Nat → Nat
  | 0 => a
  | n + 1 => if m.byte a = none then a else Memory.firstHole m (a + 1) n

/-- `MemRead(addr, n)` (R61), handing its bytes to `f`. -/
def memRead (s : State) (addr n : Nat) (f : List Byte → Result) : Result :=
  if memReadable s addr n then
    match s.fs.bytes addr n with
    | some bs => f bs
    | none => .fault (.valuelessByte (s.fs.firstHole addr n))
  else .refused .memReadOutsideFrame

/-- The longest frame FLEN can say (10_state.md R45: `60 .. 2047`). -/
def frameLenMax : Nat := 2047

/-- A frame put into its slot whole: bytes, FLEN and FVALID together (20_memory.md R67). Where a longer old frame stood in the
slot, its bytes from the new FLEN on stay listed, though R61 says they hold no value; no rule reads them (log 7, DESIGN
CHOICE, unsafe for a claim about those bytes). -/
def installFrame (c : Pcp) (f : List Byte) (s : State) : State :=
  { s with
    fs := s.fs.setBytes (slotBase c) f
    flen := set8 s.flen c (BitVec.ofNat 11 f.length)
    fvalid := set8 s.fvalid c true }

/-! ### Responses and rejects -/

/-- `respond(d)` (00_scope.md R11, 30_encoding.md R101): the response `{OK, d}`. The rule of the command gives `d` (log 18). -/
def respond (d : Word64) (s : State) : State := { s with resp := some ⟨.ok, d⟩ }

/-- The reason codes of 60_exceptions.md R199. -/
def Reason.code : Reason → BitVec 8
  | .illop => 1
  | .rsvbits => 2
  | .oprange => 3
  | .busy => 4
  | .unset => 5
  | .tcempty => 6
  | .tcdup => 7
  | .badreg => 8
  | .noframe => 9
  | .timerange => 10

/-- `reject(reason)` (60_exceptions.md R198): CMDERR, LASTREJ and the response, and nothing else. -/
def reject (r : Reason) (s : State) : State :=
  { s with cmderr := true, lastrej := r.code, resp := some ⟨.reject, 0⟩ }

/-- Check (3) of 30_encoding.md R104, for every command but RD, RDFB and STOP. -/
def unlessBusy (s : State) (f : Result) : Result :=
  if s.state = .run then .next (reject .busy s) else f

/-- One of the checks (4) and (5) of R104: if it fails the command is rejected for that reason. -/
def check (ok : Bool) (r : Reason) (s : State) (f : Result) : Result :=
  if ok then f else .next (reject r s)

/-! ### The sink (60_exceptions.md R205 to R208) -/

/-- The next answer of `sink.open()`: the next one supplied, else a free value (log 3). -/
def openAnswer (s : State) : OpenAns := s.openQ.headD (Config.sinkOpen s.draws)

/-- The next answer of `sink.send(f)`: the next one supplied, else a free value (log 3). -/
def sendAnswer (s : State) : SendAns := s.sendQ.headD (Config.sinkSend s.draws)

/-- `sink.open()` has been asked: `Open(r)` is logged and the answer is used up. -/
def openSink (s : State) : State :=
  { s with
    txlog := s.txlog ++ [.opened (openAnswer s)]
    openQ := s.openQ.tail
    draws := if s.openQ.isEmpty then s.draws + 1 else s.draws }

/-- `NOW - START_T`, an ordinary non-negative difference within a session (42_pacedsender.md R175; log 11). -/
def sinceStart (s : State) : Nat := s.now.toNat - s.startT.toNat

/-- `sink.send(f)` has been asked for class `c`: `Send(t, k, c, f, r)` is logged and the answer is used up. -/
def sendSink (c : Pcp) (f : List Byte) (s : State) : State :=
  { s with
    txlog := s.txlog ++ [.send (sinceStart s) s.k c f (sendAnswer s)]
    sendQ := s.sendQ.tail
    draws := if s.sendQ.isEmpty then s.draws + 1 else s.draws }

/-- `sink.close()`: `Close` is logged (R208). -/
def closeSink (s : State) : State := { s with txlog := s.txlog ++ [.closed] }

/-! ### The control position, the end of a session, exceptions -/

/-- `pc <- (s, p)` (00_scope.md R11, 10_state.md R30). -/
def setPosition (r : RunState) (p : Phase) (s : State) : State := { s with state := r, phase := p }

/-- The outcome fields that `Finish(kind)` writes (42_pacedsender.md R168). SVALID stays as it is. -/
def setOutcome (kind : FinishKind) (s : State) : State :=
  match kind with
  | .normal => { s with success := true, stopped := false, err := 0 }
  | .stopped => { s with success := true, stopped := true, err := 0 }
  | .fatal => { s with success := false, stopped := false, err := 4 }

/-- `Finish(kind)` (42_pacedsender.md R168). -/
def finish (kind : FinishKind) (s : State) : State :=
  setPosition .done .top (setOutcome kind
    { closeSink s with hopen := false, elapsed := BitVec.ofNat 64 (sinceStart s) })

/-- Taking a session exception: the raise procedure of 60_exceptions.md R196. There is no handler, no saved position and
no mode; "entry" writes the result and moves the control position to (DONE, 0). There is no return beside it: R201 gives
none, and what follows an exception is a new START, accepted in DONE as in IDLE. -/
def raise (x : SessionException) (s : State) : State :=
  match x with
  | .handleAcquisition =>
    respond 0 (setPosition .done .top { s with err := 2, success := false, svalid := false, stopped := false })
  | .fatalSend => finish .fatal s

/-! ### Reset -/

/-- The reset step (70_reset_and_hazards.md R220): every element of the spec's state takes its reset value. The `Close` that
R220 logs when HOPEN = 1 leaves no trace, since the same step empties TXLOG. The parameters, the Host and the sink are
outside the framer and stay (log 12). -/
def resetStep (s : State) : State :=
  { State.resetWith s.par with
    hostq := s.hostq, hostOut := s.hostOut, openQ := s.openQ, sendQ := s.sendQ, draws := s.draws }

end Sys2Proof.Machine
end

