-- ==== Sys2Proof/Machine/Flags.lean ====
section
/-!
DEFINITION. The flags (10_state.md R29, R39, R43, R44) and the STATUS word assembled from them (R48).
-/

namespace Sys2Proof.Machine

/-- `if bits != 0 then R.TRUNC <- 1`: set only, never cleared (R43). -/
def noteTrunc (dropped : Bool) (s : State) : State := { s with trunc := s.trunc || dropped }

/-- `cfg_frame_ok` (R29). -/
def cfgFrameOk (s : State) : Bool := s.wDst && s.wSrc && s.wVlan && s.wProf

/-- `cfg_run_ok` (R29). -/
def cfgRunOk (s : State) : Bool := cfgFrameOk s && s.wPps && s.wDur

/-- The two bits of `STATE` (R30). -/
def RunState.bits : RunState → BitVec 2
  | .idle => 0
  | .run => 1
  | .done => 2

/-- The bit of `PHASE` in STATUS: "0 when STATE ≠ RUN" (R48). -/
def phaseBit (s : State) : Bool := decide (s.state = .run) && decide (s.phase = .wait)

/-- `FVALID[7] .. FVALID[0]` as eight bits, slot 0 lowest (R48). -/
def fvalidBits (s : State) : BitVec 8 :=
  BitVec.ofBool (at8 s.fvalid 7) ++ BitVec.ofBool (at8 s.fvalid 6) ++ BitVec.ofBool (at8 s.fvalid 5) ++
  BitVec.ofBool (at8 s.fvalid 4) ++ BitVec.ofBool (at8 s.fvalid 3) ++ BitVec.ofBool (at8 s.fvalid 2) ++
  BitVec.ofBool (at8 s.fvalid 1) ++ BitVec.ofBool (at8 s.fvalid 0)

/-- The written-bits of STATUS 29:24, W_DUR highest (R48). -/
def writtenBits (s : State) : BitVec 6 :=
  BitVec.ofBool s.wDur ++ BitVec.ofBool s.wPps ++ BitVec.ofBool s.wProf ++
  BitVec.ofBool s.wVlan ++ BitVec.ofBool s.wSrc ++ BitVec.ofBool s.wDst

/-- The STATUS word, highest field first (R48). -/
def statusWord (s : State) : Word64 :=
  0#24 ++ fvalidBits s ++ 0#2 ++ writtenBits s ++ s.lastrej ++ s.err ++ 0#3 ++
  BitVec.ofBool s.cmderr ++ BitVec.ofBool s.trunc ++ BitVec.ofBool s.hopen ++ BitVec.ofBool s.stopped ++
  BitVec.ofBool s.svalid ++ BitVec.ofBool s.success ++ BitVec.ofBool (phaseBit s) ++ s.state.bits

end Sys2Proof.Machine
end

