-- ==== Sys2Proof/Machine/Operands.lean ====
section
/-!
DEFINITION. The operand forms: the register numbers of `RD` (10_state.md R49) and the value each register reads as.
The masking of VLAN ids and PCPs (30_encoding.md R91) is done by the decoder, which keeps the masked-off bits in `hi`.
-/

namespace Sys2Proof.Machine

/-- The register of a number of R49; `none` is a number that is not in the table. -/
def regOfNumber (r : BitVec 8) : Option Reg :=
  match r.toNat with
  | 0x00 => some .status
  | 0x01 => some .dst
  | 0x02 => some .src
  | 0x03 => some .vlan
  | 0x04 => some .profile
  | 0x05 => some .psize
  | 0x06 => some .tcCount
  | 0x07 => some .tcList
  | 0x08 => some .pps
  | 0x09 => some .duration
  | 0x0A => some .now
  | 0x0B => some .startT
  | 0x0C => some .k
  | 0x0D => some .total
  | 0x0E => some .elapsed
  | 0x0F => some .achPps
  | 0x20 => some .tickHz
  | 0x21 => some .sTcCount
  | 0x22 => some .sTcList
  | 0x23 => some .sPps
  | 0x24 => some .sDuration
  | 0x25 => some .sPsize
  | 0x26 => some .sProfile
  | 0x27 => some .sVlan
  | 0x28 => some .payloadMax
  | n =>
    if 0x10 ≤ n ∧ n < 0x18 then some (.cnt (BitVec.ofNat 3 (n - 0x10)))
    else if 0x18 ≤ n ∧ n < 0x20 then some (.flen (BitVec.ofNat 3 (n - 0x18)))
    else none

/-- `TC_LIST`: entry `i` in bits 4i+2 : 4i, bit 4i+3 zero, zero beyond the entries (R49). -/
def packClasses : List Pcp → BitVec 32
  | [] => 0
  | c :: cs => c.setWidth 32 ||| (packClasses cs <<< 4)

/-- `ACH_PPS` (R40): 0 if ELAPSED = 0, else floor(TOTAL × TICK_HZ / ELAPSED), the product at full width. -/
def achPps (s : State) : Word64 :=
  if s.elapsed = 0 then 0
  else BitVec.ofNat 64 (s.total.toNat * s.par.tickHz.toNat / s.elapsed.toNat)

/-- A register that R49 makes readable only when a bit is 1, and otherwise rejects for `r`. -/
def readIf (b : Bool) (r : Reason) (v : Word64) : Except Reason Word64 :=
  if b then .ok v else .error r

/-- The column "value returned" and "readable when" of R49, zero-extended to 64 bits. -/
def readReg (s : State) : Reg → Except Reason Word64
  | .status => .ok (statusWord s)
  | .dst => readIf s.wDst .unset (s.dst.setWidth 64)
  | .src => readIf s.wSrc .unset (s.src.setWidth 64)
  | .vlan => readIf s.wVlan .unset (s.vlan.setWidth 64)
  | .profile => readIf s.wProf .unset (s.profile.setWidth 64)
  | .psize => .ok (s.psize.setWidth 64)
  | .tcCount => .ok (s.tccnt.setWidth 64)
  | .tcList => .ok ((packClasses (classList s)).setWidth 64)
  | .pps => readIf s.wPps .unset (s.pps.setWidth 64)
  | .duration => readIf s.wDur .unset (s.duration.setWidth 64)
  | .now => .ok s.now
  | .startT => .ok s.startT
  | .k => .ok s.k
  | .total => .ok s.total
  | .elapsed => .ok s.elapsed
  | .achPps => .ok (achPps s)
  | .cnt c => .ok (at8 s.cnt c)
  | .flen f => readIf (at8 s.fvalid f) .noframe ((at8 s.flen f).setWidth 64)
  | .tickHz => .ok (s.par.tickHz.setWidth 64)
  | .sTcCount => .ok (s.sN.setWidth 64)
  | .sTcList => .ok ((packClasses (sessionClasses s)).setWidth 64)
  | .sPps => .ok (s.sPps.setWidth 64)
  | .sDuration => .ok (s.sDur.setWidth 64)
  | .sPsize => .ok (s.sPsize.setWidth 64)
  | .sProfile => .ok (s.sProf.setWidth 64)
  | .sVlan => .ok (s.sVlan.setWidth 64)
  | .payloadMax => .ok (s.par.payloadMax.setWidth 64)

end Sys2Proof.Machine
end

