-- ==== Sys2Proof/Machine/Assembler.lean ====
section
/-!
DEFINITION. The Host's assembler (30_encoding.md R110 to R114): command lines, MAC text, integers, the class list, the
expansion of the invocation surface, and the result report. It runs in the Host: only words reach the framer (R111).
Text is a list of characters. What R110 to R113 leave open of the text forms is in logs 13 and 14 (DESIGN CHOICE, unsafe).
-/

namespace Sys2Proof.Machine

/-- A decimal digit. -/
def decDigit (c : Char) : Option Nat :=
  if 48 ≤ c.toNat ∧ c.toNat ≤ 57 then some (c.toNat - 48) else none

/-- A hexadecimal digit, either case (R111: "case-insensitive hex"). -/
def hexDigit (c : Char) : Option Nat :=
  if 97 ≤ c.toNat ∧ c.toNat ≤ 102 then some (c.toNat - 87)
  else if 65 ≤ c.toNat ∧ c.toNat ≤ 70 then some (c.toNat - 55)
  else decDigit c

/-- Groups of exactly two hexadecimal digits, separated by `sep` and nothing else. -/
def macGroups (sep : Char) : List Char → Option (List Nat)
  | [a, b] =>
    match hexDigit a, hexDigit b with
    | some x, some y => some [x * 16 + y]
    | _, _ => none
  | a :: b :: c :: rest =>
    match hexDigit a, hexDigit b, macGroups sep rest with
    | some x, some y, some gs => if c = sep then some ((x * 16 + y) :: gs) else none
    | _, _, _ => none
  | _ => none

/-- Digit values as a number, the first the most significant. -/
def ofDigits (base : Nat) (ds : List Nat) : Nat := ds.foldl (fun n d => n * base + d) 0

/-- `parse_mac(text)` (R111): six groups, five equal separators `:` or `-`. `none` is ConstructionError. -/
def parseMac (text : List Char) : Option Mac :=
  match text with
  | _ :: _ :: sep :: _ =>
    if sep = ':' ∨ sep = '-' then
      match macGroups sep text with
      | some gs => if gs.length = 6 then some (BitVec.ofNat 48 (ofDigits 256 gs)) else none
      | none => none
    else none
  | _ => none

/-- A digit text as a number: at least one digit and nothing else. -/
def parseDigits (digit : Char → Option Nat) (base : Nat) (text : List Char) : Option Nat :=
  match text.mapM digit with
  | some (d :: ds) => some (ofDigits base (d :: ds))
  | _ => none

/-- "an unsigned integer in decimal or `0x` hexadecimal" (R110). -/
def parseNat (text : List Char) : Option Nat :=
  match text with
  | '0' :: 'x' :: ds => parseDigits hexDigit 16 ds
  | ds => parseDigits decDigit 10 ds

/-- A number that fits the 48-bit operand (R113). -/
def fitArg (n : Nat) : Option (BitVec 48) := if n < 2 ^ 48 then some (BitVec.ofNat 48 n) else none

/-- An integer operand; a text that is none, or does not fit, is an error (R113). -/
def parseArg (text : List Char) : Option (BitVec 48) := (parseNat text).bind fitArg

/-- Where the reader of a JSON array of integers stands. -/
inductive JsonPos where
  | start
  | first
  | num (n : Nat)
  | sep
  | next
  | done
  | bad
deriving DecidableEq, Repr

/-- JSON white space. -/
def jsonSpace (c : Char) : Bool := c == ' ' || c == '\t' || c == '\n' || c == '\r'

/-- One character of a JSON array of non-negative integers (R113); the integers read so far are in reverse. -/
def jsonStep (st : JsonPos × List Nat) (c : Char) : JsonPos × List Nat :=
  match st with
  | (.start, ns) => if jsonSpace c then (.start, ns) else if c = '[' then (.first, ns) else (.bad, ns)
  | (.first, ns) =>
    if jsonSpace c then (.first, ns) else if c = ']' then (.done, ns)
    else match decDigit c with
      | some d => (.num d, ns)
      | none => (.bad, ns)
  | (.num n, ns) =>
    if jsonSpace c then (.sep, n :: ns) else if c = ',' then (.next, n :: ns) else if c = ']' then (.done, n :: ns)
    else match decDigit c with
      | some d => if n = 0 then (.bad, ns) else (.num (n * 10 + d), ns)
      | none => (.bad, ns)
  | (.sep, ns) =>
    if jsonSpace c then (.sep, ns) else if c = ',' then (.next, ns) else if c = ']' then (.done, ns) else (.bad, ns)
  | (.next, ns) =>
    if jsonSpace c then (.next, ns)
    else match decDigit c with
      | some d => (.num d, ns)
      | none => (.bad, ns)
  | (.done, ns) => if jsonSpace c then (.done, ns) else (.bad, ns)
  | (.bad, ns) => (.bad, ns)

/-- `<tc_json>` (R113): a JSON array of integers, each of which fits the operand. The empty array is accepted. -/
def parseClasses (text : List Char) : Option (List (BitVec 48)) :=
  match text.foldl jsonStep (.start, []) with
  | (.done, ns) => ns.reverse.mapM fitArg
  | _ => none

/-- The register names of 10_state.md R49 with their numbers. -/
def regNames : List (List Char × BitVec 8) :=
  [("STATUS".toList, 0x00), ("DST".toList, 0x01), ("SRC".toList, 0x02), ("VLAN".toList, 0x03), ("PROFILE".toList, 0x04),
   ("PSIZE".toList, 0x05), ("TC_COUNT".toList, 0x06), ("TC_LIST".toList, 0x07), ("PPS".toList, 0x08),
   ("DURATION".toList, 0x09), ("NOW".toList, 0x0A), ("START_T".toList, 0x0B), ("K".toList, 0x0C), ("TOTAL".toList, 0x0D),
   ("ELAPSED".toList, 0x0E), ("ACH_PPS".toList, 0x0F), ("TICK_HZ".toList, 0x20), ("S_TC_COUNT".toList, 0x21),
   ("S_TC_LIST".toList, 0x22), ("S_PPS".toList, 0x23), ("S_DURATION".toList, 0x24), ("S_PSIZE".toList, 0x25),
   ("S_PROFILE".toList, 0x26), ("S_VLAN".toList, 0x27), ("PAYLOAD_MAX".toList, 0x28)] ++
  (List.range 8).map (fun i => ("CNT[".toList ++ [Char.ofNat (48 + i)] ++ "]".toList, BitVec.ofNat 8 (0x10 + i))) ++
  (List.range 8).map (fun i => ("FLEN[".toList ++ [Char.ofNat (48 + i)] ++ "]".toList, BitVec.ofNat 8 (0x18 + i)))

/-- "`RD` takes a register name of R49 or its number" (R110). -/
def parseReg (text : List Char) : Option (BitVec 48) :=
  match regNames.lookup text with
  | some n => some (n.setWidth 48)
  | none => parseArg text

/-- "`RDFB` takes `slot, offset`" (R110): the flat address, the offset below 2048. -/
def parseSlotOffset (text : List Char) : Option (BitVec 48) :=
  match parseNat (text.takeWhile (· != ',')), parseNat ((text.dropWhile (· != ',')).drop 1 |>.dropWhile (· == ' ')) with
  | some slot, some off => if off < 2048 then fitArg (slot * 2048 + off) else none
  | _, _ => none

/-- The word of a command whose operand text has been read; no operand is an error of the usage kind (R113). -/
def withOperand (op : BitVec 8) (arg : Option (BitVec 48)) : Except HostOutcome Word64 :=
  match arg with
  | some a => .ok (Sys2Proof.commandWord op a)
  | none => .error .usage

/-- The word of a command whose operand is a MAC address; a malformed one is ConstructionError (R111).
The whole rest of the line is the text R111 speaks of, so a missing or an extra operand is ConstructionError too (log 14,
DESIGN CHOICE). -/
def withMac (op : BitVec 8) (text : List Char) : Except HostOutcome Word64 :=
  match parseMac text with
  | some a => .ok (Sys2Proof.commandWord op a)
  | none => .error .construction

/-- The word of a command that takes no operand (R110). -/
def withNothing (op : BitVec 8) (text : List Char) : Except HostOutcome Word64 :=
  if text = [] then .ok (Sys2Proof.commandWord op 0) else .error .usage

/-- The mnemonics of R102 with their operand forms (R110). -/
def assembleCommand (mnemonic operand : List Char) : Except HostOutcome Word64 :=
  if mnemonic = "SETDST".toList then withMac 0x01 operand
  else if mnemonic = "SETSRC".toList then withMac 0x02 operand
  else if mnemonic = "SETVLAN".toList then withOperand 0x03 (parseArg operand)
  else if mnemonic = "SETPROF".toList then withOperand 0x04 (parseArg operand)
  else if mnemonic = "SETPSIZE".toList then withOperand 0x05 (parseArg operand)
  else if mnemonic = "TCCLR".toList then withNothing 0x06 operand
  else if mnemonic = "TCPUSH".toList then withOperand 0x07 (parseArg operand)
  else if mnemonic = "SETPPS".toList then withOperand 0x08 (parseArg operand)
  else if mnemonic = "SETDUR".toList then withOperand 0x09 (parseArg operand)
  else if mnemonic = "BUILD".toList then withOperand 0x10 (parseArg operand)
  else if mnemonic = "START".toList then withNothing 0x11 operand
  else if mnemonic = "STOP".toList then withNothing 0x12 operand
  else if mnemonic = "RD".toList then withOperand 0x20 (parseReg operand)
  else if mnemonic = "RDFB".toList then withOperand 0x21 (parseSlotOffset operand)
  else .error .usage

/-- One command line (R110): the mnemonic, then the operand, if any, after one or more spaces. Spaces after `TCCLR`, `START`,
`STOP` leave an empty operand and are accepted; after an operand they are not (log 14, DESIGN CHOICE). -/
def assembleLine (line : List Char) : Except HostOutcome Word64 :=
  assembleCommand (line.takeWhile (· != ' ')) ((line.dropWhile (· != ' ')).dropWhile (· == ' '))

/-- The expansion of R112 once every operand is read; `psize` is given or not. -/
def expansion (udp : Bool) (dst src : Mac) (vlan : BitVec 48) (psize : Option (BitVec 48)) (classes : List (BitVec 48))
    (pps duration : BitVec 48) : List Word64 :=
  [commandWord 0x01 dst, commandWord 0x02 src, commandWord 0x03 vlan, commandWord 0x04 (if udp then 1 else 0)] ++
  psize.toList.map (commandWord 0x05) ++ [commandWord 0x06 0] ++ classes.map (commandWord 0x07) ++
  [commandWord 0x08 pps, commandWord 0x09 duration, commandWord 0x11 0]

/-- The operands of R112 read: both `parse_mac` calls first, then the numbers and the class list. -/
def readInvocation (udp : Bool) (dst src vlan classes pps duration : List Char) (psize : Option (List Char)) :
    Except HostOutcome (List Word64) :=
  match parseMac dst, parseMac src with
  | some d, some c =>
    match parseArg vlan, parseClasses classes, parseArg pps, parseArg duration, psize.map parseArg with
    | some v, some cs, some p, some t, none => .ok (expansion udp d c v none cs p t)
    | some v, some cs, some p, some t, some (some n) => .ok (expansion udp d c v (some n) cs p t)
    | _, _, _, _, _ => .error .usage
  | _, _ => .error .construction

/-- `txgen.min` and `txgen.udp` (R112): seven positional operands, or eight with the payload size. The interface name selects
the sink's handle and "does not reach the framer". -/
def expandInvocation (udp : Bool) (args : List (List Char)) : Except HostOutcome (List Word64) :=
  match args with
  | [_, dst, src, vlan, classes, pps, duration] => readInvocation udp dst src vlan classes pps duration none
  | [_, dst, src, vlan, classes, pps, duration, psize] => readInvocation udp dst src vlan classes pps duration (some psize)
  | _ => .error .usage

/-- The result report (R114), read from the framer once the session has ended. -/
def reportOf (s : State) : Report :=
  { success := s.success, err := s.err
    counts := (sessionClasses s).map fun c => (c, at8 s.cnt c)
    total := s.total, elapsed := s.elapsed, achPps := achPps s, psize := s.sPsize }

end Sys2Proof.Machine
end

