-- ==== Sys2Proof/Machine/ConfigCommands.lean ====
section
/-!
DEFINITION. The nine configuration commands (40_config_commands.md R120 to R128). Each is rejected BUSY while
`STATE = RUN` (30_encoding.md R104 (3)) and otherwise answers `OK, 0` when it is accepted.
-/

namespace Sys2Proof.Machine

/-- `SETDST mac` (R120). -/
def execSetdst (mac : Mac) (s : State) : Result :=
  unlessBusy s <| .next (respond 0 { s with dst := mac, wDst := true })

/-- `SETSRC mac` (R121). -/
def execSetsrc (mac : Mac) (s : State) : Result :=
  unlessBusy s <| .next (respond 0 { s with src := mac, wSrc := true })

/-- `SETVLAN v` (R122): the low 12 bits are kept, TRUNC says that others were set. -/
def execSetvlan (hi : BitVec 36) (vid : Vid) (s : State) : Result :=
  unlessBusy s <| .next (respond 0 (noteTrunc (hi != 0) { s with vlan := vid, wVlan := true }))

/-- `SETPROF p` (R123). -/
def execSetprof (mbz : BitVec 47) (prof : BitVec 1) (s : State) : Result :=
  unlessBusy s <| check (mbz == 0) .oprange s <|
  .next (respond 0 { s with profile := prof, wProf := true })

/-- `SETPSIZE n` (R124). -/
def execSetpsize (mbz : BitVec 32) (n : BitVec 16) (s : State) : Result :=
  unlessBusy s <| check (mbz == 0) .oprange s <|
  check (decide (n.toNat ≤ s.par.payloadMax.toNat)) .oprange s <|
  .next (respond 0 { s with psize := n })

/-- `TCCLR` (R125). The old entries hold no value from here on; the model leaves their bits (log 6). -/
def execTcclr (mbz : BitVec 48) (s : State) : Result :=
  unlessBusy s <| check (mbz == 0) .oprange s <|
  .next (respond 0 { s with tccnt := 0 })

/-- `TCPUSH c` (R126). A push of a new class onto a full list cannot arise from reset (log 9). -/
def execTcpush (hi : BitVec 45) (pcp : Pcp) (s : State) : Result :=
  unlessBusy s <| check (!(classList s).contains pcp) .tcdup s <|
  if s.tccnt.toNat < 8 then
    .next (respond 0 (noteTrunc (hi != 0)
      { s with tclist := s.tclist.setIfInBounds s.tccnt.toNat pcp, tccnt := s.tccnt + 1 }))
  else .refused .classListFull

/-- `SETPPS p` (R127). -/
def execSetpps (mbz : BitVec 16) (rate : BitVec 32) (s : State) : Result :=
  unlessBusy s <| check (mbz == 0) .oprange s <| check (rate != 0) .oprange s <|
  .next (respond 0 { s with pps := rate, wPps := true })

/-- `SETDUR d` (R128). -/
def execSetdur (mbz : BitVec 16) (seconds : BitVec 32) (s : State) : Result :=
  unlessBusy s <| check (mbz == 0) .oprange s <|
  .next (respond 0 { s with duration := seconds, wDur := true })

end Sys2Proof.Machine
end

