-- ==== Sys2Proof/Machine/FrameBuilder.lean ====
section
/-!
DEFINITION. FrameBuilder: the Internet checksum (41_framebuilder.md R140), the build function (R145) with the layouts of
30_encoding.md R80 to R95, and the meaning of `BUILD` (R150).
-/

namespace Sys2Proof.Machine

/-- `be16(v)`: v[15:8], v[7:0] (00_scope.md R10). -/
def be16 (v : BitVec 16) : List Byte := [v.extractLsb' 8 8, v.extractLsb' 0 8]

/-- `be32(v)` (R10). -/
def be32 (v : BitVec 32) : List Byte :=
  [v.extractLsb' 24 8, v.extractLsb' 16 8, v.extractLsb' 8 8, v.extractLsb' 0 8]

/-- `be48(v)` (R10). -/
def be48 (v : BitVec 48) : List Byte :=
  [v.extractLsb' 40 8, v.extractLsb' 32 8, v.extractLsb' 24 8, v.extractLsb' 16 8, v.extractLsb' 8 8, v.extractLsb' 0 8]

/-- `s0` of R140: the exact sum of the 16-bit big-endian words, an odd last byte padded with a zero byte. -/
def wordSum : List Byte → Nat
  | [] => 0
  | [a] => a.toNat * 256
  | a :: b :: rest => a.toNat * 256 + b.toNat + wordSum rest

/-- One fold of R140. -/
def foldCarry (n : Nat) : Nat := n % 65536 + n / 65536

/-- `cksum(b)` (R140): two folds, then the one's complement of the low 16 bits. 0x0000 is not special (R142). -/
def cksum (b : List Byte) : BitVec 16 :=
  BitVec.ofNat 16 (65535 - foldCarry (foldCarry (wordSum b)) % 65536)

/-- The TCI (30_encoding.md R83): `(pcp << 13) | vid`. -/
def tci (pcp : Pcp) (vid : Vid) : BitVec 16 := (pcp.setWidth 16 <<< 13) ||| vid.setWidth 16

/-- The TOS byte (R92): `(pcp << 5) mod 256`. -/
def tos (pcp : Pcp) : Byte := pcp.setWidth 8 <<< 5

/-- Payload byte `i` is `i mod 256`, in both profiles (R87). -/
def payload (n : Nat) : List Byte := (List.range n).map fun i => BitVec.ofNat 8 i

/-- The 18 bytes every frame begins with (R80). -/
def ethHeader (dst src : Mac) (vid : Vid) (pcp : Pcp) : List Byte :=
  be48 dst ++ be48 src ++ [0x81, 0x00] ++ be16 (tci pcp vid) ++ [0x08, 0x00]

/-- The 20 bytes of the IPv4 header with the checksum field zero (R85, R93): `h0` of R95. -/
def ipv4HeaderZero (p : Params) (pcp : Pcp) (n : Nat) : List Byte :=
  [0x45, tos pcp] ++ be16 (BitVec.ofNat 16 (28 + n)) ++ [0x00, 0x00] ++ [0x00, 0x00] ++ [0x40, 0x11] ++ [0x00, 0x00] ++
  be32 p.srcIp ++ be32 p.dstIp

/-- Bytes 10..11 of a header replaced by `be16(c)` (R95). -/
def fillChecksum (h0 : List Byte) (c : BitVec 16) : List Byte := h0.take 10 ++ be16 c ++ h0.drop 12

/-- The finished IPv4 header: the two passes of R95 and 41_framebuilder.md R146. -/
def ipv4Header (p : Params) (pcp : Pcp) (n : Nat) : List Byte :=
  fillChecksum (ipv4HeaderZero p pcp n) (cksum (ipv4HeaderZero p pcp n))

/-- The 8 bytes of the UDP header (R86, R93, R94); its checksum field is the constant 0. -/
def udpHeader (p : Params) (pcp : Pcp) (n : Nat) : List Byte :=
  be16 (p.sportBase + pcp.setWidth 16) ++ be16 (p.dportBase + pcp.setWidth 16) ++ be16 (BitVec.ofNat 16 (8 + n)) ++ [0x00, 0x00]

/-- Zero bytes up to 60 bytes in all (R82). -/
def padFrame (f : List Byte) : List Byte := f ++ List.replicate (60 - f.length) 0x00

/-- `build(dst, src, vid, pcp, prof, n)` (41_framebuilder.md R145): profile 0 is the minimal one, 1 the UDP one. -/
def build (p : Params) (dst src : Mac) (vid : Vid) (pcp : Pcp) (prof : BitVec 1) (n : Nat) : List Byte :=
  padFrame (ethHeader dst src vid pcp ++
    (if prof = 0 then payload n else ipv4Header p pcp n ++ udpHeader p pcp n ++ payload n))

/-- The frame of class `c` under the configuration registers: the call that `BUILD` and `START` make (R150, R162). -/
def frameFor (s : State) (c : Pcp) : List Byte :=
  build s.par s.dst s.src s.vlan c s.profile s.psize.toNat

/-- `BUILD c` (R150). The response data is the frame length, as R150 says and 30_encoding.md R101 does not (log 18, DEDUCED). -/
def execBuild (hi : BitVec 45) (pcp : Pcp) (s : State) : Result :=
  unlessBusy s <|
  check (cfgFrameOk s) .unset s <|
  if (frameFor s pcp).length ≤ frameLenMax then
    .next (respond (BitVec.ofNat 64 (frameFor s pcp).length)
      (noteTrunc (hi != 0) (installFrame pcp (frameFor s pcp) s)))
  else .refused .memWriteOutsideSlot

end Sys2Proof.Machine
end

