-- ==== Sys2Proof/Machine/PacedSender.lean ====
section
/-!
DEFINITION. PacedSender (42_pacedsender.md): the meanings of `START` (R160 to R163) and `STOP` (R169), the schedule (R164),
the Sender's two steps LoopTop (R165) and Attempt (R166, R167), and Tick (R170).
-/

namespace Sys2Proof.Machine

/-- What an accepted `START` clears and copies (R161), before it asks the sink. `S_ORDER` is copied whole: its entries from
S_N on hold no value (log 6). -/
def clearResult (s : State) : State :=
  { s with
    success := false, err := 0, svalid := false, stopped := false
    k := 0, total := 0, elapsed := 0, cnt := Vector.replicate 8 0
    sN := s.tccnt, sOrder := s.tclist, sPps := s.pps, sDur := s.duration
    sPsize := s.psize, sProf := s.profile, sVlan := s.vlan, startT := s.now }

/-- The frame of each class of `cs` put into its slot, in order (R162). -/
def installFrames (frame : Pcp → List Byte) : List Pcp → State → State
  | [], s => s
  | c :: cs, s => installFrames frame cs (installFrame c (frame c) s)

/-- R162: every slot invalidated, then one frame built per class of the session. A slot that is not rebuilt keeps its old FLEN,
which holds no value in the spec while FVALID is 0 (10_state.md R45, U14); no rule reads it (log 6, DESIGN CHOICE, unsafe
for a claim about it). -/
def precompute (s : State) : State :=
  installFrames (frameFor s) (sessionClasses s) { s with fvalid := Vector.replicate 8 false }

/-- R161 (HOPEN), R162, R163: the handle is owned, the frames are built, the loop is entered. -/
def enterLoop (s : State) : State :=
  respond 0 (setPosition .run .top { precompute { s with hopen := true } with svalid := true })

/-- `NOW + DURATION × TICK_HZ`, exact (R160, R175). -/
def sessionEnd (s : State) : Nat := s.now.toNat + s.duration.toNat * s.par.tickHz.toNat

/-- `START` (R160 to R163), one atomic step. -/
def execStart (mbz : BitVec 48) (s : State) : Result :=
  unlessBusy s <| check (mbz == 0) .oprange s <|
  check (cfgRunOk s) .unset s <|
  check (s.tccnt != 0) .tcempty s <|
  check (decide (sessionEnd s < 2 ^ 64)) .timerange s <|
  match openAnswer s with
  | .fail => .next (raise .handleAcquisition (openSink (clearResult s)))
  | .ok =>
    if (sessionClasses (clearResult s)).all fun c => decide ((frameFor s c).length ≤ frameLenMax) then
      .next (enterLoop (openSink (clearResult s)))
    else .refused .memWriteOutsideSlot

/-- `STOP` (R169): ends a running session, otherwise nothing; never rejected BUSY. -/
def execStop (mbz : BitVec 48) (s : State) : Result :=
  check (mbz == 0) .oprange s <|
  .next (respond 0 (if s.state = .run then finish .stopped s else s))

/-- `due(k)` (R164): `(NOW - START_T) × S_PPS ≥ k × TICK_HZ`, exact products. -/
def due (s : State) (k : Nat) : Bool :=
  decide (k * s.par.tickHz.toNat ≤ sinceStart s * s.sPps.toNat)

/-- The duration has elapsed: the loop condition of R165. -/
def durationOver (s : State) : Bool :=
  decide (s.sDur.toNat * s.par.tickHz.toNat ≤ sinceStart s)

/-- LoopTop (R165). -/
def loopTop (s : State) : State :=
  if durationOver s then finish .normal s else setPosition .run .wait s

/-- The class of the next attempt: `S_ORDER[K mod S_N]` (R167). -/
def attemptClass (s : State) : Option Pcp := (sessionClasses s)[s.k.toNat % s.sN.toNat]?

/-- R167, step 5: a success of class `c` is counted. -/
def countSuccess (c : Pcp) (s : State) : State :=
  { s with cnt := set8 s.cnt c (at8 s.cnt c + 1), total := s.total + 1 }

/-- R167, step 6: the packet index advances and the loop goes back to its top. -/
def advanceIndex (s : State) : State := setPosition .run .top { s with k := s.k + 1 }

/-- What an attempt does with the sink's answer (R167, 60_exceptions.md R193, R194). -/
def settleAttempt (c : Pcp) (r : SendAns) (s : State) : State :=
  match r with
  | .error => raise .fatalSend s
  | .success => advanceIndex (countSuccess c s)
  | .wouldBlock => advanceIndex s

/-- Attempt, its body (R167): the frame built at START is read whole, handed to the sink, and the answer settled. -/
def attempt (s : State) : Result :=
  match attemptClass s with
  | none => .refused .noSessionClass
  | some c =>
    memRead s (slotBase c) (at8 s.flen c).toNat fun f =>
      .next (settleAttempt c (sendAnswer s) (sendSink c f s))

/-- Tick (R170). -/
def tick (s : State) : State := { s with now := s.now + 1 }

/-- The framer's own agents (00_scope.md R7): the Sender's step if one is enabled, else Tick. -/
def advance (s : State) : Result :=
  match s.state, s.phase with
  | .run, .top => .next (loopTop s)
  | .run, .wait => if due s s.k.toNat then attempt s else .next (tick s)
  | .idle, _ => .next (tick s)
  | .done, _ => .next (tick s)

end Sys2Proof.Machine
end

