-- ==== Sys2Proof/Machine/ReadCommands.lean ====
section
/-!
DEFINITION. The read commands (40_config_commands.md R130, R131). They are never rejected BUSY and have no side effect but
the response and, when rejected, CMDERR and LASTREJ (10_state.md R50).
-/

namespace Sys2Proof.Machine

/-- The answer of a read: the value, or a reject. -/
def answerRead (v : Except Reason Word64) (s : State) : Result :=
  match v with
  | .ok d => .next (respond d s)
  | .error r => .next (reject r s)

/-- `RD r` (R130). -/
def execRd (mbz : BitVec 40) (reg : BitVec 8) (s : State) : Result :=
  check (mbz == 0) .oprange s <|
  match regOfNumber reg with
  | none => .next (reject .badreg s)
  | some r => answerRead (readReg s r) s

/-- `RDFB slot, off` (R131). -/
def execRdfb (mbz : BitVec 34) (slot : Pcp) (off : BitVec 11) (s : State) : Result :=
  check (mbz == 0) .oprange s <|
  check (at8 s.fvalid slot) .noframe s <|
  check (decide (off.toNat < (at8 s.flen slot).toNat)) .noframe s <|
  memRead s (slotBase slot + off.toNat) 1 fun bs =>
    .next (respond ((bs.headD 0).setWidth 64) s)

end Sys2Proof.Machine
end

