-- ==== Sys2Proof/Machine/Dispatch.lean ====
section
/-! DEFINITION. One arm per command of 30_encoding.md R102, each a direct call of its meaning. -/

namespace Sys2Proof.Machine

def exec (i : Instr) (s : State) : Host.Outcome State Fault Refusal :=
  match i with
  | .setdst mac => Sys2Proof.Machine.execSetdst mac s
  | .setsrc mac => Sys2Proof.Machine.execSetsrc mac s
  | .setvlan hi vid => Sys2Proof.Machine.execSetvlan hi vid s
  | .setprof mbz prof => Sys2Proof.Machine.execSetprof mbz prof s
  | .setpsize mbz n => Sys2Proof.Machine.execSetpsize mbz n s
  | .tcclr mbz => Sys2Proof.Machine.execTcclr mbz s
  | .tcpush hi pcp => Sys2Proof.Machine.execTcpush hi pcp s
  | .setpps mbz rate => Sys2Proof.Machine.execSetpps mbz rate s
  | .setdur mbz seconds => Sys2Proof.Machine.execSetdur mbz seconds s
  | .build hi pcp => Sys2Proof.Machine.execBuild hi pcp s
  | .start mbz => Sys2Proof.Machine.execStart mbz s
  | .stop mbz => Sys2Proof.Machine.execStop mbz s
  | .rd mbz reg => Sys2Proof.Machine.execRd mbz reg s
  | .rdfb mbz slot off => Sys2Proof.Machine.execRdfb mbz slot off s

end Sys2Proof.Machine
end

