-- ==== Sys2Proof/Machine/HostAgent.lean ====
section
/-!
DEFINITION. The Host's acts (00_scope.md R6, 60_exceptions.md R210): a command word, the reset step, standing aside, and
what its assembler does with text (30_encoding.md R110 to R114). Logs 1, 2, 14, 15.
-/

namespace Sys2Proof.Machine

/-- One command word (30_encoding.md R104): rejected by the decoder, or run. -/
def runWord (w : Word64) (s : State) : Result :=
  match Sys2Proof.decode w with
  | .instr i => exec i s
  | .illop => .next (reject .illop s)
  | .rsvbits => .next (reject .rsvbits s)

/-- The last command was rejected. -/
def wasRejected (s : State) : Bool :=
  match s.resp with
  | some r => decide (r.status = .reject)
  | none => false

/-- The rest of a schedule without what is left of the invocation at its head: its words, and its polling. -/
def dropInvocation : List HostAct → List HostAct
  | .invoked _ :: rest => dropInvocation rest
  | .await :: rest => rest
  | q => q

/-- "If any command of the expansion is rejected the Host stops issuing and reports the reject reason" (R112).
The reject response carries no reason (R101), and 10_state.md R44 lets only RD STATUS read LASTREJ: taking LASTREJ here, in the
rejecting step, stands for that read, which is not issued (log 15, DESIGN CHOICE). -/
def afterInvoked (s : State) : State :=
  if wasRejected s then
    { s with hostq := dropInvocation s.hostq, hostOut := some (.rejected s.lastrej) }
  else s

/-- The Host reads the result (R114). -/
def takeReport (s : State) : State := { s with hostOut := some (.report (reportOf s)) }

/-- What follows a result with one more change to its next state. -/
def thenDo (r : Result) (f : State → State) : Result :=
  match r with
  | .next s => .next (f s)
  | .fault e => .fault e
  | .refused e => .refused e

/-- One act, taken off the schedule of `s` already. -/
def hostAct (a : HostAct) (s : State) : Result :=
  match a with
  | .word w => runWord w s
  | .pass => advance s
  | .reset => .next (resetStep s)
  | .program [] => .next s
  | .program (line :: lines) =>
    match assembleLine line with
    | .ok w => runWord w { s with hostq := .program lines :: s.hostq }
    | .error e => .next { s with hostOut := some e }
  | .txgen udp args =>
    match expandInvocation udp args with
    | .ok ws => .next { s with hostq := ws.map .invoked ++ .await :: s.hostq }
    | .error e => .next { s with hostOut := some e }
  | .invoked w => thenDo (runWord w s) afterInvoked
  | .await =>
    if s.state = .done then thenDo (runWord (Sys2Proof.commandWord 0x20 0) s) takeReport
    else advance { s with hostq := .await :: s.hostq }

end Sys2Proof.Machine
end

