-- ==== Sys2Proof/Machine/Step.lean ====
section
/-!
DEFINITION. One step of the whole: the next act of the Host's schedule, or, when the schedule is empty, the framer's own
agents (00_scope.md R6, R7; log 1).
-/

namespace Sys2Proof.Machine

/-- The step. -/
def step (s : State) : Host.Outcome State Fault Refusal :=
  match s.hostq with
  | [] => advance s
  | a :: rest => hostAct a { s with hostq := rest }

/-- `s` with the command word `w` at the head of the Host's schedule (log 2). -/
def State.withFetchWord (s : State) (nbits w : Nat) : State :=
  { s with hostq := .word (BitVec.ofNat 64 (w % 2 ^ nbits)) :: s.hostq }

end Sys2Proof.Machine
end

