-- ==== Sys2Proof/Safety.lean ====
section
/-!
DEFINITION. What holds in every state a run can reach, in the spec's terms: the invariants of 10_state.md, of
42_pacedsender.md R172 and R173, and of 60_exceptions.md R208. `FramerInv` is their conjunction; a step from a state with `FramerInv`
neither faults nor refuses, and its next state has `FramerInv` again (Certificates/Slice0/Obligations.lean states both).
-/

namespace Sys2Proof.Machine

/-! ### Quantities of a session (R172: P = S_PPS, D = S_DUR, T = TICK_HZ) -/

/-- `P × D`. -/
def plannedAttempts (s : State) : Nat := s.sPps.toNat * s.sDur.toNat

/-- `D × T`, the duration in ticks. -/
def durationTicks (s : State) : Nat := s.sDur.toNat * s.par.tickHz.toNat

/-- The sum of the eight counters, without wrap. -/
def countSum (s : State) : Nat := (s.cnt.toList.map BitVec.toNat).sum

/-! ### TXLOG -/

/-- One event read by the bracket check of R208: `some b` says that the log so far is well bracketed and that the handle is
open exactly when `b`. -/
def scanEvent : Option Bool → TxEvent → Option Bool
  | some false, .opened .ok => some true
  | some false, .opened .fail => some false
  | some true, .send _ _ _ _ _ => some true
  | some true, .closed => some false
  | _, _ => none

/-- R208: every `Open(ok)` has one `Close` before the next `Open`, every `Send` lies between the two, and no `Close` follows
an `Open(fail)`. -/
def scanLog (l : List TxEvent) : Option Bool := l.foldl scanEvent (some false)

/-- One event of the log added to those after the latest `Open`. -/
def keepSession (es : List TxEvent) : TxEvent → List TxEvent
  | .opened _ => []
  | e => es ++ [e]

/-- The events after the latest `Open`: those of the latest session. -/
def sessionEvents (l : List TxEvent) : List TxEvent := l.foldl keepSession []

/-- An attempt answered `r`. -/
def isAnswer (r : SendAns) : TxEvent → Bool
  | .send _ _ _ _ a => decide (a = r)
  | _ => false

/-- An attempt of class `c` answered `success`. -/
def isSuccessOf (c : Pcp) : TxEvent → Bool
  | .send _ _ d _ a => decide (d = c) && decide (a = .success)
  | _ => false

/-- The attempt index of an attempt that was not answered `error`. -/
def attemptIndex : TxEvent → Option Nat
  | .send _ k _ _ r => if r = .error then none else some k.toNat
  | _ => none

/-! ### The invariants -/

/-- Configuration (10_state.md R25, R26, R27; 00_scope.md R5). R25's "`PSIZE ≤ PAYLOAD_MAX` always holds" fails of its own reset
value 10 where PAYLOAD_MAX is below 10, so the bound here is the larger of the two (log 17). -/
structure ConfigOk (s : State) : Prop where
  params : s.par.ok = true
  psize : s.psize.toNat ≤ max 10 s.par.payloadMax.toNat
  pps : s.wPps = true → 1 ≤ s.pps.toNat
  tccnt : s.tccnt.toNat ≤ 8
  distinct : (classList s).Nodup

/-- The session's class order and, while RUN, its other copies: they are those of the configuration registers, which
cannot change during a session (10_state.md R34, 70_reset_and_hazards.md R226). -/
structure SessionOk (s : State) : Prop where
  count : s.sN.toNat ≤ 8
  distinct : (sessionClasses s).Nodup
  nonempty : s.state = .run → 1 ≤ s.sN.toNat
  rate : s.state = .run → 1 ≤ s.sPps.toNat
  copies : s.state = .run → s.sPsize = s.psize ∧ s.sProf = s.profile ∧ s.sVlan = s.vlan

/-- Control position and handle (R30: "`PHASE` is written 0 whenever `STATE` leaves `RUN`"; R35). -/
structure ControlOk (s : State) : Prop where
  phase : s.state ≠ .run → s.phase = .top
  handle : s.hopen = true ↔ s.state = .run

/-- Frame store and frame cache (20_memory.md R61, 10_state.md R45, R46; 42_pacedsender.md R162). R45's bound `46 + PAYLOAD_MAX`
is that of a frame that needs no padding: with PAYLOAD_MAX below 14 the padding of R82 makes it 60 (log 17). -/
structure FramesOk (s : State) : Prop where
  canonical : s.fs.wf = true
  lengths : ∀ c, at8 s.fvalid c = true →
    60 ≤ (at8 s.flen c).toNat ∧ (at8 s.flen c).toNat ≤ max 60 (46 + s.par.payloadMax.toNat)
  whole : ∀ c, at8 s.fvalid c = true → (s.fs.bytes (slotBase c) (at8 s.flen c).toNat).isSome = true
  built : s.state = .run → ∀ c ∈ sessionClasses s,
    at8 s.fvalid c = true ∧ s.fs.bytes (slotBase c) (at8 s.flen c).toNat = some (frameFor s c)

/-- Counters (R31, R41, R42): the sum, the classes outside the session, `TOTAL ≤ K`, `K ≤ P × D + 1`. -/
structure CountersOk (s : State) : Prop where
  sum : s.total.toNat = countSum s
  outside : ∀ c, c ∉ sessionClasses s → at8 s.cnt c = 0
  drops : s.total.toNat ≤ s.k.toNat
  bound : s.k.toNat ≤ plannedAttempts s + 1

/-- Pacing (42_pacedsender.md R160, R164 to R166, R170): while RUN, NOW lies in the session and cannot wrap; the attempts
made are exactly those due, none earlier than its tick and none later. -/
structure PaceOk (s : State) : Prop where
  started : s.state = .run → s.startT.toNat ≤ s.now.toNat
  inside : s.state = .run → sinceStart s ≤ durationTicks s
  noWrap : s.state = .run → s.startT.toNat + durationTicks s < 2 ^ 64
  notEarly : s.state = .run → s.k.toNat * s.par.tickHz.toNat ≤ sinceStart s * s.sPps.toNat + s.par.tickHz.toNat
  waiting : s.state = .run → s.phase = .wait →
    s.k.toNat ≤ plannedAttempts s ∧
    (sinceStart s = 0 ∨ (sinceStart s - 1) * s.sPps.toNat < s.k.toNat * s.par.tickHz.toNat)
  atTop : s.state = .run → s.phase = .top →
    (sinceStart s = 0 ∨
      (1 ≤ s.k.toNat ∧ (sinceStart s - 1) * s.sPps.toNat < (s.k.toNat - 1) * s.par.tickHz.toNat))
  ended : s.svalid = true → s.state = .done →
    s.k.toNat * s.par.tickHz.toNat ≤ s.elapsed.toNat * s.sPps.toNat + s.par.tickHz.toNat

/-- Outcome fields (R39, R40, 60_exceptions.md R190): which combinations each STATE allows. -/
structure OutcomeOk (s : State) : Prop where
  idle : s.state = .idle → s.success = false ∧ s.err = 0 ∧ s.svalid = false ∧ s.stopped = false ∧
    s.k = 0 ∧ s.total = 0 ∧ s.elapsed = 0
  run : s.state = .run → s.success = false ∧ s.err = 0 ∧ s.svalid = true ∧ s.stopped = false ∧ s.elapsed = 0
  done : s.state = .done →
    (s.success = true ∧ s.err = 0 ∧ s.svalid = true) ∨
    (s.success = false ∧ s.err = 4 ∧ s.svalid = true ∧ s.stopped = false) ∨
    (s.success = false ∧ s.err = 2 ∧ s.svalid = false ∧ s.stopped = false ∧ s.k = 0 ∧ s.total = 0 ∧ s.elapsed = 0)

/-- A session that ended by its duration (R172): `ELAPSED = D × T`, and with `P ≤ T` and `D ≥ 1` exactly `P × D + 1`
attempts. -/
def NormalEndOk (s : State) : Prop :=
  s.state = .done → s.success = true → s.stopped = false →
    s.elapsed.toNat = durationTicks s ∧
    (s.sPps.toNat ≤ s.par.tickHz.toNat → 1 ≤ s.sDur.toNat → s.k.toNat = plannedAttempts s + 1)

/-- Rejects (R44, 60_exceptions.md R199): LASTREJ is one of the ten codes exactly when CMDERR is set. -/
structure RejectOk (s : State) : Prop where
  code : s.lastrej.toNat ≤ 10
  flag : s.cmderr = true ↔ s.lastrej ≠ 0

/-- TXLOG against the state (R208, R31, R36, R37, R42, R172, R173). -/
structure LogOk (s : State) : Prop where
  brackets : scanLog s.txlog = some s.hopen
  index : s.k.toNat =
    (sessionEvents s.txlog).countP (isAnswer .success) + (sessionEvents s.txlog).countP (isAnswer .wouldBlock)
  indices : (sessionEvents s.txlog).filterMap attemptIndex = List.range s.k.toNat
  total : s.total.toNat = (sessionEvents s.txlog).countP (isAnswer .success)
  perClass : ∀ c, (at8 s.cnt c).toNat = (sessionEvents s.txlog).countP (isSuccessOf c)
  schedule : ∀ t k c f r, .send t k c f r ∈ sessionEvents s.txlog →
    (sessionClasses s)[k.toNat % s.sN.toNat]? = some c ∧
    k.toNat * s.par.tickHz.toNat ≤ t * s.sPps.toNat ∧
    (t = 0 ∨ (t - 1) * s.sPps.toNat < k.toNat * s.par.tickHz.toNat)

/-- Everything above together. -/
structure FramerInv (s : State) : Prop where
  config : ConfigOk s
  session : SessionOk s
  control : ControlOk s
  frames : FramesOk s
  counters : CountersOk s
  pace : PaceOk s
  outcome : OutcomeOk s
  normalEnd : NormalEndOk s
  rejects : RejectOk s
  log : LogOk s

end Sys2Proof.Machine
end

