-- ==== Sys2Proof/WellFormed.lean ====
section
/-!
DEFINITION. A well-formed command: every check of 30_encoding.md R104 (4) passes, that is no "must be 0" operand bit is
set and the operand value is in the range R103 states. The widths themselves are in the types of Syntax.lean.
A command that is not well formed still decodes and is rejected OPRANGE by its meaning.
-/

namespace Sys2Proof

/-- R103 and R104 (4), one line per opcode. `p` gives PAYLOAD_MAX. -/
def Instr.wellFormed (p : Params) : Instr → Bool
  | .setdst _ => true
  | .setsrc _ => true
  | .setvlan _ _ => true
  | .setprof mbz _ => mbz == 0
  | .setpsize mbz n => mbz == 0 && decide (n.toNat ≤ p.payloadMax.toNat)
  | .tcclr mbz => mbz == 0
  | .tcpush _ _ => true
  | .setpps mbz rate => mbz == 0 && rate != 0
  | .setdur mbz _ => mbz == 0
  | .build _ _ => true
  | .start mbz => mbz == 0
  | .stop mbz => mbz == 0
  | .rd mbz _ => mbz == 0
  | .rdfb mbz _ _ => mbz == 0

end Sys2Proof
end

