-- ==== Sys2Proof/Certificates/Slice0/Obligations.lean ====
section
/-!
DEFINITION. The statements for the provers, from the numbered rules of spec/. The namespace Claims holds the words they are
written in: the two responses, the checks of `START`, what `Finish` writes, and the values the reset rule gives.
A next state written as `{ s with … }` says the frame too: every field not named is unchanged.
-/

namespace Sys2Proof.Claims

open Sys2Proof.Machine

/-- The state after `respond(d)` and nothing else: response `{OK, d}` (00_scope.md R11, 30_encoding.md R101). -/
def answered (d : Word64) (s : State) : State := { s with resp := some ⟨.ok, d⟩ }

/-- The state after a reject with this code and nothing else (60_exceptions.md R198, R199). -/
def rejected (code : BitVec 8) (s : State) : State :=
  { s with cmderr := true, lastrej := code, resp := some ⟨.reject, 0⟩ }

/-- The command word of an opcode and an operand (30_encoding.md R100). -/
def word (op : BitVec 8) (arg : BitVec 48) : Word64 := op ++ 0#8 ++ arg

/-- The fourteen opcodes of R102. -/
def opcodes : List (BitVec 8) :=
  [0x01, 0x02, 0x03, 0x04, 0x05, 0x06, 0x07, 0x08, 0x09, 0x10, 0x11, 0x12, 0x20, 0x21]

/-- The opcodes R104 (3) exempts from BUSY: STOP, RD, RDFB. -/
def neverBusy : List (BitVec 8) := [0x12, 0x20, 0x21]

/-- The four written-bits that BUILD checks (41_framebuilder.md R150). -/
def frameWritten (s : State) : Prop := s.wDst = true ∧ s.wSrc = true ∧ s.wVlan = true ∧ s.wProf = true

/-- The six written-bits that START checks (42_pacedsender.md R160). -/
def allWritten (s : State) : Prop := frameWritten s ∧ s.wPps = true ∧ s.wDur = true

/-- A state in which START passes every check of R160. -/
def startable (s : State) : Prop :=
  s.state ≠ .run ∧ allWritten s ∧ s.tccnt ≠ 0 ∧ s.now.toNat + s.duration.toNat * s.par.tickHz.toNat < 2 ^ 64

/-- What R161 clears and copies, and the `Open` event. -/
def sessionBegun (s t : State) : Prop :=
  t.success = false ∧ t.stopped = false ∧ t.k = 0 ∧ t.total = 0 ∧ t.elapsed = 0 ∧ (∀ c, at8 t.cnt c = 0) ∧
  t.sN = s.tccnt ∧ sessionClasses t = classList s ∧ t.sPps = s.pps ∧ t.sDur = s.duration ∧ t.sPsize = s.psize ∧
  t.sProf = s.profile ∧ t.sVlan = s.vlan ∧ t.startT = s.now ∧ t.txlog = s.txlog ++ [.opened (openAnswer s)]

/-- START changes no configuration register, no sticky flag, not NOW, no parameter, and nothing of the Host. -/
def startKeeps (s t : State) : Prop :=
  t = { s with
    success := t.success, err := t.err, svalid := t.svalid, stopped := t.stopped
    k := t.k, total := t.total, elapsed := t.elapsed, cnt := t.cnt
    sN := t.sN, sOrder := t.sOrder, sPps := t.sPps, sDur := t.sDur, sPsize := t.sPsize, sProf := t.sProf, sVlan := t.sVlan
    startT := t.startT, hopen := t.hopen, state := t.state, phase := t.phase
    fs := t.fs, flen := t.flen, fvalid := t.fvalid, txlog := t.txlog, resp := t.resp, openQ := t.openQ, draws := t.draws }

/-- The frame that BUILD and START build for class `c` (R150, R162). -/
def builtFor (s : State) (c : Pcp) : List Byte := build s.par s.dst s.src s.vlan c s.profile s.psize.toNat

/-- What `Finish` writes, with its three outcome fields (42_pacedsender.md R168). -/
def finished (success stopped : Bool) (err : BitVec 4) (s : State) : State :=
  { s with
    txlog := s.txlog ++ [.closed], hopen := false
    elapsed := BitVec.ofNat 64 (s.now.toNat - s.startT.toNat)
    success := success, stopped := stopped, err := err, state := .done, phase := .top }

/-- The duration test of LoopTop (R165). -/
def durationReached (s : State) : Prop := s.sDur.toNat * s.par.tickHz.toNat ≤ s.now.toNat - s.startT.toNat

/-- `due(K)` (R164). -/
def attemptDue (s : State) : Prop :=
  s.k.toNat * s.par.tickHz.toNat ≤ (s.now.toNat - s.startT.toNat) * s.sPps.toNat

/-- The `Send` event of an attempt of class `c` with frame `f`, answered `r` (10_state.md R47). -/
def sendEvent (s : State) (c : Pcp) (f : List Byte) (r : SendAns) : TxEvent :=
  .send (s.now.toNat - s.startT.toNat) s.k c f r

/-- The quotient rounded up. -/
def ceilDiv (a b : Nat) : Nat := (a + b - 1) / b

/-- Bytes `j` and `j + 1` of `f` hold the 16-bit number `v`, the high byte first (20_memory.md R63). -/
def half (f : List Byte) (j v : Nat) : Prop :=
  v < 65536 ∧ f[j]? = some (BitVec.ofNat 8 (v / 256)) ∧ f[j + 1]? = some (BitVec.ofNat 8 (v % 256))

/-- The values 10_state.md R51 gives; the elements it leaves without a value are not named. -/
def hasResetValues (t : State) : Prop :=
  (t.wDst = false ∧ t.wSrc = false ∧ t.wVlan = false ∧ t.wProf = false ∧ t.wPps = false ∧ t.wDur = false) ∧
  t.psize = 10 ∧ t.tccnt = 0 ∧ t.state = .idle ∧ t.phase = .top ∧
  (t.k = 0 ∧ t.total = 0 ∧ (∀ c, at8 t.cnt c = 0) ∧ t.elapsed = 0 ∧ t.startT = 0) ∧ t.now = 0 ∧
  (t.sN = 0 ∧ t.sPps = 0 ∧ t.sDur = 0 ∧ t.sPsize = 0 ∧ t.sProf = 0 ∧ t.sVlan = 0) ∧ t.hopen = false ∧
  (t.success = false ∧ t.err = 0 ∧ t.svalid = false ∧ t.stopped = false) ∧
  (t.trunc = false ∧ t.cmderr = false ∧ t.lastrej = 0) ∧
  (∀ c, at8 t.fvalid c = false) ∧ (∀ a, t.fs.byte a = none) ∧ t.txlog = []

/-- The text of MAC groups with one separator (30_encoding.md R111). -/
def macText (sep : Char) : List (Char × Char) → List Char
  | [] => []
  | [(a, b)] => [a, b]
  | (a, b) :: g :: rest => a :: b :: sep :: macText sep (g :: rest)

/-- `c` is the hexadecimal digit of value `v`, in either case (R111). -/
def isHex (c : Char) (v : Nat) : Prop :=
  v < 16 ∧ ("0123456789abcdef".toList[v]? = some c ∨ "0123456789ABCDEF".toList[v]? = some c)

/-- The words of an invocation in the order of R112. -/
def invocationWords (udp : Bool) (dst src : Mac) (vlan : BitVec 48) (psize : Option (BitVec 48))
    (classes : List (BitVec 48)) (pps duration : BitVec 48) : List Word64 :=
  [word 0x01 dst, word 0x02 src, word 0x03 vlan, word 0x04 (if udp then 1 else 0)] ++
  (match psize with
    | some n => [word 0x05 n]
    | none => []) ++
  [word 0x06 0] ++ classes.map (word 0x07) ++ [word 0x08 pps, word 0x09 duration, word 0x11 0]

end Sys2Proof.Claims

open Sys2Proof Sys2Proof.Machine Sys2Proof.Claims

/-! ### Configuration commands (40_config_commands.md) -/

/-- R120. -/
def Obligations.SetdstStoresMac : Prop :=
  ∀ (mac : Mac) (s : State),
    decode (word 0x01 mac) = .instr (.setdst mac) ∧
    (s.state ≠ .run → exec (.setdst mac) s = .next (answered 0 { s with dst := mac, wDst := true })) ∧
    (s.state = .run → exec (.setdst mac) s = .next (rejected 4 s))

/-- R121. -/
def Obligations.SetsrcStoresMac : Prop :=
  ∀ (mac : Mac) (s : State),
    decode (word 0x02 mac) = .instr (.setsrc mac) ∧
    (s.state ≠ .run → exec (.setsrc mac) s = .next (answered 0 { s with src := mac, wSrc := true })) ∧
    (s.state = .run → exec (.setsrc mac) s = .next (rejected 4 s))

/-- R122: the operand is `hi ++ vid`. -/
def Obligations.SetvlanKeepsTwelveBits : Prop :=
  ∀ (hi : BitVec 36) (vid : Vid) (s : State),
    decode (word 0x03 (hi ++ vid)) = .instr (.setvlan hi vid) ∧
    (s.state ≠ .run → exec (.setvlan hi vid) s =
      .next (answered 0 { s with vlan := vid, wVlan := true, trunc := s.trunc || hi != 0 })) ∧
    (s.state = .run → exec (.setvlan hi vid) s = .next (rejected 4 s))

/-- R123: the operand is `mbz ++ prof`. -/
def Obligations.SetprofStoresProfile : Prop :=
  ∀ (mbz : BitVec 47) (prof : BitVec 1) (s : State),
    decode (word 0x04 (mbz ++ prof)) = .instr (.setprof mbz prof) ∧
    (s.state ≠ .run → mbz = 0 →
      exec (.setprof mbz prof) s = .next (answered 0 { s with profile := prof, wProf := true })) ∧
    (s.state ≠ .run → mbz ≠ 0 → exec (.setprof mbz prof) s = .next (rejected 3 s)) ∧
    (s.state = .run → exec (.setprof mbz prof) s = .next (rejected 4 s))

/-- R124: the operand is `mbz ++ n`. -/
def Obligations.SetpsizeStoresSize : Prop :=
  ∀ (mbz : BitVec 32) (n : BitVec 16) (s : State),
    decode (word 0x05 (mbz ++ n)) = .instr (.setpsize mbz n) ∧
    (s.state ≠ .run → mbz = 0 → n.toNat ≤ s.par.payloadMax.toNat →
      exec (.setpsize mbz n) s = .next (answered 0 { s with psize := n })) ∧
    (s.state ≠ .run → mbz ≠ 0 ∨ s.par.payloadMax.toNat < n.toNat →
      exec (.setpsize mbz n) s = .next (rejected 3 s)) ∧
    (s.state = .run → exec (.setpsize mbz n) s = .next (rejected 4 s))

/-- R125. That the entries the clearing makes valueless (10_state.md R26, U13) keep their bits, as the next state written out
here says, is the model's choice (log 6). -/
def Obligations.TcclrEmptiesList : Prop :=
  ∀ (mbz : BitVec 48) (s : State),
    decode (word 0x06 mbz) = .instr (.tcclr mbz) ∧
    (s.state ≠ .run → mbz = 0 → exec (.tcclr mbz) s = .next (answered 0 { s with tccnt := 0 })) ∧
    (s.state ≠ .run → mbz ≠ 0 → exec (.tcclr mbz) s = .next (rejected 3 s)) ∧
    (s.state = .run → exec (.tcclr mbz) s = .next (rejected 4 s))

/-- R126: the operand is `hi ++ pcp`. Under the invariant of the configuration (a list of distinct classes) a push of a class
that is not in the list always finds room; a ninth push is always a duplicate. -/
def Obligations.TcpushAppendsClass : Prop :=
  ∀ (hi : BitVec 45) (pcp : Pcp) (s : State), ConfigOk s →
    decode (word 0x07 (hi ++ pcp)) = .instr (.tcpush hi pcp) ∧
    (s.state ≠ .run → pcp ∉ classList s → ∃ t, exec (.tcpush hi pcp) s = .next t ∧
      classList t = classList s ++ [pcp] ∧ t.tccnt.toNat = s.tccnt.toNat + 1 ∧ t.tccnt.toNat ≤ 8 ∧
      t.trunc = (s.trunc || hi != 0) ∧
      t = answered 0 { s with tclist := t.tclist, tccnt := t.tccnt, trunc := t.trunc }) ∧
    (s.state ≠ .run → pcp ∈ classList s → exec (.tcpush hi pcp) s = .next (rejected 7 s)) ∧
    (s.tccnt = 8 → pcp ∈ classList s) ∧
    (s.state = .run → exec (.tcpush hi pcp) s = .next (rejected 4 s))

/-- R127: the operand is `mbz ++ rate`. -/
def Obligations.SetppsStoresRate : Prop :=
  ∀ (mbz : BitVec 16) (rate : BitVec 32) (s : State),
    decode (word 0x08 (mbz ++ rate)) = .instr (.setpps mbz rate) ∧
    (s.state ≠ .run → mbz = 0 → rate ≠ 0 →
      exec (.setpps mbz rate) s = .next (answered 0 { s with pps := rate, wPps := true })) ∧
    (s.state ≠ .run → mbz ≠ 0 ∨ rate = 0 → exec (.setpps mbz rate) s = .next (rejected 3 s)) ∧
    (s.state = .run → exec (.setpps mbz rate) s = .next (rejected 4 s))

/-- R128: the operand is `mbz ++ seconds`. -/
def Obligations.SetdurStoresDuration : Prop :=
  ∀ (mbz : BitVec 16) (seconds : BitVec 32) (s : State),
    decode (word 0x09 (mbz ++ seconds)) = .instr (.setdur mbz seconds) ∧
    (s.state ≠ .run → mbz = 0 →
      exec (.setdur mbz seconds) s = .next (answered 0 { s with duration := seconds, wDur := true })) ∧
    (s.state ≠ .run → mbz ≠ 0 → exec (.setdur mbz seconds) s = .next (rejected 3 s)) ∧
    (s.state = .run → exec (.setdur mbz seconds) s = .next (rejected 4 s))

/-! ### Reads (10_state.md R48 to R50, 40_config_commands.md R130, R131) -/

/-- R130 with the table of 10_state.md R49, in every STATE. -/
def Obligations.RdAnswersRegister : Prop :=
  (∀ (mbz : BitVec 40) (r : BitVec 8), decode (word 0x20 (mbz ++ r)) = .instr (.rd mbz r)) ∧
  ∀ s : State,
    (∀ (mbz : BitVec 40) (r : BitVec 8), mbz ≠ 0 → exec (.rd mbz r) s = .next (rejected 3 s)) ∧
    (∀ r : BitVec 8, 0x28 < r.toNat → exec (.rd 0 r) s = .next (rejected 8 s)) ∧
    exec (.rd 0 0x00) s = .next (answered (statusWord s) s) ∧
    (exec (.rd 0 0x01) s = .next (if s.wDst then answered (s.dst.setWidth 64) s else rejected 5 s)) ∧
    (exec (.rd 0 0x02) s = .next (if s.wSrc then answered (s.src.setWidth 64) s else rejected 5 s)) ∧
    (exec (.rd 0 0x03) s = .next (if s.wVlan then answered (s.vlan.setWidth 64) s else rejected 5 s)) ∧
    (exec (.rd 0 0x04) s = .next (if s.wProf then answered (s.profile.setWidth 64) s else rejected 5 s)) ∧
    exec (.rd 0 0x05) s = .next (answered (s.psize.setWidth 64) s) ∧
    exec (.rd 0 0x06) s = .next (answered (s.tccnt.setWidth 64) s) ∧
    (∃ d : Word64, exec (.rd 0 0x07) s = .next (answered d s) ∧ d.toNat < 2 ^ 32 ∧
      ∀ i : Fin 8, d.extractLsb' (4 * i.val) 4 = if i.val < s.tccnt.toNat then s.tclist[i].setWidth 4 else 0) ∧
    (exec (.rd 0 0x08) s = .next (if s.wPps then answered (s.pps.setWidth 64) s else rejected 5 s)) ∧
    (exec (.rd 0 0x09) s = .next (if s.wDur then answered (s.duration.setWidth 64) s else rejected 5 s)) ∧
    exec (.rd 0 0x0A) s = .next (answered s.now s) ∧
    exec (.rd 0 0x0B) s = .next (answered s.startT s) ∧
    exec (.rd 0 0x0C) s = .next (answered s.k s) ∧
    exec (.rd 0 0x0D) s = .next (answered s.total s) ∧
    exec (.rd 0 0x0E) s = .next (answered s.elapsed s) ∧
    exec (.rd 0 0x0F) s = .next (answered (if s.elapsed = 0 then 0 else
      BitVec.ofNat 64 (s.total.toNat * s.par.tickHz.toNat / s.elapsed.toNat)) s) ∧
    (∀ c : Pcp, exec (.rd 0 (0x10 + c.setWidth 8)) s = .next (answered (at8 s.cnt c) s)) ∧
    (∀ c : Pcp, exec (.rd 0 (0x18 + c.setWidth 8)) s =
      .next (if at8 s.fvalid c then answered ((at8 s.flen c).setWidth 64) s else rejected 9 s)) ∧
    exec (.rd 0 0x20) s = .next (answered (s.par.tickHz.setWidth 64) s) ∧
    exec (.rd 0 0x21) s = .next (answered (s.sN.setWidth 64) s) ∧
    (∃ d : Word64, exec (.rd 0 0x22) s = .next (answered d s) ∧ d.toNat < 2 ^ 32 ∧
      ∀ i : Fin 8, d.extractLsb' (4 * i.val) 4 = if i.val < s.sN.toNat then s.sOrder[i].setWidth 4 else 0) ∧
    exec (.rd 0 0x23) s = .next (answered (s.sPps.setWidth 64) s) ∧
    exec (.rd 0 0x24) s = .next (answered (s.sDur.setWidth 64) s) ∧
    exec (.rd 0 0x25) s = .next (answered (s.sPsize.setWidth 64) s) ∧
    exec (.rd 0 0x26) s = .next (answered (s.sProf.setWidth 64) s) ∧
    exec (.rd 0 0x27) s = .next (answered (s.sVlan.setWidth 64) s) ∧
    exec (.rd 0 0x28) s = .next (answered (s.par.payloadMax.setWidth 64) s)

/-- 10_state.md R48, field by field. -/
def Obligations.RdStatusLayout : Prop :=
  ∀ s : State, ∃ d : Word64, exec (.rd 0 0x00) s = .next (answered d s) ∧
    d.extractLsb' 0 2 = (match s.state with
      | .idle => 0
      | .run => 1
      | .done => 2) ∧
    d.getLsbD 2 = (decide (s.state = .run) && decide (s.phase = .wait)) ∧
    d.getLsbD 3 = s.success ∧ d.getLsbD 4 = s.svalid ∧ d.getLsbD 5 = s.stopped ∧ d.getLsbD 6 = s.hopen ∧
    d.getLsbD 7 = s.trunc ∧ d.getLsbD 8 = s.cmderr ∧ d.extractLsb' 9 3 = 0 ∧
    d.extractLsb' 12 4 = s.err ∧ d.extractLsb' 16 8 = s.lastrej ∧
    d.getLsbD 24 = s.wDst ∧ d.getLsbD 25 = s.wSrc ∧ d.getLsbD 26 = s.wVlan ∧ d.getLsbD 27 = s.wProf ∧
    d.getLsbD 28 = s.wPps ∧ d.getLsbD 29 = s.wDur ∧ d.extractLsb' 30 2 = 0 ∧
    (∀ c : Pcp, d.getLsbD (32 + c.toNat) = at8 s.fvalid c) ∧ d.extractLsb' 40 24 = 0

/-- 10_state.md R40, with its bound. -/
def Obligations.AchievedRateFits : Prop :=
  ∀ s : State, FramerInv s → ∃ d : Word64, exec (.rd 0 0x0F) s = .next (answered d s) ∧
    d.toNat = (if s.elapsed = 0 then 0 else s.total.toNat * s.par.tickHz.toNat / s.elapsed.toNat) ∧
    s.total.toNat ≤ s.k.toNat ∧
    (s.elapsed ≠ 0 → s.k.toNat ≤ s.elapsed.toNat * s.sPps.toNat / s.par.tickHz.toNat + 1) ∧
    d.toNat ≤ s.sPps.toNat + s.par.tickHz.toNat ∧
    (s.state = .run → d = 0)

/-- R131: the operand is `mbz ++ slot ++ off`. -/
def Obligations.RdfbAnswersByte : Prop :=
  ∀ (mbz : BitVec 34) (slot : Pcp) (off : BitVec 11) (s : State), FramesOk s →
    decode (word 0x21 (mbz ++ slot ++ off)) = .instr (.rdfb mbz slot off) ∧
    (mbz ≠ 0 → exec (.rdfb mbz slot off) s = .next (rejected 3 s)) ∧
    (mbz = 0 → at8 s.fvalid slot = false ∨ (at8 s.flen slot).toNat ≤ off.toNat →
      exec (.rdfb mbz slot off) s = .next (rejected 9 s)) ∧
    (mbz = 0 → at8 s.fvalid slot = true → off.toNat < (at8 s.flen slot).toNat →
      ∃ v, s.fs.byte (slot.toNat * 2048 + off.toNat) = some v ∧
        exec (.rdfb mbz slot off) s = .next (answered (v.setWidth 64) s))

/-- 10_state.md R50, for both reads and in every STATE. -/
def Obligations.ReadsHaveNoSideEffect : Prop :=
  ∀ s t : State,
    (∀ mbz r, exec (.rd mbz r) s = .next t → (∃ d, t = answered d s) ∨ ∃ c, t = rejected c s) ∧
    (∀ mbz slot off, exec (.rdfb mbz slot off) s = .next t → (∃ d, t = answered d s) ∨ ∃ c, t = rejected c s)

/-! ### FrameBuilder (30_encoding.md R80 to R95, 41_framebuilder.md) -/

/-- R82, and the lengths of 41_framebuilder.md R145: the padding follows the unpadded bytes and is zero. -/
def Obligations.FrameLengthAndPadding : Prop :=
  ∀ (p : Params) (dst src : Mac) (vid : Vid) (pcp : Pcp) (prof : BitVec 1) (n : Nat),
    p.ok = true → n ≤ p.payloadMax.toNat →
    ∃ u : List Byte, u.length = (if prof = 0 then 18 + n else 46 + n) ∧
      build p dst src vid pcp prof n = u ++ List.replicate (60 - u.length) 0 ∧
      (build p dst src vid pcp prof n).length = max 60 u.length ∧
      60 ≤ (build p dst src vid pcp prof n).length ∧ (build p dst src vid pcp prof n).length ≤ 2047

/-- R80 and the TCI of R83: PCP in bits 15:13, bit 12 zero, the VLAN id in bits 11:0. -/
def Obligations.EthernetHeaderBytes : Prop :=
  ∀ (p : Params) (dst src : Mac) (vid : Vid) (pcp : Pcp) (prof : BitVec 1) (n : Nat),
    (build p dst src vid pcp prof n).take 18 =
      [dst.extractLsb' 40 8, dst.extractLsb' 32 8, dst.extractLsb' 24 8, dst.extractLsb' 16 8, dst.extractLsb' 8 8,
       dst.extractLsb' 0 8, src.extractLsb' 40 8, src.extractLsb' 32 8, src.extractLsb' 24 8, src.extractLsb' 16 8,
       src.extractLsb' 8 8, src.extractLsb' 0 8, 0x81, 0x00,
       (pcp ++ 0#1 ++ vid).extractLsb' 8 8, (pcp ++ 0#1 ++ vid).extractLsb' 0 8, 0x08, 0x00]

/-- 41_framebuilder.md R148: what every built frame satisfies, and the worked scenario. -/
def Obligations.BuiltFrameDecodesBack : Prop :=
  (∀ (p : Params) (dst src : Mac) (vid : Vid) (pcp : Pcp) (prof : BitVec 1) (n : Nat),
    60 ≤ (build p dst src vid pcp prof n).length ∧
    (∃ a b, (build p dst src vid pcp prof n)[14]? = some a ∧ (build p dst src vid pcp prof n)[15]? = some b ∧
      a.toNat / 32 = pcp.toNat ∧ (a.toNat % 16) * 256 + b.toNat = vid.toNat ∧ a.getLsbD 4 = false) ∧
    (prof = 1 → cksum (((build p dst src vid pcp prof n).drop 18).take 20) = 0)) ∧
  (∀ p : Params, build p 0xAABBCCDDEEFF 0x112233445566 100 5 0 10 =
    [0xAA, 0xBB, 0xCC, 0xDD, 0xEE, 0xFF, 0x11, 0x22, 0x33, 0x44, 0x55, 0x66, 0x81, 0x00, 0xA0, 0x64, 0x08, 0x00,
     0, 1, 2, 3, 4, 5, 6, 7, 8, 9] ++ List.replicate 32 0)

/-- R81 (the minimal profile) and R87 (the payload, in both profiles). -/
def Obligations.MinimalLayoutAndPayload : Prop :=
  ∀ (p : Params) (dst src : Mac) (vid : Vid) (pcp : Pcp) (n : Nat),
    (build p dst src vid pcp 0 n).length = max 60 (18 + n) ∧
    (build p dst src vid pcp 0 n).take 18 = (build p dst src vid pcp 1 n).take 18 ∧
    (∀ j, 18 + n ≤ j → j < 60 → (build p dst src vid pcp 0 n)[j]? = some 0) ∧
    (∀ i, i < n → (build p dst src vid pcp 0 n)[18 + i]? = some (BitVec.ofNat 8 (i % 256)) ∧
      (build p dst src vid pcp 1 n)[46 + i]? = some (BitVec.ofNat 8 (i % 256)))

/-- R84 to R86 with R92 to R95: the UDP profile, field by field at the offsets of the tables. -/
def Obligations.UdpFrameLayout : Prop :=
  ∀ (p : Params) (dst src : Mac) (vid : Vid) (pcp : Pcp) (n : Nat) (f : List Byte),
    p.ok = true → n ≤ p.payloadMax.toNat → f = build p dst src vid pcp 1 n →
    f.length = max 60 (46 + n) ∧
    f[18]? = some 0x45 ∧ f[19]? = some (BitVec.ofNat 8 (pcp.toNat * 32)) ∧
    half f 20 (28 + n) ∧ half f 22 0 ∧ half f 24 0 ∧ f[26]? = some 64 ∧ f[27]? = some 17 ∧
    half f 28 (cksum ((f.drop 18).take 10 ++ [0, 0] ++ (f.drop 30).take 8)).toNat ∧
    half f 30 (p.srcIp.toNat / 65536) ∧ half f 32 (p.srcIp.toNat % 65536) ∧
    half f 34 (p.dstIp.toNat / 65536) ∧ half f 36 (p.dstIp.toNat % 65536) ∧
    half f 38 ((p.sportBase.toNat + pcp.toNat) % 65536) ∧ half f 40 ((p.dportBase.toNat + pcp.toNat) % 65536) ∧
    half f 42 (8 + n) ∧ half f 44 0 ∧
    (∀ i, i < n → f[46 + i]? = some (BitVec.ofNat 8 (i % 256))) ∧
    (∀ j, 46 + n ≤ j → j < 60 → f[j]? = some 0)

/-- 41_framebuilder.md R143 (a), (b), (c); the length in (a) is within the bound of R141. -/
def Obligations.ChecksumLaws : Prop :=
  (∀ pre post : List Byte, pre.length % 2 = 0 → post.length % 2 = 0 → pre.length + 2 + post.length ≤ 131074 →
    cksum (pre ++ [(cksum (pre ++ [0, 0] ++ post)).extractLsb' 8 8, (cksum (pre ++ [0, 0] ++ post)).extractLsb' 0 8] ++
      post) = 0) ∧
  (cksum [] = 0xFFFF ∧ cksum [0x00] = 0xFFFF ∧ cksum [0xFF, 0xFF] = 0x0000 ∧ cksum [0xFF] = 0x00FF ∧
    cksum [0x01] = 0xFEFF ∧ cksum [0x12, 0x34, 0x56] = 0x97CB) ∧
  (∀ b : List Byte, b.length % 2 = 0 → cksum (b ++ [0, 0]) = cksum b)

/-- 41_framebuilder.md R141: a 32-bit accumulator is enough and two folds leave no carry. -/
def Obligations.ChecksumTwoFoldsEnough : Prop :=
  (∀ b : List Byte, (b.length + 1) / 2 ≤ 65537 →
    wordSum b < 2 ^ 32 ∧ foldCarry (wordSum b) ≤ 131070 ∧ foldCarry (foldCarry (wordSum b)) ≤ 65535 ∧
    (cksum b).toNat = 65535 - foldCarry (foldCarry (wordSum b))) ∧
  (∀ b : List Byte, b.length = 20 → wordSum b ≤ 655350)

/-- R150: the operand is `hi ++ c`. Of the bytes that stay, those of the same slot at or beyond the new FLEN hold no value in
the spec (20_memory.md R61); that the model keeps them is its own choice (log 7), as it is that FLEN of another, invalid slot
stays (log 6). The response data is R150's, not
30_encoding.md R101's (log 18). -/
def Obligations.BuildInstallsFrame : Prop :=
  ∀ (hi : BitVec 45) (c : Pcp) (s : State), ConfigOk s →
    decode (word 0x10 (hi ++ c)) = .instr (.build hi c) ∧
    (s.state ≠ .run → frameWritten s → ∃ t, exec (.build hi c) s = .next t ∧
      t.fs.bytes (c.toNat * 2048) (builtFor s c).length = some (builtFor s c) ∧
      (∀ a, a < c.toNat * 2048 ∨ c.toNat * 2048 + (builtFor s c).length ≤ a → t.fs.byte a = s.fs.byte a) ∧
      at8 t.fvalid c = true ∧ (at8 t.flen c).toNat = (builtFor s c).length ∧
      (∀ d, d ≠ c → at8 t.fvalid d = at8 s.fvalid d ∧ at8 t.flen d = at8 s.flen d) ∧
      t.trunc = (s.trunc || hi != 0) ∧
      t = answered (BitVec.ofNat 64 (builtFor s c).length)
        { s with fs := t.fs, flen := t.flen, fvalid := t.fvalid, trunc := t.trunc }) ∧
    (s.state ≠ .run → ¬frameWritten s → exec (.build hi c) s = .next (rejected 5 s)) ∧
    (s.state = .run → exec (.build hi c) s = .next (rejected 4 s))

/-! ### START (42_pacedsender.md R160 to R163) -/

/-- R160: the checks of START in their order, and what passes them. -/
def Obligations.StartChecksInOrder : Prop :=
  ∀ (mbz : BitVec 48) (s : State),
    decode (word 0x11 mbz) = .instr (.start mbz) ∧
    (s.state = .run → exec (.start mbz) s = .next (rejected 4 s)) ∧
    (s.state ≠ .run → mbz ≠ 0 → exec (.start mbz) s = .next (rejected 3 s)) ∧
    (s.state ≠ .run → mbz = 0 → ¬allWritten s → exec (.start mbz) s = .next (rejected 5 s)) ∧
    (s.state ≠ .run → mbz = 0 → allWritten s → s.tccnt = 0 → exec (.start mbz) s = .next (rejected 6 s)) ∧
    (s.state ≠ .run → mbz = 0 → allWritten s → s.tccnt ≠ 0 →
      2 ^ 64 ≤ s.now.toNat + s.duration.toNat * s.par.tickHz.toNat → exec (.start mbz) s = .next (rejected 10 s)) ∧
    (startable s → mbz = 0 → ConfigOk s →
      ∃ t, exec (.start mbz) s = .next t ∧ t.txlog = s.txlog ++ [.opened (openAnswer s)])

/-- 60_exceptions.md R192: the sink does not open. HOPEN stays as it is (0 in every state with the invariant R35). -/
def Obligations.StartHandleFailure : Prop :=
  ∀ s : State, startable s → openAnswer s = .fail →
    ∃ t, exec (.start 0) s = .next t ∧ startKeeps s t ∧ sessionBegun s t ∧
      t.err = 2 ∧ t.svalid = false ∧ t.hopen = s.hopen ∧ t.state = .done ∧ t.phase = .top ∧
      t.fs = s.fs ∧ t.flen = s.flen ∧ t.fvalid = s.fvalid ∧ t.resp = some ⟨.ok, 0⟩

/-- R161: what an accepted START clears, copies and asks, whatever the sink answers. -/
def Obligations.StartClearsAndCopies : Prop :=
  ∀ s : State, startable s → ConfigOk s →
    ∃ t, exec (.start 0) s = .next t ∧ startKeeps s t ∧ sessionBegun s t ∧
      (openAnswer s = .ok → t.hopen = true ∧ t.err = 0) ∧
      (openAnswer s = .fail → t.err = 2 ∧ t.svalid = false ∧ t.hopen = s.hopen ∧ t.state = .done ∧ t.phase = .top ∧
        t.fs = s.fs ∧ t.flen = s.flen ∧ t.fvalid = s.fvalid ∧ t.resp = some ⟨.ok, 0⟩)

/-- R162: exactly the slots of the session's classes are valid, each with its frame, all of one length, and no byte outside
these frames changes (that the bytes at or beyond FLEN, and those of invalid slots, stay is the model's choice, log 7; so is that FLEN
of a slot left invalid stays, log 6). -/
def Obligations.StartBuildsOneFramePerClass : Prop :=
  ∀ s : State, startable s → ConfigOk s → openAnswer s = .ok →
    ∃ t, exec (.start 0) s = .next t ∧
      (∀ c, at8 t.fvalid c = true ↔ c ∈ classList s) ∧
      (∀ c ∈ classList s, (at8 t.flen c).toNat = (builtFor s c).length ∧
        t.fs.bytes (c.toNat * 2048) (builtFor s c).length = some (builtFor s c)) ∧
      (∀ c ∈ classList s, ∀ d ∈ classList s, at8 t.flen c = at8 t.flen d) ∧
      (∀ c, c ∉ classList s → at8 t.flen c = at8 s.flen c) ∧
      (∀ a, (∀ c ∈ classList s, a < c.toNat * 2048 ∨ c.toNat * 2048 + (builtFor s c).length ≤ a) →
        t.fs.byte a = s.fs.byte a)

/-- R163. -/
def Obligations.StartEntersLoop : Prop :=
  ∀ s : State,
    (startable s → ConfigOk s → openAnswer s = .ok → ∃ t, exec (.start 0) s = .next t ∧ startKeeps s t ∧
      t.svalid = true ∧ t.state = .run ∧ t.phase = .top ∧ t.resp = some ⟨.ok, 0⟩ ∧ t.startT = s.now ∧ t.now = s.now ∧
      t.trunc = s.trunc ∧ t.cmderr = s.cmderr ∧ t.lastrej = s.lastrej) ∧
    (s.state = .run → exec (.start 0) s = .next (rejected 4 s))

/-! ### The loop, STOP, Tick (42_pacedsender.md R164 to R175) -/

/-- R165. -/
def Obligations.LoopTopChecksDuration : Prop :=
  ∀ s : State, s.state = .run → s.phase = .top →
    (durationReached s → advance s = .next (finished true false 0 s)) ∧
    (¬durationReached s → advance s = .next { s with state := .run, phase := .wait })

/-- R167 and 60_exceptions.md R193: a due attempt sends the frame built at START of the class `S_ORDER[K mod S_N]`, and the
answers `success` and `wouldBlock` are settled. The fields sendQ and draws are the model's (log 3). -/
def Obligations.AttemptSendsNextClass : Prop :=
  ∀ s : State, SessionOk s → FramesOk s → s.state = .run → s.phase = .wait → attemptDue s →
    ∃ c f t, (sessionClasses s)[s.k.toNat % s.sN.toNat]? = some c ∧
      s.fs.bytes (c.toNat * 2048) (at8 s.flen c).toNat = some f ∧ f = builtFor s c ∧
      advance s = .next t ∧
      (sendAnswer s = .success →
        (∀ d, at8 t.cnt d = if d = c then at8 s.cnt d + 1 else at8 s.cnt d) ∧
        t = { s with
          txlog := s.txlog ++ [sendEvent s c f .success], cnt := t.cnt, total := s.total + 1, k := s.k + 1
          state := .run, phase := .top, sendQ := t.sendQ, draws := t.draws }) ∧
      (sendAnswer s = .wouldBlock →
        t = { s with
          txlog := s.txlog ++ [sendEvent s c f .wouldBlock], k := s.k + 1
          state := .run, phase := .top, sendQ := t.sendQ, draws := t.draws }) ∧
      (sendAnswer s = .error →
        t = { finished false false 4 s with
          txlog := s.txlog ++ [sendEvent s c f .error, .closed], sendQ := t.sendQ, draws := t.draws })

/-- 60_exceptions.md R194: the fatal answer. `K`, `TOTAL`, `CNT` and SVALID stay, the handle is closed. -/
def Obligations.FatalSendEndsSession : Prop :=
  ∀ s : State, SessionOk s → FramesOk s → s.state = .run → s.phase = .wait → attemptDue s → sendAnswer s = .error →
    ∃ t, advance s = .next t ∧ t.hopen = false ∧
      t.elapsed = BitVec.ofNat 64 (s.now.toNat - s.startT.toNat) ∧ t.success = false ∧ t.err = 4 ∧ t.stopped = false ∧
      t.state = .done ∧ t.phase = .top ∧ t.svalid = s.svalid ∧ t.k = s.k ∧ t.total = s.total ∧ t.cnt = s.cnt ∧
      (∃ c f, t.txlog = s.txlog ++ [sendEvent s c f .error, .closed]) ∧
      (∀ a, t.fs.byte a = s.fs.byte a)

/-- R168, for its three kinds. -/
def Obligations.FinishWritesOutcome : Prop :=
  ∀ s : State,
    finish .normal s = finished true false 0 s ∧ finish .stopped s = finished true true 0 s ∧
    finish .fatal s = finished false false 4 s

/-- R169. -/
def Obligations.StopEndsRunningSession : Prop :=
  ∀ (mbz : BitVec 48) (s : State),
    decode (word 0x12 mbz) = .instr (.stop mbz) ∧
    (mbz ≠ 0 → exec (.stop mbz) s = .next (rejected 3 s)) ∧
    (mbz = 0 → s.state = .run → exec (.stop mbz) s = .next (answered 0 (finished true true 0 s))) ∧
    (mbz = 0 → s.state ≠ .run → exec (.stop mbz) s = .next (answered 0 s))

/-- R170: Tick moves only when no Sender step is enabled, and nothing else moves NOW (but the reset step, R220). -/
def Obligations.TickOnlyWhenSenderIdle : Prop :=
  ∀ s : State,
    (¬(s.state = .run ∧ (s.phase = .top ∨ attemptDue s)) → advance s = .next { s with now := s.now + 1 }) ∧
    (s.state = .run → s.phase = .top ∨ attemptDue s → ∀ t, advance s = .next t → t.now = s.now) ∧
    (∀ i t, exec i s = .next t → t.now = s.now)

/-- R166 with the exact schedule of R164 and the instant of 60_exceptions.md R204. -/
def Obligations.AttemptOnItsTick : Prop :=
  (∀ k t p n : Nat, 1 ≤ p → (k * t ≤ n * p ↔ ceilDiv (k * t) p ≤ n)) ∧
  ∀ s : State, FramerInv s → s.state = .run → s.phase = .wait →
    (¬attemptDue s → advance s = .next { s with now := s.now + 1 }) ∧
    (attemptDue s → advance s = attempt s ∧
      s.now.toNat = s.startT.toNat + ceilDiv (s.k.toNat * s.par.tickHz.toNat) s.sPps.toNat)

/-- R172: a session that ended by its duration, with `P ≤ T` and `D ≥ 1`. -/
def Obligations.NormalEndCounts : Prop :=
  ∀ s : State, FramerInv s → s.state = .done → s.success = true → s.stopped = false →
    s.sPps.toNat ≤ s.par.tickHz.toNat → 1 ≤ s.sDur.toNat →
    s.k.toNat = s.sPps.toNat * s.sDur.toNat + 1 ∧
    s.elapsed.toNat = s.sDur.toNat * s.par.tickHz.toNat ∧
    (∀ t k c f r, .send t k c f r ∈ sessionEvents s.txlog →
      t = ceilDiv (k.toNat * s.par.tickHz.toNat) s.sPps.toNat) ∧
    ((sessionEvents s.txlog).countP (isAnswer .wouldBlock) = 0 →
      s.total.toNat = s.sPps.toNat * s.sDur.toNat + 1 ∧
      ∃ d : Word64, exec (.rd 0 0x0F) s = .next (answered d s) ∧
        d.toNat = (s.sPps.toNat * s.sDur.toNat + 1) / s.sDur.toNat ∧
        (s.sDur.toNat = 1 → d.toNat = s.sPps.toNat + 1) ∧ (2 ≤ s.sDur.toNat → d.toNat = s.sPps.toNat))

/-- R173: the class of attempt `k` is `S_ORDER[k mod S_N]`, and without drops the counts are those of a round robin. -/
def Obligations.RoundRobinBalanced : Prop :=
  ∀ s : State, FramerInv s →
    (∀ t k c f r, .send t k c f r ∈ sessionEvents s.txlog →
      (sessionClasses s)[k.toNat % s.sN.toNat]? = some c) ∧
    ((sessionEvents s.txlog).countP (isAnswer .wouldBlock) = 0 →
      (∀ i c, (sessionClasses s)[i]? = some c →
        (at8 s.cnt c).toNat =
          s.total.toNat / s.sN.toNat + (if i < s.total.toNat % s.sN.toNat then 1 else 0)) ∧
      (∀ c ∈ sessionClasses s, ∀ d ∈ sessionClasses s, (at8 s.cnt c).toNat ≤ (at8 s.cnt d).toNat + 1))

/-! ### Decoding, rejects, control, hazards -/

/-- R104: the first failing check decides. -/
def Obligations.DecodeOrder : Prop :=
  ∀ (w : Word64) (s : State) (rest : List HostAct), s.hostq = .word w :: rest →
    (w.extractLsb' 56 8 ∉ opcodes → step s = .next (rejected 1 { s with hostq := rest })) ∧
    (w.extractLsb' 56 8 ∈ opcodes → w.extractLsb' 48 8 ≠ 0 → step s = .next (rejected 2 { s with hostq := rest })) ∧
    (w.extractLsb' 56 8 ∈ opcodes → w.extractLsb' 48 8 = 0 → w.extractLsb' 56 8 ∉ neverBusy → s.state = .run →
      step s = .next (rejected 4 { s with hostq := rest })) ∧
    (w.extractLsb' 56 8 ∈ opcodes → w.extractLsb' 48 8 = 0 → (w.extractLsb' 56 8 ∈ neverBusy ∨ s.state ≠ .run) →
      ∃ i, decode w = .instr i ∧
        (i.wellFormed s.par = false → step s = .next (rejected 3 { s with hostq := rest })) ∧
        (i.wellFormed s.par = true → step s = exec i { s with hostq := rest }))

/-- R105: a word with an undefined opcode or a reserved bit changes nothing but CMDERR, LASTREJ and the response. -/
def Obligations.IllegalWordsRejected : Prop :=
  (∀ (w : Word64) (s : State), w.extractLsb' 56 8 ∉ opcodes → runWord w s = .next (rejected 1 s)) ∧
  (∀ (w : Word64) (s : State), w.extractLsb' 56 8 ∈ opcodes → w.extractLsb' 48 8 ≠ 0 →
    runWord w s = .next (rejected 2 s)) ∧
  (∀ s : State, runWord 0 s = .next (rejected 1 s) ∧ runWord (BitVec.allOnes 64) s = .next (rejected 1 s))

/-- 70_reset_and_hazards.md R226: every command but RD, RDFB, STOP is BUSY during a session; and the framer's own steps read
no configuration register: with other values in them they do the same and leave those values. -/
def Obligations.ConfigurationFrozenDuringSession : Prop :=
  (∀ (i : Instr) (s : State), i.opcode ∉ neverBusy → s.state = .run → exec i s = .next (rejected 4 s)) ∧
  (∀ (s : State) dst src vlan profile psize tccnt tclist pps duration,
    advance { s with
      dst := dst, src := src, vlan := vlan, profile := profile, psize := psize, tccnt := tccnt, tclist := tclist
      pps := pps, duration := duration } =
    match advance s with
    | .next t => .next { t with
        dst := dst, src := src, vlan := vlan, profile := profile, psize := psize, tccnt := tccnt, tclist := tclist
        pps := pps, duration := duration }
    | .fault e => .fault e
    | .refused e => .refused e)

/-- 60_exceptions.md R198: a command whose response is REJECT wrote CMDERR, LASTREJ and the response, and nothing else. -/
def Obligations.RejectWritesNothingElse : Prop :=
  ∀ (w : Word64) (s t : State), runWord w s = .next t →
    (∃ d, t.resp = some ⟨.ok, d⟩) ∨ ∃ code : BitVec 8, 1 ≤ code.toNat ∧ code.toNat ≤ 10 ∧ t = rejected code s

/-- 10_state.md R30: the transitions of the control position, "and no others". -/
def Obligations.ControlPositionTransitions : Prop :=
  (∀ (i : Instr) (s t : State), exec i s = .next t →
    (t.state = s.state ∧ t.phase = s.phase) ∨
    ((∃ m, i = .start m) ∧ s.state ≠ .run ∧ (t.state = .run ∨ t.state = .done) ∧ t.phase = .top) ∨
    ((∃ m, i = .stop m) ∧ s.state = .run ∧ t.state = .done ∧ t.phase = .top)) ∧
  (∀ s t : State, advance s = .next t →
    (¬(s.state = .run ∧ (s.phase = .top ∨ attemptDue s)) ∧ t.state = s.state ∧ t.phase = s.phase) ∨
    (s.state = .run ∧ s.phase = .top ∧ ((t.state = .run ∧ t.phase = .wait) ∨ (t.state = .done ∧ t.phase = .top))) ∨
    (s.state = .run ∧ s.phase = .wait ∧ attemptDue s ∧ (t.state = .run ∨ t.state = .done) ∧ t.phase = .top)) ∧
  (∀ s : State, (resetStep s).state = .idle ∧ (resetStep s).phase = .top)

/-- R233 with 10_state.md R43 and R44: only the reset step clears a sticky flag. -/
def Obligations.StickyFlags : Prop :=
  ∀ s t : State, step s = .next t → (∀ rest, s.hostq ≠ .reset :: rest) →
    (s.trunc = true → t.trunc = true) ∧ (s.cmderr = true → t.cmderr = true) ∧
    (s.lastrej ≠ 0 → t.lastrej ≠ 0) ∧
    (t.lastrej ≠ s.lastrej → t.cmderr = true ∧ 1 ≤ t.lastrej.toNat ∧ t.lastrej.toNat ≤ 10)

/-- R228 with 20_memory.md R72: nothing but BUILD of its slot and START changes a cached frame. That the bytes which hold no
value in the spec (those of invalid slots and at or beyond FLEN, R61, U14) and FLEN of invalid slots stay too is the model's
choice (logs 6 and 7). -/
def Obligations.CachedFramesStay : Prop :=
  (∀ (i : Instr) (s t : State), exec i s = .next t → i.opcode ≠ 0x10 → i.opcode ≠ 0x11 →
    (∀ a, t.fs.byte a = s.fs.byte a) ∧ t.flen = s.flen ∧ t.fvalid = s.fvalid) ∧
  (∀ (hi : BitVec 45) (d c : Pcp) (s t : State), exec (.build hi d) s = .next t → c ≠ d →
    (∀ a, c.toNat * 2048 ≤ a → a < c.toNat * 2048 + 2048 → t.fs.byte a = s.fs.byte a) ∧
    at8 t.flen c = at8 s.flen c ∧ at8 t.fvalid c = at8 s.fvalid c) ∧
  (∀ s t : State, advance s = .next t →
    (∀ a, t.fs.byte a = s.fs.byte a) ∧ t.flen = s.flen ∧ t.fvalid = s.fvalid)

/-! ### Reset -/

/-- 70_reset_and_hazards.md R220: the reset step, in any state. -/
def Obligations.ResetStepClears : Prop :=
  ∀ (s : State) (rest : List HostAct), s.hostq = .reset :: rest →
    ∃ t, step s = .next t ∧ hasResetValues t ∧ t.par = s.par

/-- 10_state.md R51 and R221: the state after reset, whatever the parameters; `RD STATUS` reads 0. -/
def Obligations.ResetValues : Prop :=
  hasResetValues State.reset ∧
  ∀ p : Params, hasResetValues (State.resetWith p) ∧
    exec (.rd 0 0x00) (State.resetWith p) = .next (answered 0 (State.resetWith p)) ∧
    advance (State.resetWith p) = .next { State.resetWith p with now := 1 }

/-! ### The machine as a whole -/

/-- 60_exceptions.md R208: the log stays well bracketed, and a bracket is open exactly while the handle is. -/
def Obligations.LogStaysBracketed : Prop :=
  ∀ s t : State, scanLog s.txlog = some s.hopen → (s.hopen = true ↔ s.state = .run) → step s = .next t →
    scanLog t.txlog = some t.hopen ∧ (t.hopen = true ↔ t.state = .run)

/-- A step runs the decoded command at the head of the Host's schedule; with nothing to issue, the framer's own agents move.
The schedule is the model's (log 1), and withFetchWord is a word put at its head (log 2). -/
def Obligations.StepRunsDecodedInstruction : Prop :=
  (∀ (s : State) (rest : List HostAct) (w : Word64) (i : Instr), s.hostq = .word w :: rest → decode w = .instr i →
    step s = exec i { s with hostq := rest }) ∧
  (∀ (s : State) (w : Nat) (i : Instr), w < 2 ^ 64 → decode (BitVec.ofNat 64 w) = .instr i →
    step (s.withFetchWord 64 w) = exec i s) ∧
  (∀ s : State, s.hostq = [] → step s = advance s) ∧
  (∀ (s : State) (rest : List HostAct), s.hostq = .pass :: rest → step s = advance { s with hostq := rest })

/-- Words written out from 30_encoding.md R100 to R103. -/
def Obligations.DecodesWrittenWords : Prop :=
  decode 0x0100AABBCCDDEEFF = .instr (.setdst 0xAABBCCDDEEFF) ∧
  decode 0x0300000000001064 = .instr (.setvlan 1 100) ∧
  decode 0x0400000000000001 = .instr (.setprof 0 1) ∧
  decode 0x0700000000000009 = .instr (.tcpush 1 1) ∧
  decode 0x1000000000000005 = .instr (.build 0 5) ∧
  decode 0x1100000000000000 = .instr (.start 0) ∧
  decode 0x2000000000000028 = .instr (.rd 0 0x28) ∧
  decode 0x210000000000280F = .instr (.rdfb 0 5 15) ∧
  decode 0x0001000000000000 = .illop ∧ decode 0x1101000000000000 = .rsvbits

/-- Decoding an encoded command gives it back, with every operand at every value. -/
def Obligations.DecodeOfEncode : Prop :=
  ∀ i : Instr, decode (encode i) = .instr i

/-- The other direction: a word that decodes to a command is that command's word. -/
def Obligations.EncodeOfDecode : Prop :=
  ∀ (w : Word64) (i : Instr), decode w = .instr i → encode i = w

/-- Every step keeps the invariant of Safety.lean. -/
def Obligations.StepKeepsInvariant : Prop :=
  ∀ s t : State, FramerInv s → step s = .next t → FramerInv t

/-- The invariant holds after reset, for all parameters in range and whatever the Host and the sink will do. -/
def Obligations.ResetHasInvariant : Prop :=
  ∀ (p : Params) (q : List HostAct) (oq : List OpenAns) (sq : List SendAns), p.ok = true →
    FramerInv { State.resetWith p with hostq := q, openQ := oq, sendQ := sq }

/-- 60_exceptions.md R210: no word and no act of the Host can hang the framer; no step faults or refuses. -/
def Obligations.NoStepStops : Prop :=
  ∀ s : State, FramerInv s → ∃ t, step s = .next t

/-- Every run from reset, of any length, whatever the Host and the sink do, goes on and keeps the invariant. -/
def Obligations.EveryRunGoesOn : Prop :=
  ∀ (p : Params) (q : List HostAct) (oq : List OpenAns) (sq : List SendAns) (n : Nat), p.ok = true →
    ∃ t : State, Host.Core.run Sys2Proof.core n { State.resetWith p with hostq := q, openQ := oq, sendQ := sq } = .next t ∧
      FramerInv t

/-- A session that the Host leaves alone ends, within a number of steps given in advance. 42_pacedsender.md R170 says that such
a claim needs Tick to be taken again and again while it is enabled; here the model's choice supplies it: with hostq empty the
framer's own agents move at every step (log 1, DESIGN CHOICE). -/
def Obligations.SessionEnds : Prop :=
  ∀ s : State, FramerInv s → s.state = .run → s.hostq = [] →
    ∃ (n : Nat) (t : State),
      n ≤ 2 * (s.sPps.toNat * s.sDur.toNat + 1 - s.k.toNat) + 1 +
        (s.sDur.toNat * s.par.tickHz.toNat - (s.now.toNat - s.startT.toNat)) ∧
      Host.Core.run Sys2Proof.core n s = .next t ∧ t.state = .done ∧
      t.svalid = true ∧ t.hopen = false ∧ (t.success = true ∨ t.err = 4)

/-! ### The Host's assembler (30_encoding.md R111, R112, R114; 60_exceptions.md R191) -/

/-- R111: the texts that parse_mac accepts, exactly, and the value. -/
def Obligations.ParseMacGrammar : Prop :=
  (∀ (c : Char) (v : Nat), hexDigit c = some v ↔ isHex c v) ∧
  ∀ (text : List Char) (m : Mac), parseMac text = some m ↔
    ∃ (sep : Char) (a b c d e f : Char × Char) (x y : Fin 6 → Nat), (sep = ':' ∨ sep = '-') ∧
      text = macText sep [a, b, c, d, e, f] ∧
      (isHex a.1 (x 0) ∧ isHex a.2 (y 0) ∧ isHex b.1 (x 1) ∧ isHex b.2 (y 1) ∧ isHex c.1 (x 2) ∧ isHex c.2 (y 2) ∧
       isHex d.1 (x 3) ∧ isHex d.2 (y 3) ∧ isHex e.1 (x 4) ∧ isHex e.2 (y 4) ∧ isHex f.1 (x 5) ∧ isHex f.2 (y 5)) ∧
      m.extractLsb' 40 8 = BitVec.ofNat 8 (x 0 * 16 + y 0) ∧ m.extractLsb' 32 8 = BitVec.ofNat 8 (x 1 * 16 + y 1) ∧
      m.extractLsb' 24 8 = BitVec.ofNat 8 (x 2 * 16 + y 2) ∧ m.extractLsb' 16 8 = BitVec.ofNat 8 (x 3 * 16 + y 3) ∧
      m.extractLsb' 8 8 = BitVec.ofNat 8 (x 4 * 16 + y 4) ∧ m.extractLsb' 0 8 = BitVec.ofNat 8 (x 5 * 16 + y 5)

/-- R112: an invocation becomes its words in order, all read before the first is issued; a malformed MAC text
(60_exceptions.md R191) and too few operands issue nothing. The form of the schedule is the model's (logs 1, 15). -/
def Obligations.InvocationExpands : Prop :=
  ∀ (udp : Bool) (s : State) (rest : List HostAct) (args : List (List Char)), s.hostq = .txgen udp args :: rest →
    (args.length < 7 → step s = .next { s with hostq := rest, hostOut := some .usage }) ∧
    (∀ iface dst src vlan classes pps duration more,
      args = iface :: dst :: src :: vlan :: classes :: pps :: duration :: more → more.length ≤ 1 →
      (parseMac dst = none ∨ parseMac src = none →
        step s = .next { s with hostq := rest, hostOut := some .construction }) ∧
      (∀ d c v cs p t psize, parseMac dst = some d → parseMac src = some c → parseArg vlan = some v →
        parseClasses classes = some cs → parseArg pps = some p → parseArg duration = some t →
        ((more = [] ∧ psize = none) ∨ ∃ n, more.map parseArg = [some n] ∧ psize = some n) →
        step s = .next { s with
          hostq := (invocationWords udp d c v psize cs p t).map .invoked ++ .await :: rest }))

/-- R112 and R114: after a rejected word of an invocation the Host issues nothing more of it and reports the reason; once the
session is over the Host reads the result. The form of the schedule is the model's (logs 1, 15). -/
def Obligations.HostStopsOnReject : Prop :=
  (∀ (s : State) (w : Word64) (ws : List Word64) (rest : List HostAct) (code : BitVec 8),
    s.hostq = .invoked w :: (ws.map .invoked ++ .await :: rest) →
    runWord w { s with hostq := ws.map .invoked ++ .await :: rest } =
      .next (rejected code { s with hostq := ws.map .invoked ++ .await :: rest }) →
    step s = .next (rejected code { s with hostq := rest, hostOut := some (.rejected code) })) ∧
  (∀ (s : State) (rest : List HostAct), s.hostq = .await :: rest → s.state = .done →
    ∃ r : Report,
      step s = .next (answered (statusWord s) { s with hostq := rest, hostOut := some (.report r) }) ∧
      r.success = s.success ∧ r.err = s.err ∧ r.total = s.total ∧ r.elapsed = s.elapsed ∧ r.psize = s.sPsize ∧
      r.counts = (sessionClasses s).map (fun c => (c, at8 s.cnt c)) ∧
      exec (.rd 0 0x0F) s = .next (answered r.achPps s)) ∧
  (∀ (s : State) (rest : List HostAct), s.hostq = .await :: rest → s.state ≠ .done → step s = advance s)
end

