-- ==== Sys2Proof/Laws/State.lean ====
section
/-!
SUPPORT. One lemma per field per update of State: what each named operation writes, and every field it leaves alone.
Later proofs cite these (they are simp lemmas) and never unfold the operation.
-/

namespace Sys2Proof.Machine

/-! ### respond -/

@[simp] theorem respond_dst (d : Word64) (s : State) : (respond d s).dst = s.dst := rfl
@[simp] theorem respond_src (d : Word64) (s : State) : (respond d s).src = s.src := rfl
@[simp] theorem respond_vlan (d : Word64) (s : State) : (respond d s).vlan = s.vlan := rfl
@[simp] theorem respond_profile (d : Word64) (s : State) : (respond d s).profile = s.profile := rfl
@[simp] theorem respond_psize (d : Word64) (s : State) : (respond d s).psize = s.psize := rfl
@[simp] theorem respond_tccnt (d : Word64) (s : State) : (respond d s).tccnt = s.tccnt := rfl
@[simp] theorem respond_tclist (d : Word64) (s : State) : (respond d s).tclist = s.tclist := rfl
@[simp] theorem respond_pps (d : Word64) (s : State) : (respond d s).pps = s.pps := rfl
@[simp] theorem respond_duration (d : Word64) (s : State) : (respond d s).duration = s.duration := rfl
@[simp] theorem respond_wDst (d : Word64) (s : State) : (respond d s).wDst = s.wDst := rfl
@[simp] theorem respond_wSrc (d : Word64) (s : State) : (respond d s).wSrc = s.wSrc := rfl
@[simp] theorem respond_wVlan (d : Word64) (s : State) : (respond d s).wVlan = s.wVlan := rfl
@[simp] theorem respond_wProf (d : Word64) (s : State) : (respond d s).wProf = s.wProf := rfl
@[simp] theorem respond_wPps (d : Word64) (s : State) : (respond d s).wPps = s.wPps := rfl
@[simp] theorem respond_wDur (d : Word64) (s : State) : (respond d s).wDur = s.wDur := rfl
@[simp] theorem respond_state (d : Word64) (s : State) : (respond d s).state = s.state := rfl
@[simp] theorem respond_phase (d : Word64) (s : State) : (respond d s).phase = s.phase := rfl
@[simp] theorem respond_k (d : Word64) (s : State) : (respond d s).k = s.k := rfl
@[simp] theorem respond_now (d : Word64) (s : State) : (respond d s).now = s.now := rfl
@[simp] theorem respond_startT (d : Word64) (s : State) : (respond d s).startT = s.startT := rfl
@[simp] theorem respond_sN (d : Word64) (s : State) : (respond d s).sN = s.sN := rfl
@[simp] theorem respond_sOrder (d : Word64) (s : State) : (respond d s).sOrder = s.sOrder := rfl
@[simp] theorem respond_sPps (d : Word64) (s : State) : (respond d s).sPps = s.sPps := rfl
@[simp] theorem respond_sDur (d : Word64) (s : State) : (respond d s).sDur = s.sDur := rfl
@[simp] theorem respond_sPsize (d : Word64) (s : State) : (respond d s).sPsize = s.sPsize := rfl
@[simp] theorem respond_sProf (d : Word64) (s : State) : (respond d s).sProf = s.sProf := rfl
@[simp] theorem respond_sVlan (d : Word64) (s : State) : (respond d s).sVlan = s.sVlan := rfl
@[simp] theorem respond_hopen (d : Word64) (s : State) : (respond d s).hopen = s.hopen := rfl
@[simp] theorem respond_total (d : Word64) (s : State) : (respond d s).total = s.total := rfl
@[simp] theorem respond_cnt (d : Word64) (s : State) : (respond d s).cnt = s.cnt := rfl
@[simp] theorem respond_elapsed (d : Word64) (s : State) : (respond d s).elapsed = s.elapsed := rfl
@[simp] theorem respond_success (d : Word64) (s : State) : (respond d s).success = s.success := rfl
@[simp] theorem respond_err (d : Word64) (s : State) : (respond d s).err = s.err := rfl
@[simp] theorem respond_svalid (d : Word64) (s : State) : (respond d s).svalid = s.svalid := rfl
@[simp] theorem respond_stopped (d : Word64) (s : State) : (respond d s).stopped = s.stopped := rfl
@[simp] theorem respond_trunc (d : Word64) (s : State) : (respond d s).trunc = s.trunc := rfl
@[simp] theorem respond_cmderr (d : Word64) (s : State) : (respond d s).cmderr = s.cmderr := rfl
@[simp] theorem respond_lastrej (d : Word64) (s : State) : (respond d s).lastrej = s.lastrej := rfl
@[simp] theorem respond_fvalid (d : Word64) (s : State) : (respond d s).fvalid = s.fvalid := rfl
@[simp] theorem respond_flen (d : Word64) (s : State) : (respond d s).flen = s.flen := rfl
@[simp] theorem respond_fs (d : Word64) (s : State) : (respond d s).fs = s.fs := rfl
@[simp] theorem respond_txlog (d : Word64) (s : State) : (respond d s).txlog = s.txlog := rfl
@[simp] theorem respond_par (d : Word64) (s : State) : (respond d s).par = s.par := rfl
@[simp] theorem respond_resp (d : Word64) (s : State) : (respond d s).resp = some ⟨.ok, d⟩ := rfl
@[simp] theorem respond_hostq (d : Word64) (s : State) : (respond d s).hostq = s.hostq := rfl
@[simp] theorem respond_hostOut (d : Word64) (s : State) : (respond d s).hostOut = s.hostOut := rfl
@[simp] theorem respond_openQ (d : Word64) (s : State) : (respond d s).openQ = s.openQ := rfl
@[simp] theorem respond_sendQ (d : Word64) (s : State) : (respond d s).sendQ = s.sendQ := rfl
@[simp] theorem respond_draws (d : Word64) (s : State) : (respond d s).draws = s.draws := rfl

/-! ### reject -/

@[simp] theorem reject_dst (r : Reason) (s : State) : (reject r s).dst = s.dst := rfl
@[simp] theorem reject_src (r : Reason) (s : State) : (reject r s).src = s.src := rfl
@[simp] theorem reject_vlan (r : Reason) (s : State) : (reject r s).vlan = s.vlan := rfl
@[simp] theorem reject_profile (r : Reason) (s : State) : (reject r s).profile = s.profile := rfl
@[simp] theorem reject_psize (r : Reason) (s : State) : (reject r s).psize = s.psize := rfl
@[simp] theorem reject_tccnt (r : Reason) (s : State) : (reject r s).tccnt = s.tccnt := rfl
@[simp] theorem reject_tclist (r : Reason) (s : State) : (reject r s).tclist = s.tclist := rfl
@[simp] theorem reject_pps (r : Reason) (s : State) : (reject r s).pps = s.pps := rfl
@[simp] theorem reject_duration (r : Reason) (s : State) : (reject r s).duration = s.duration := rfl
@[simp] theorem reject_wDst (r : Reason) (s : State) : (reject r s).wDst = s.wDst := rfl
@[simp] theorem reject_wSrc (r : Reason) (s : State) : (reject r s).wSrc = s.wSrc := rfl
@[simp] theorem reject_wVlan (r : Reason) (s : State) : (reject r s).wVlan = s.wVlan := rfl
@[simp] theorem reject_wProf (r : Reason) (s : State) : (reject r s).wProf = s.wProf := rfl
@[simp] theorem reject_wPps (r : Reason) (s : State) : (reject r s).wPps = s.wPps := rfl
@[simp] theorem reject_wDur (r : Reason) (s : State) : (reject r s).wDur = s.wDur := rfl
@[simp] theorem reject_state (r : Reason) (s : State) : (reject r s).state = s.state := rfl
@[simp] theorem reject_phase (r : Reason) (s : State) : (reject r s).phase = s.phase := rfl
@[simp] theorem reject_k (r : Reason) (s : State) : (reject r s).k = s.k := rfl
@[simp] theorem reject_now (r : Reason) (s : State) : (reject r s).now = s.now := rfl
@[simp] theorem reject_startT (r : Reason) (s : State) : (reject r s).startT = s.startT := rfl
@[simp] theorem reject_sN (r : Reason) (s : State) : (reject r s).sN = s.sN := rfl
@[simp] theorem reject_sOrder (r : Reason) (s : State) : (reject r s).sOrder = s.sOrder := rfl
@[simp] theorem reject_sPps (r : Reason) (s : State) : (reject r s).sPps = s.sPps := rfl
@[simp] theorem reject_sDur (r : Reason) (s : State) : (reject r s).sDur = s.sDur := rfl
@[simp] theorem reject_sPsize (r : Reason) (s : State) : (reject r s).sPsize = s.sPsize := rfl
@[simp] theorem reject_sProf (r : Reason) (s : State) : (reject r s).sProf = s.sProf := rfl
@[simp] theorem reject_sVlan (r : Reason) (s : State) : (reject r s).sVlan = s.sVlan := rfl
@[simp] theorem reject_hopen (r : Reason) (s : State) : (reject r s).hopen = s.hopen := rfl
@[simp] theorem reject_total (r : Reason) (s : State) : (reject r s).total = s.total := rfl
@[simp] theorem reject_cnt (r : Reason) (s : State) : (reject r s).cnt = s.cnt := rfl
@[simp] theorem reject_elapsed (r : Reason) (s : State) : (reject r s).elapsed = s.elapsed := rfl
@[simp] theorem reject_success (r : Reason) (s : State) : (reject r s).success = s.success := rfl
@[simp] theorem reject_err (r : Reason) (s : State) : (reject r s).err = s.err := rfl
@[simp] theorem reject_svalid (r : Reason) (s : State) : (reject r s).svalid = s.svalid := rfl
@[simp] theorem reject_stopped (r : Reason) (s : State) : (reject r s).stopped = s.stopped := rfl
@[simp] theorem reject_trunc (r : Reason) (s : State) : (reject r s).trunc = s.trunc := rfl
@[simp] theorem reject_cmderr (r : Reason) (s : State) : (reject r s).cmderr = true := rfl
@[simp] theorem reject_lastrej (r : Reason) (s : State) : (reject r s).lastrej = r.code := rfl
@[simp] theorem reject_fvalid (r : Reason) (s : State) : (reject r s).fvalid = s.fvalid := rfl
@[simp] theorem reject_flen (r : Reason) (s : State) : (reject r s).flen = s.flen := rfl
@[simp] theorem reject_fs (r : Reason) (s : State) : (reject r s).fs = s.fs := rfl
@[simp] theorem reject_txlog (r : Reason) (s : State) : (reject r s).txlog = s.txlog := rfl
@[simp] theorem reject_par (r : Reason) (s : State) : (reject r s).par = s.par := rfl
@[simp] theorem reject_resp (r : Reason) (s : State) : (reject r s).resp = some ⟨.reject, 0⟩ := rfl
@[simp] theorem reject_hostq (r : Reason) (s : State) : (reject r s).hostq = s.hostq := rfl
@[simp] theorem reject_hostOut (r : Reason) (s : State) : (reject r s).hostOut = s.hostOut := rfl
@[simp] theorem reject_openQ (r : Reason) (s : State) : (reject r s).openQ = s.openQ := rfl
@[simp] theorem reject_sendQ (r : Reason) (s : State) : (reject r s).sendQ = s.sendQ := rfl
@[simp] theorem reject_draws (r : Reason) (s : State) : (reject r s).draws = s.draws := rfl

/-! ### noteTrunc -/

@[simp] theorem noteTrunc_dst (b : Bool) (s : State) : (noteTrunc b s).dst = s.dst := rfl
@[simp] theorem noteTrunc_src (b : Bool) (s : State) : (noteTrunc b s).src = s.src := rfl
@[simp] theorem noteTrunc_vlan (b : Bool) (s : State) : (noteTrunc b s).vlan = s.vlan := rfl
@[simp] theorem noteTrunc_profile (b : Bool) (s : State) : (noteTrunc b s).profile = s.profile := rfl
@[simp] theorem noteTrunc_psize (b : Bool) (s : State) : (noteTrunc b s).psize = s.psize := rfl
@[simp] theorem noteTrunc_tccnt (b : Bool) (s : State) : (noteTrunc b s).tccnt = s.tccnt := rfl
@[simp] theorem noteTrunc_tclist (b : Bool) (s : State) : (noteTrunc b s).tclist = s.tclist := rfl
@[simp] theorem noteTrunc_pps (b : Bool) (s : State) : (noteTrunc b s).pps = s.pps := rfl
@[simp] theorem noteTrunc_duration (b : Bool) (s : State) : (noteTrunc b s).duration = s.duration := rfl
@[simp] theorem noteTrunc_wDst (b : Bool) (s : State) : (noteTrunc b s).wDst = s.wDst := rfl
@[simp] theorem noteTrunc_wSrc (b : Bool) (s : State) : (noteTrunc b s).wSrc = s.wSrc := rfl
@[simp] theorem noteTrunc_wVlan (b : Bool) (s : State) : (noteTrunc b s).wVlan = s.wVlan := rfl
@[simp] theorem noteTrunc_wProf (b : Bool) (s : State) : (noteTrunc b s).wProf = s.wProf := rfl
@[simp] theorem noteTrunc_wPps (b : Bool) (s : State) : (noteTrunc b s).wPps = s.wPps := rfl
@[simp] theorem noteTrunc_wDur (b : Bool) (s : State) : (noteTrunc b s).wDur = s.wDur := rfl
@[simp] theorem noteTrunc_state (b : Bool) (s : State) : (noteTrunc b s).state = s.state := rfl
@[simp] theorem noteTrunc_phase (b : Bool) (s : State) : (noteTrunc b s).phase = s.phase := rfl
@[simp] theorem noteTrunc_k (b : Bool) (s : State) : (noteTrunc b s).k = s.k := rfl
@[simp] theorem noteTrunc_now (b : Bool) (s : State) : (noteTrunc b s).now = s.now := rfl
@[simp] theorem noteTrunc_startT (b : Bool) (s : State) : (noteTrunc b s).startT = s.startT := rfl
@[simp] theorem noteTrunc_sN (b : Bool) (s : State) : (noteTrunc b s).sN = s.sN := rfl
@[simp] theorem noteTrunc_sOrder (b : Bool) (s : State) : (noteTrunc b s).sOrder = s.sOrder := rfl
@[simp] theorem noteTrunc_sPps (b : Bool) (s : State) : (noteTrunc b s).sPps = s.sPps := rfl
@[simp] theorem noteTrunc_sDur (b : Bool) (s : State) : (noteTrunc b s).sDur = s.sDur := rfl
@[simp] theorem noteTrunc_sPsize (b : Bool) (s : State) : (noteTrunc b s).sPsize = s.sPsize := rfl
@[simp] theorem noteTrunc_sProf (b : Bool) (s : State) : (noteTrunc b s).sProf = s.sProf := rfl
@[simp] theorem noteTrunc_sVlan (b : Bool) (s : State) : (noteTrunc b s).sVlan = s.sVlan := rfl
@[simp] theorem noteTrunc_hopen (b : Bool) (s : State) : (noteTrunc b s).hopen = s.hopen := rfl
@[simp] theorem noteTrunc_total (b : Bool) (s : State) : (noteTrunc b s).total = s.total := rfl
@[simp] theorem noteTrunc_cnt (b : Bool) (s : State) : (noteTrunc b s).cnt = s.cnt := rfl
@[simp] theorem noteTrunc_elapsed (b : Bool) (s : State) : (noteTrunc b s).elapsed = s.elapsed := rfl
@[simp] theorem noteTrunc_success (b : Bool) (s : State) : (noteTrunc b s).success = s.success := rfl
@[simp] theorem noteTrunc_err (b : Bool) (s : State) : (noteTrunc b s).err = s.err := rfl
@[simp] theorem noteTrunc_svalid (b : Bool) (s : State) : (noteTrunc b s).svalid = s.svalid := rfl
@[simp] theorem noteTrunc_stopped (b : Bool) (s : State) : (noteTrunc b s).stopped = s.stopped := rfl
@[simp] theorem noteTrunc_trunc (b : Bool) (s : State) : (noteTrunc b s).trunc = (s.trunc || b) := rfl
@[simp] theorem noteTrunc_cmderr (b : Bool) (s : State) : (noteTrunc b s).cmderr = s.cmderr := rfl
@[simp] theorem noteTrunc_lastrej (b : Bool) (s : State) : (noteTrunc b s).lastrej = s.lastrej := rfl
@[simp] theorem noteTrunc_fvalid (b : Bool) (s : State) : (noteTrunc b s).fvalid = s.fvalid := rfl
@[simp] theorem noteTrunc_flen (b : Bool) (s : State) : (noteTrunc b s).flen = s.flen := rfl
@[simp] theorem noteTrunc_fs (b : Bool) (s : State) : (noteTrunc b s).fs = s.fs := rfl
@[simp] theorem noteTrunc_txlog (b : Bool) (s : State) : (noteTrunc b s).txlog = s.txlog := rfl
@[simp] theorem noteTrunc_par (b : Bool) (s : State) : (noteTrunc b s).par = s.par := rfl
@[simp] theorem noteTrunc_resp (b : Bool) (s : State) : (noteTrunc b s).resp = s.resp := rfl
@[simp] theorem noteTrunc_hostq (b : Bool) (s : State) : (noteTrunc b s).hostq = s.hostq := rfl
@[simp] theorem noteTrunc_hostOut (b : Bool) (s : State) : (noteTrunc b s).hostOut = s.hostOut := rfl
@[simp] theorem noteTrunc_openQ (b : Bool) (s : State) : (noteTrunc b s).openQ = s.openQ := rfl
@[simp] theorem noteTrunc_sendQ (b : Bool) (s : State) : (noteTrunc b s).sendQ = s.sendQ := rfl
@[simp] theorem noteTrunc_draws (b : Bool) (s : State) : (noteTrunc b s).draws = s.draws := rfl

/-! ### installFrame -/

@[simp] theorem installFrame_dst (c : Pcp) (f : List Byte) (s : State) : (installFrame c f s).dst = s.dst := rfl
@[simp] theorem installFrame_src (c : Pcp) (f : List Byte) (s : State) : (installFrame c f s).src = s.src := rfl
@[simp] theorem installFrame_vlan (c : Pcp) (f : List Byte) (s : State) : (installFrame c f s).vlan = s.vlan := rfl
@[simp] theorem installFrame_profile (c : Pcp) (f : List Byte) (s : State) : (installFrame c f s).profile = s.profile := rfl
@[simp] theorem installFrame_psize (c : Pcp) (f : List Byte) (s : State) : (installFrame c f s).psize = s.psize := rfl
@[simp] theorem installFrame_tccnt (c : Pcp) (f : List Byte) (s : State) : (installFrame c f s).tccnt = s.tccnt := rfl
@[simp] theorem installFrame_tclist (c : Pcp) (f : List Byte) (s : State) : (installFrame c f s).tclist = s.tclist := rfl
@[simp] theorem installFrame_pps (c : Pcp) (f : List Byte) (s : State) : (installFrame c f s).pps = s.pps := rfl
@[simp] theorem installFrame_duration (c : Pcp) (f : List Byte) (s : State) : (installFrame c f s).duration = s.duration := rfl
@[simp] theorem installFrame_wDst (c : Pcp) (f : List Byte) (s : State) : (installFrame c f s).wDst = s.wDst := rfl
@[simp] theorem installFrame_wSrc (c : Pcp) (f : List Byte) (s : State) : (installFrame c f s).wSrc = s.wSrc := rfl
@[simp] theorem installFrame_wVlan (c : Pcp) (f : List Byte) (s : State) : (installFrame c f s).wVlan = s.wVlan := rfl
@[simp] theorem installFrame_wProf (c : Pcp) (f : List Byte) (s : State) : (installFrame c f s).wProf = s.wProf := rfl
@[simp] theorem installFrame_wPps (c : Pcp) (f : List Byte) (s : State) : (installFrame c f s).wPps = s.wPps := rfl
@[simp] theorem installFrame_wDur (c : Pcp) (f : List Byte) (s : State) : (installFrame c f s).wDur = s.wDur := rfl
@[simp] theorem installFrame_state (c : Pcp) (f : List Byte) (s : State) : (installFrame c f s).state = s.state := rfl
@[simp] theorem installFrame_phase (c : Pcp) (f : List Byte) (s : State) : (installFrame c f s).phase = s.phase := rfl
@[simp] theorem installFrame_k (c : Pcp) (f : List Byte) (s : State) : (installFrame c f s).k = s.k := rfl
@[simp] theorem installFrame_now (c : Pcp) (f : List Byte) (s : State) : (installFrame c f s).now = s.now := rfl
@[simp] theorem installFrame_startT (c : Pcp) (f : List Byte) (s : State) : (installFrame c f s).startT = s.startT := rfl
@[simp] theorem installFrame_sN (c : Pcp) (f : List Byte) (s : State) : (installFrame c f s).sN = s.sN := rfl
@[simp] theorem installFrame_sOrder (c : Pcp) (f : List Byte) (s : State) : (installFrame c f s).sOrder = s.sOrder := rfl
@[simp] theorem installFrame_sPps (c : Pcp) (f : List Byte) (s : State) : (installFrame c f s).sPps = s.sPps := rfl
@[simp] theorem installFrame_sDur (c : Pcp) (f : List Byte) (s : State) : (installFrame c f s).sDur = s.sDur := rfl
@[simp] theorem installFrame_sPsize (c : Pcp) (f : List Byte) (s : State) : (installFrame c f s).sPsize = s.sPsize := rfl
@[simp] theorem installFrame_sProf (c : Pcp) (f : List Byte) (s : State) : (installFrame c f s).sProf = s.sProf := rfl
@[simp] theorem installFrame_sVlan (c : Pcp) (f : List Byte) (s : State) : (installFrame c f s).sVlan = s.sVlan := rfl
@[simp] theorem installFrame_hopen (c : Pcp) (f : List Byte) (s : State) : (installFrame c f s).hopen = s.hopen := rfl
@[simp] theorem installFrame_total (c : Pcp) (f : List Byte) (s : State) : (installFrame c f s).total = s.total := rfl
@[simp] theorem installFrame_cnt (c : Pcp) (f : List Byte) (s : State) : (installFrame c f s).cnt = s.cnt := rfl
@[simp] theorem installFrame_elapsed (c : Pcp) (f : List Byte) (s : State) : (installFrame c f s).elapsed = s.elapsed := rfl
@[simp] theorem installFrame_success (c : Pcp) (f : List Byte) (s : State) : (installFrame c f s).success = s.success := rfl
@[simp] theorem installFrame_err (c : Pcp) (f : List Byte) (s : State) : (installFrame c f s).err = s.err := rfl
@[simp] theorem installFrame_svalid (c : Pcp) (f : List Byte) (s : State) : (installFrame c f s).svalid = s.svalid := rfl
@[simp] theorem installFrame_stopped (c : Pcp) (f : List Byte) (s : State) : (installFrame c f s).stopped = s.stopped := rfl
@[simp] theorem installFrame_trunc (c : Pcp) (f : List Byte) (s : State) : (installFrame c f s).trunc = s.trunc := rfl
@[simp] theorem installFrame_cmderr (c : Pcp) (f : List Byte) (s : State) : (installFrame c f s).cmderr = s.cmderr := rfl
@[simp] theorem installFrame_lastrej (c : Pcp) (f : List Byte) (s : State) : (installFrame c f s).lastrej = s.lastrej := rfl
@[simp] theorem installFrame_fvalid (c : Pcp) (f : List Byte) (s : State) : (installFrame c f s).fvalid = set8 s.fvalid c true := rfl
@[simp] theorem installFrame_flen (c : Pcp) (f : List Byte) (s : State) : (installFrame c f s).flen = set8 s.flen c (BitVec.ofNat 11 f.length) := rfl
@[simp] theorem installFrame_fs (c : Pcp) (f : List Byte) (s : State) : (installFrame c f s).fs = s.fs.setBytes (slotBase c) f := rfl
@[simp] theorem installFrame_txlog (c : Pcp) (f : List Byte) (s : State) : (installFrame c f s).txlog = s.txlog := rfl
@[simp] theorem installFrame_par (c : Pcp) (f : List Byte) (s : State) : (installFrame c f s).par = s.par := rfl
@[simp] theorem installFrame_resp (c : Pcp) (f : List Byte) (s : State) : (installFrame c f s).resp = s.resp := rfl
@[simp] theorem installFrame_hostq (c : Pcp) (f : List Byte) (s : State) : (installFrame c f s).hostq = s.hostq := rfl
@[simp] theorem installFrame_hostOut (c : Pcp) (f : List Byte) (s : State) : (installFrame c f s).hostOut = s.hostOut := rfl
@[simp] theorem installFrame_openQ (c : Pcp) (f : List Byte) (s : State) : (installFrame c f s).openQ = s.openQ := rfl
@[simp] theorem installFrame_sendQ (c : Pcp) (f : List Byte) (s : State) : (installFrame c f s).sendQ = s.sendQ := rfl
@[simp] theorem installFrame_draws (c : Pcp) (f : List Byte) (s : State) : (installFrame c f s).draws = s.draws := rfl

/-! ### openSink -/

@[simp] theorem openSink_dst (s : State) : (openSink s).dst = s.dst := rfl
@[simp] theorem openSink_src (s : State) : (openSink s).src = s.src := rfl
@[simp] theorem openSink_vlan (s : State) : (openSink s).vlan = s.vlan := rfl
@[simp] theorem openSink_profile (s : State) : (openSink s).profile = s.profile := rfl
@[simp] theorem openSink_psize (s : State) : (openSink s).psize = s.psize := rfl
@[simp] theorem openSink_tccnt (s : State) : (openSink s).tccnt = s.tccnt := rfl
@[simp] theorem openSink_tclist (s : State) : (openSink s).tclist = s.tclist := rfl
@[simp] theorem openSink_pps (s : State) : (openSink s).pps = s.pps := rfl
@[simp] theorem openSink_duration (s : State) : (openSink s).duration = s.duration := rfl
@[simp] theorem openSink_wDst (s : State) : (openSink s).wDst = s.wDst := rfl
@[simp] theorem openSink_wSrc (s : State) : (openSink s).wSrc = s.wSrc := rfl
@[simp] theorem openSink_wVlan (s : State) : (openSink s).wVlan = s.wVlan := rfl
@[simp] theorem openSink_wProf (s : State) : (openSink s).wProf = s.wProf := rfl
@[simp] theorem openSink_wPps (s : State) : (openSink s).wPps = s.wPps := rfl
@[simp] theorem openSink_wDur (s : State) : (openSink s).wDur = s.wDur := rfl
@[simp] theorem openSink_state (s : State) : (openSink s).state = s.state := rfl
@[simp] theorem openSink_phase (s : State) : (openSink s).phase = s.phase := rfl
@[simp] theorem openSink_k (s : State) : (openSink s).k = s.k := rfl
@[simp] theorem openSink_now (s : State) : (openSink s).now = s.now := rfl
@[simp] theorem openSink_startT (s : State) : (openSink s).startT = s.startT := rfl
@[simp] theorem openSink_sN (s : State) : (openSink s).sN = s.sN := rfl
@[simp] theorem openSink_sOrder (s : State) : (openSink s).sOrder = s.sOrder := rfl
@[simp] theorem openSink_sPps (s : State) : (openSink s).sPps = s.sPps := rfl
@[simp] theorem openSink_sDur (s : State) : (openSink s).sDur = s.sDur := rfl
@[simp] theorem openSink_sPsize (s : State) : (openSink s).sPsize = s.sPsize := rfl
@[simp] theorem openSink_sProf (s : State) : (openSink s).sProf = s.sProf := rfl
@[simp] theorem openSink_sVlan (s : State) : (openSink s).sVlan = s.sVlan := rfl
@[simp] theorem openSink_hopen (s : State) : (openSink s).hopen = s.hopen := rfl
@[simp] theorem openSink_total (s : State) : (openSink s).total = s.total := rfl
@[simp] theorem openSink_cnt (s : State) : (openSink s).cnt = s.cnt := rfl
@[simp] theorem openSink_elapsed (s : State) : (openSink s).elapsed = s.elapsed := rfl
@[simp] theorem openSink_success (s : State) : (openSink s).success = s.success := rfl
@[simp] theorem openSink_err (s : State) : (openSink s).err = s.err := rfl
@[simp] theorem openSink_svalid (s : State) : (openSink s).svalid = s.svalid := rfl
@[simp] theorem openSink_stopped (s : State) : (openSink s).stopped = s.stopped := rfl
@[simp] theorem openSink_trunc (s : State) : (openSink s).trunc = s.trunc := rfl
@[simp] theorem openSink_cmderr (s : State) : (openSink s).cmderr = s.cmderr := rfl
@[simp] theorem openSink_lastrej (s : State) : (openSink s).lastrej = s.lastrej := rfl
@[simp] theorem openSink_fvalid (s : State) : (openSink s).fvalid = s.fvalid := rfl
@[simp] theorem openSink_flen (s : State) : (openSink s).flen = s.flen := rfl
@[simp] theorem openSink_fs (s : State) : (openSink s).fs = s.fs := rfl
@[simp] theorem openSink_txlog (s : State) : (openSink s).txlog = s.txlog ++ [.opened (openAnswer s)] := rfl
@[simp] theorem openSink_par (s : State) : (openSink s).par = s.par := rfl
@[simp] theorem openSink_resp (s : State) : (openSink s).resp = s.resp := rfl
@[simp] theorem openSink_hostq (s : State) : (openSink s).hostq = s.hostq := rfl
@[simp] theorem openSink_hostOut (s : State) : (openSink s).hostOut = s.hostOut := rfl
@[simp] theorem openSink_openQ (s : State) : (openSink s).openQ = s.openQ.tail := rfl
@[simp] theorem openSink_sendQ (s : State) : (openSink s).sendQ = s.sendQ := rfl
@[simp] theorem openSink_draws (s : State) : (openSink s).draws = if s.openQ.isEmpty then s.draws + 1 else s.draws := rfl

/-! ### sendSink -/

@[simp] theorem sendSink_dst (c : Pcp) (f : List Byte) (s : State) : (sendSink c f s).dst = s.dst := rfl
@[simp] theorem sendSink_src (c : Pcp) (f : List Byte) (s : State) : (sendSink c f s).src = s.src := rfl
@[simp] theorem sendSink_vlan (c : Pcp) (f : List Byte) (s : State) : (sendSink c f s).vlan = s.vlan := rfl
@[simp] theorem sendSink_profile (c : Pcp) (f : List Byte) (s : State) : (sendSink c f s).profile = s.profile := rfl
@[simp] theorem sendSink_psize (c : Pcp) (f : List Byte) (s : State) : (sendSink c f s).psize = s.psize := rfl
@[simp] theorem sendSink_tccnt (c : Pcp) (f : List Byte) (s : State) : (sendSink c f s).tccnt = s.tccnt := rfl
@[simp] theorem sendSink_tclist (c : Pcp) (f : List Byte) (s : State) : (sendSink c f s).tclist = s.tclist := rfl
@[simp] theorem sendSink_pps (c : Pcp) (f : List Byte) (s : State) : (sendSink c f s).pps = s.pps := rfl
@[simp] theorem sendSink_duration (c : Pcp) (f : List Byte) (s : State) : (sendSink c f s).duration = s.duration := rfl
@[simp] theorem sendSink_wDst (c : Pcp) (f : List Byte) (s : State) : (sendSink c f s).wDst = s.wDst := rfl
@[simp] theorem sendSink_wSrc (c : Pcp) (f : List Byte) (s : State) : (sendSink c f s).wSrc = s.wSrc := rfl
@[simp] theorem sendSink_wVlan (c : Pcp) (f : List Byte) (s : State) : (sendSink c f s).wVlan = s.wVlan := rfl
@[simp] theorem sendSink_wProf (c : Pcp) (f : List Byte) (s : State) : (sendSink c f s).wProf = s.wProf := rfl
@[simp] theorem sendSink_wPps (c : Pcp) (f : List Byte) (s : State) : (sendSink c f s).wPps = s.wPps := rfl
@[simp] theorem sendSink_wDur (c : Pcp) (f : List Byte) (s : State) : (sendSink c f s).wDur = s.wDur := rfl
@[simp] theorem sendSink_state (c : Pcp) (f : List Byte) (s : State) : (sendSink c f s).state = s.state := rfl
@[simp] theorem sendSink_phase (c : Pcp) (f : List Byte) (s : State) : (sendSink c f s).phase = s.phase := rfl
@[simp] theorem sendSink_k (c : Pcp) (f : List Byte) (s : State) : (sendSink c f s).k = s.k := rfl
@[simp] theorem sendSink_now (c : Pcp) (f : List Byte) (s : State) : (sendSink c f s).now = s.now := rfl
@[simp] theorem sendSink_startT (c : Pcp) (f : List Byte) (s : State) : (sendSink c f s).startT = s.startT := rfl
@[simp] theorem sendSink_sN (c : Pcp) (f : List Byte) (s : State) : (sendSink c f s).sN = s.sN := rfl
@[simp] theorem sendSink_sOrder (c : Pcp) (f : List Byte) (s : State) : (sendSink c f s).sOrder = s.sOrder := rfl
@[simp] theorem sendSink_sPps (c : Pcp) (f : List Byte) (s : State) : (sendSink c f s).sPps = s.sPps := rfl
@[simp] theorem sendSink_sDur (c : Pcp) (f : List Byte) (s : State) : (sendSink c f s).sDur = s.sDur := rfl
@[simp] theorem sendSink_sPsize (c : Pcp) (f : List Byte) (s : State) : (sendSink c f s).sPsize = s.sPsize := rfl
@[simp] theorem sendSink_sProf (c : Pcp) (f : List Byte) (s : State) : (sendSink c f s).sProf = s.sProf := rfl
@[simp] theorem sendSink_sVlan (c : Pcp) (f : List Byte) (s : State) : (sendSink c f s).sVlan = s.sVlan := rfl
@[simp] theorem sendSink_hopen (c : Pcp) (f : List Byte) (s : State) : (sendSink c f s).hopen = s.hopen := rfl
@[simp] theorem sendSink_total (c : Pcp) (f : List Byte) (s : State) : (sendSink c f s).total = s.total := rfl
@[simp] theorem sendSink_cnt (c : Pcp) (f : List Byte) (s : State) : (sendSink c f s).cnt = s.cnt := rfl
@[simp] theorem sendSink_elapsed (c : Pcp) (f : List Byte) (s : State) : (sendSink c f s).elapsed = s.elapsed := rfl
@[simp] theorem sendSink_success (c : Pcp) (f : List Byte) (s : State) : (sendSink c f s).success = s.success := rfl
@[simp] theorem sendSink_err (c : Pcp) (f : List Byte) (s : State) : (sendSink c f s).err = s.err := rfl
@[simp] theorem sendSink_svalid (c : Pcp) (f : List Byte) (s : State) : (sendSink c f s).svalid = s.svalid := rfl
@[simp] theorem sendSink_stopped (c : Pcp) (f : List Byte) (s : State) : (sendSink c f s).stopped = s.stopped := rfl
@[simp] theorem sendSink_trunc (c : Pcp) (f : List Byte) (s : State) : (sendSink c f s).trunc = s.trunc := rfl
@[simp] theorem sendSink_cmderr (c : Pcp) (f : List Byte) (s : State) : (sendSink c f s).cmderr = s.cmderr := rfl
@[simp] theorem sendSink_lastrej (c : Pcp) (f : List Byte) (s : State) : (sendSink c f s).lastrej = s.lastrej := rfl
@[simp] theorem sendSink_fvalid (c : Pcp) (f : List Byte) (s : State) : (sendSink c f s).fvalid = s.fvalid := rfl
@[simp] theorem sendSink_flen (c : Pcp) (f : List Byte) (s : State) : (sendSink c f s).flen = s.flen := rfl
@[simp] theorem sendSink_fs (c : Pcp) (f : List Byte) (s : State) : (sendSink c f s).fs = s.fs := rfl
@[simp] theorem sendSink_txlog (c : Pcp) (f : List Byte) (s : State) : (sendSink c f s).txlog = s.txlog ++ [.send (sinceStart s) s.k c f (sendAnswer s)] := rfl
@[simp] theorem sendSink_par (c : Pcp) (f : List Byte) (s : State) : (sendSink c f s).par = s.par := rfl
@[simp] theorem sendSink_resp (c : Pcp) (f : List Byte) (s : State) : (sendSink c f s).resp = s.resp := rfl
@[simp] theorem sendSink_hostq (c : Pcp) (f : List Byte) (s : State) : (sendSink c f s).hostq = s.hostq := rfl
@[simp] theorem sendSink_hostOut (c : Pcp) (f : List Byte) (s : State) : (sendSink c f s).hostOut = s.hostOut := rfl
@[simp] theorem sendSink_openQ (c : Pcp) (f : List Byte) (s : State) : (sendSink c f s).openQ = s.openQ := rfl
@[simp] theorem sendSink_sendQ (c : Pcp) (f : List Byte) (s : State) : (sendSink c f s).sendQ = s.sendQ.tail := rfl
@[simp] theorem sendSink_draws (c : Pcp) (f : List Byte) (s : State) : (sendSink c f s).draws = if s.sendQ.isEmpty then s.draws + 1 else s.draws := rfl

/-! ### closeSink -/

@[simp] theorem closeSink_dst (s : State) : (closeSink s).dst = s.dst := rfl
@[simp] theorem closeSink_src (s : State) : (closeSink s).src = s.src := rfl
@[simp] theorem closeSink_vlan (s : State) : (closeSink s).vlan = s.vlan := rfl
@[simp] theorem closeSink_profile (s : State) : (closeSink s).profile = s.profile := rfl
@[simp] theorem closeSink_psize (s : State) : (closeSink s).psize = s.psize := rfl
@[simp] theorem closeSink_tccnt (s : State) : (closeSink s).tccnt = s.tccnt := rfl
@[simp] theorem closeSink_tclist (s : State) : (closeSink s).tclist = s.tclist := rfl
@[simp] theorem closeSink_pps (s : State) : (closeSink s).pps = s.pps := rfl
@[simp] theorem closeSink_duration (s : State) : (closeSink s).duration = s.duration := rfl
@[simp] theorem closeSink_wDst (s : State) : (closeSink s).wDst = s.wDst := rfl
@[simp] theorem closeSink_wSrc (s : State) : (closeSink s).wSrc = s.wSrc := rfl
@[simp] theorem closeSink_wVlan (s : State) : (closeSink s).wVlan = s.wVlan := rfl
@[simp] theorem closeSink_wProf (s : State) : (closeSink s).wProf = s.wProf := rfl
@[simp] theorem closeSink_wPps (s : State) : (closeSink s).wPps = s.wPps := rfl
@[simp] theorem closeSink_wDur (s : State) : (closeSink s).wDur = s.wDur := rfl
@[simp] theorem closeSink_state (s : State) : (closeSink s).state = s.state := rfl
@[simp] theorem closeSink_phase (s : State) : (closeSink s).phase = s.phase := rfl
@[simp] theorem closeSink_k (s : State) : (closeSink s).k = s.k := rfl
@[simp] theorem closeSink_now (s : State) : (closeSink s).now = s.now := rfl
@[simp] theorem closeSink_startT (s : State) : (closeSink s).startT = s.startT := rfl
@[simp] theorem closeSink_sN (s : State) : (closeSink s).sN = s.sN := rfl
@[simp] theorem closeSink_sOrder (s : State) : (closeSink s).sOrder = s.sOrder := rfl
@[simp] theorem closeSink_sPps (s : State) : (closeSink s).sPps = s.sPps := rfl
@[simp] theorem closeSink_sDur (s : State) : (closeSink s).sDur = s.sDur := rfl
@[simp] theorem closeSink_sPsize (s : State) : (closeSink s).sPsize = s.sPsize := rfl
@[simp] theorem closeSink_sProf (s : State) : (closeSink s).sProf = s.sProf := rfl
@[simp] theorem closeSink_sVlan (s : State) : (closeSink s).sVlan = s.sVlan := rfl
@[simp] theorem closeSink_hopen (s : State) : (closeSink s).hopen = s.hopen := rfl
@[simp] theorem closeSink_total (s : State) : (closeSink s).total = s.total := rfl
@[simp] theorem closeSink_cnt (s : State) : (closeSink s).cnt = s.cnt := rfl
@[simp] theorem closeSink_elapsed (s : State) : (closeSink s).elapsed = s.elapsed := rfl
@[simp] theorem closeSink_success (s : State) : (closeSink s).success = s.success := rfl
@[simp] theorem closeSink_err (s : State) : (closeSink s).err = s.err := rfl
@[simp] theorem closeSink_svalid (s : State) : (closeSink s).svalid = s.svalid := rfl
@[simp] theorem closeSink_stopped (s : State) : (closeSink s).stopped = s.stopped := rfl
@[simp] theorem closeSink_trunc (s : State) : (closeSink s).trunc = s.trunc := rfl
@[simp] theorem closeSink_cmderr (s : State) : (closeSink s).cmderr = s.cmderr := rfl
@[simp] theorem closeSink_lastrej (s : State) : (closeSink s).lastrej = s.lastrej := rfl
@[simp] theorem closeSink_fvalid (s : State) : (closeSink s).fvalid = s.fvalid := rfl
@[simp] theorem closeSink_flen (s : State) : (closeSink s).flen = s.flen := rfl
@[simp] theorem closeSink_fs (s : State) : (closeSink s).fs = s.fs := rfl
@[simp] theorem closeSink_txlog (s : State) : (closeSink s).txlog = s.txlog ++ [.closed] := rfl
@[simp] theorem closeSink_par (s : State) : (closeSink s).par = s.par := rfl
@[simp] theorem closeSink_resp (s : State) : (closeSink s).resp = s.resp := rfl
@[simp] theorem closeSink_hostq (s : State) : (closeSink s).hostq = s.hostq := rfl
@[simp] theorem closeSink_hostOut (s : State) : (closeSink s).hostOut = s.hostOut := rfl
@[simp] theorem closeSink_openQ (s : State) : (closeSink s).openQ = s.openQ := rfl
@[simp] theorem closeSink_sendQ (s : State) : (closeSink s).sendQ = s.sendQ := rfl
@[simp] theorem closeSink_draws (s : State) : (closeSink s).draws = s.draws := rfl

/-! ### setPosition -/

@[simp] theorem setPosition_dst (r : RunState) (p : Phase) (s : State) : (setPosition r p s).dst = s.dst := rfl
@[simp] theorem setPosition_src (r : RunState) (p : Phase) (s : State) : (setPosition r p s).src = s.src := rfl
@[simp] theorem setPosition_vlan (r : RunState) (p : Phase) (s : State) : (setPosition r p s).vlan = s.vlan := rfl
@[simp] theorem setPosition_profile (r : RunState) (p : Phase) (s : State) : (setPosition r p s).profile = s.profile := rfl
@[simp] theorem setPosition_psize (r : RunState) (p : Phase) (s : State) : (setPosition r p s).psize = s.psize := rfl
@[simp] theorem setPosition_tccnt (r : RunState) (p : Phase) (s : State) : (setPosition r p s).tccnt = s.tccnt := rfl
@[simp] theorem setPosition_tclist (r : RunState) (p : Phase) (s : State) : (setPosition r p s).tclist = s.tclist := rfl
@[simp] theorem setPosition_pps (r : RunState) (p : Phase) (s : State) : (setPosition r p s).pps = s.pps := rfl
@[simp] theorem setPosition_duration (r : RunState) (p : Phase) (s : State) : (setPosition r p s).duration = s.duration := rfl
@[simp] theorem setPosition_wDst (r : RunState) (p : Phase) (s : State) : (setPosition r p s).wDst = s.wDst := rfl
@[simp] theorem setPosition_wSrc (r : RunState) (p : Phase) (s : State) : (setPosition r p s).wSrc = s.wSrc := rfl
@[simp] theorem setPosition_wVlan (r : RunState) (p : Phase) (s : State) : (setPosition r p s).wVlan = s.wVlan := rfl
@[simp] theorem setPosition_wProf (r : RunState) (p : Phase) (s : State) : (setPosition r p s).wProf = s.wProf := rfl
@[simp] theorem setPosition_wPps (r : RunState) (p : Phase) (s : State) : (setPosition r p s).wPps = s.wPps := rfl
@[simp] theorem setPosition_wDur (r : RunState) (p : Phase) (s : State) : (setPosition r p s).wDur = s.wDur := rfl
@[simp] theorem setPosition_state (r : RunState) (p : Phase) (s : State) : (setPosition r p s).state = r := rfl
@[simp] theorem setPosition_phase (r : RunState) (p : Phase) (s : State) : (setPosition r p s).phase = p := rfl
@[simp] theorem setPosition_k (r : RunState) (p : Phase) (s : State) : (setPosition r p s).k = s.k := rfl
@[simp] theorem setPosition_now (r : RunState) (p : Phase) (s : State) : (setPosition r p s).now = s.now := rfl
@[simp] theorem setPosition_startT (r : RunState) (p : Phase) (s : State) : (setPosition r p s).startT = s.startT := rfl
@[simp] theorem setPosition_sN (r : RunState) (p : Phase) (s : State) : (setPosition r p s).sN = s.sN := rfl
@[simp] theorem setPosition_sOrder (r : RunState) (p : Phase) (s : State) : (setPosition r p s).sOrder = s.sOrder := rfl
@[simp] theorem setPosition_sPps (r : RunState) (p : Phase) (s : State) : (setPosition r p s).sPps = s.sPps := rfl
@[simp] theorem setPosition_sDur (r : RunState) (p : Phase) (s : State) : (setPosition r p s).sDur = s.sDur := rfl
@[simp] theorem setPosition_sPsize (r : RunState) (p : Phase) (s : State) : (setPosition r p s).sPsize = s.sPsize := rfl
@[simp] theorem setPosition_sProf (r : RunState) (p : Phase) (s : State) : (setPosition r p s).sProf = s.sProf := rfl
@[simp] theorem setPosition_sVlan (r : RunState) (p : Phase) (s : State) : (setPosition r p s).sVlan = s.sVlan := rfl
@[simp] theorem setPosition_hopen (r : RunState) (p : Phase) (s : State) : (setPosition r p s).hopen = s.hopen := rfl
@[simp] theorem setPosition_total (r : RunState) (p : Phase) (s : State) : (setPosition r p s).total = s.total := rfl
@[simp] theorem setPosition_cnt (r : RunState) (p : Phase) (s : State) : (setPosition r p s).cnt = s.cnt := rfl
@[simp] theorem setPosition_elapsed (r : RunState) (p : Phase) (s : State) : (setPosition r p s).elapsed = s.elapsed := rfl
@[simp] theorem setPosition_success (r : RunState) (p : Phase) (s : State) : (setPosition r p s).success = s.success := rfl
@[simp] theorem setPosition_err (r : RunState) (p : Phase) (s : State) : (setPosition r p s).err = s.err := rfl
@[simp] theorem setPosition_svalid (r : RunState) (p : Phase) (s : State) : (setPosition r p s).svalid = s.svalid := rfl
@[simp] theorem setPosition_stopped (r : RunState) (p : Phase) (s : State) : (setPosition r p s).stopped = s.stopped := rfl
@[simp] theorem setPosition_trunc (r : RunState) (p : Phase) (s : State) : (setPosition r p s).trunc = s.trunc := rfl
@[simp] theorem setPosition_cmderr (r : RunState) (p : Phase) (s : State) : (setPosition r p s).cmderr = s.cmderr := rfl
@[simp] theorem setPosition_lastrej (r : RunState) (p : Phase) (s : State) : (setPosition r p s).lastrej = s.lastrej := rfl
@[simp] theorem setPosition_fvalid (r : RunState) (p : Phase) (s : State) : (setPosition r p s).fvalid = s.fvalid := rfl
@[simp] theorem setPosition_flen (r : RunState) (p : Phase) (s : State) : (setPosition r p s).flen = s.flen := rfl
@[simp] theorem setPosition_fs (r : RunState) (p : Phase) (s : State) : (setPosition r p s).fs = s.fs := rfl
@[simp] theorem setPosition_txlog (r : RunState) (p : Phase) (s : State) : (setPosition r p s).txlog = s.txlog := rfl
@[simp] theorem setPosition_par (r : RunState) (p : Phase) (s : State) : (setPosition r p s).par = s.par := rfl
@[simp] theorem setPosition_resp (r : RunState) (p : Phase) (s : State) : (setPosition r p s).resp = s.resp := rfl
@[simp] theorem setPosition_hostq (r : RunState) (p : Phase) (s : State) : (setPosition r p s).hostq = s.hostq := rfl
@[simp] theorem setPosition_hostOut (r : RunState) (p : Phase) (s : State) : (setPosition r p s).hostOut = s.hostOut := rfl
@[simp] theorem setPosition_openQ (r : RunState) (p : Phase) (s : State) : (setPosition r p s).openQ = s.openQ := rfl
@[simp] theorem setPosition_sendQ (r : RunState) (p : Phase) (s : State) : (setPosition r p s).sendQ = s.sendQ := rfl
@[simp] theorem setPosition_draws (r : RunState) (p : Phase) (s : State) : (setPosition r p s).draws = s.draws := rfl

/-! ### setOutcome -/

@[simp] theorem setOutcome_dst (kind : FinishKind) (s : State) : (setOutcome kind s).dst = s.dst := by cases kind <;> rfl
@[simp] theorem setOutcome_src (kind : FinishKind) (s : State) : (setOutcome kind s).src = s.src := by cases kind <;> rfl
@[simp] theorem setOutcome_vlan (kind : FinishKind) (s : State) : (setOutcome kind s).vlan = s.vlan := by cases kind <;> rfl
@[simp] theorem setOutcome_profile (kind : FinishKind) (s : State) : (setOutcome kind s).profile = s.profile := by cases kind <;> rfl
@[simp] theorem setOutcome_psize (kind : FinishKind) (s : State) : (setOutcome kind s).psize = s.psize := by cases kind <;> rfl
@[simp] theorem setOutcome_tccnt (kind : FinishKind) (s : State) : (setOutcome kind s).tccnt = s.tccnt := by cases kind <;> rfl
@[simp] theorem setOutcome_tclist (kind : FinishKind) (s : State) : (setOutcome kind s).tclist = s.tclist := by cases kind <;> rfl
@[simp] theorem setOutcome_pps (kind : FinishKind) (s : State) : (setOutcome kind s).pps = s.pps := by cases kind <;> rfl
@[simp] theorem setOutcome_duration (kind : FinishKind) (s : State) : (setOutcome kind s).duration = s.duration := by cases kind <;> rfl
@[simp] theorem setOutcome_wDst (kind : FinishKind) (s : State) : (setOutcome kind s).wDst = s.wDst := by cases kind <;> rfl
@[simp] theorem setOutcome_wSrc (kind : FinishKind) (s : State) : (setOutcome kind s).wSrc = s.wSrc := by cases kind <;> rfl
@[simp] theorem setOutcome_wVlan (kind : FinishKind) (s : State) : (setOutcome kind s).wVlan = s.wVlan := by cases kind <;> rfl
@[simp] theorem setOutcome_wProf (kind : FinishKind) (s : State) : (setOutcome kind s).wProf = s.wProf := by cases kind <;> rfl
@[simp] theorem setOutcome_wPps (kind : FinishKind) (s : State) : (setOutcome kind s).wPps = s.wPps := by cases kind <;> rfl
@[simp] theorem setOutcome_wDur (kind : FinishKind) (s : State) : (setOutcome kind s).wDur = s.wDur := by cases kind <;> rfl
@[simp] theorem setOutcome_state (kind : FinishKind) (s : State) : (setOutcome kind s).state = s.state := by cases kind <;> rfl
@[simp] theorem setOutcome_phase (kind : FinishKind) (s : State) : (setOutcome kind s).phase = s.phase := by cases kind <;> rfl
@[simp] theorem setOutcome_k (kind : FinishKind) (s : State) : (setOutcome kind s).k = s.k := by cases kind <;> rfl
@[simp] theorem setOutcome_now (kind : FinishKind) (s : State) : (setOutcome kind s).now = s.now := by cases kind <;> rfl
@[simp] theorem setOutcome_startT (kind : FinishKind) (s : State) : (setOutcome kind s).startT = s.startT := by cases kind <;> rfl
@[simp] theorem setOutcome_sN (kind : FinishKind) (s : State) : (setOutcome kind s).sN = s.sN := by cases kind <;> rfl
@[simp] theorem setOutcome_sOrder (kind : FinishKind) (s : State) : (setOutcome kind s).sOrder = s.sOrder := by cases kind <;> rfl
@[simp] theorem setOutcome_sPps (kind : FinishKind) (s : State) : (setOutcome kind s).sPps = s.sPps := by cases kind <;> rfl
@[simp] theorem setOutcome_sDur (kind : FinishKind) (s : State) : (setOutcome kind s).sDur = s.sDur := by cases kind <;> rfl
@[simp] theorem setOutcome_sPsize (kind : FinishKind) (s : State) : (setOutcome kind s).sPsize = s.sPsize := by cases kind <;> rfl
@[simp] theorem setOutcome_sProf (kind : FinishKind) (s : State) : (setOutcome kind s).sProf = s.sProf := by cases kind <;> rfl
@[simp] theorem setOutcome_sVlan (kind : FinishKind) (s : State) : (setOutcome kind s).sVlan = s.sVlan := by cases kind <;> rfl
@[simp] theorem setOutcome_hopen (kind : FinishKind) (s : State) : (setOutcome kind s).hopen = s.hopen := by cases kind <;> rfl
@[simp] theorem setOutcome_total (kind : FinishKind) (s : State) : (setOutcome kind s).total = s.total := by cases kind <;> rfl
@[simp] theorem setOutcome_cnt (kind : FinishKind) (s : State) : (setOutcome kind s).cnt = s.cnt := by cases kind <;> rfl
@[simp] theorem setOutcome_elapsed (kind : FinishKind) (s : State) : (setOutcome kind s).elapsed = s.elapsed := by cases kind <;> rfl
@[simp] theorem setOutcome_success (kind : FinishKind) (s : State) : (setOutcome kind s).success = decide (kind ≠ .fatal) := by cases kind <;> rfl
@[simp] theorem setOutcome_err (kind : FinishKind) (s : State) : (setOutcome kind s).err = (if kind = .fatal then 4 else 0) := by cases kind <;> rfl
@[simp] theorem setOutcome_svalid (kind : FinishKind) (s : State) : (setOutcome kind s).svalid = s.svalid := by cases kind <;> rfl
@[simp] theorem setOutcome_stopped (kind : FinishKind) (s : State) : (setOutcome kind s).stopped = decide (kind = .stopped) := by cases kind <;> rfl
@[simp] theorem setOutcome_trunc (kind : FinishKind) (s : State) : (setOutcome kind s).trunc = s.trunc := by cases kind <;> rfl
@[simp] theorem setOutcome_cmderr (kind : FinishKind) (s : State) : (setOutcome kind s).cmderr = s.cmderr := by cases kind <;> rfl
@[simp] theorem setOutcome_lastrej (kind : FinishKind) (s : State) : (setOutcome kind s).lastrej = s.lastrej := by cases kind <;> rfl
@[simp] theorem setOutcome_fvalid (kind : FinishKind) (s : State) : (setOutcome kind s).fvalid = s.fvalid := by cases kind <;> rfl
@[simp] theorem setOutcome_flen (kind : FinishKind) (s : State) : (setOutcome kind s).flen = s.flen := by cases kind <;> rfl
@[simp] theorem setOutcome_fs (kind : FinishKind) (s : State) : (setOutcome kind s).fs = s.fs := by cases kind <;> rfl
@[simp] theorem setOutcome_txlog (kind : FinishKind) (s : State) : (setOutcome kind s).txlog = s.txlog := by cases kind <;> rfl
@[simp] theorem setOutcome_par (kind : FinishKind) (s : State) : (setOutcome kind s).par = s.par := by cases kind <;> rfl
@[simp] theorem setOutcome_resp (kind : FinishKind) (s : State) : (setOutcome kind s).resp = s.resp := by cases kind <;> rfl
@[simp] theorem setOutcome_hostq (kind : FinishKind) (s : State) : (setOutcome kind s).hostq = s.hostq := by cases kind <;> rfl
@[simp] theorem setOutcome_hostOut (kind : FinishKind) (s : State) : (setOutcome kind s).hostOut = s.hostOut := by cases kind <;> rfl
@[simp] theorem setOutcome_openQ (kind : FinishKind) (s : State) : (setOutcome kind s).openQ = s.openQ := by cases kind <;> rfl
@[simp] theorem setOutcome_sendQ (kind : FinishKind) (s : State) : (setOutcome kind s).sendQ = s.sendQ := by cases kind <;> rfl
@[simp] theorem setOutcome_draws (kind : FinishKind) (s : State) : (setOutcome kind s).draws = s.draws := by cases kind <;> rfl

/-! ### finish -/

@[simp] theorem finish_dst (kind : FinishKind) (s : State) : (finish kind s).dst = s.dst := by cases kind <;> rfl
@[simp] theorem finish_src (kind : FinishKind) (s : State) : (finish kind s).src = s.src := by cases kind <;> rfl
@[simp] theorem finish_vlan (kind : FinishKind) (s : State) : (finish kind s).vlan = s.vlan := by cases kind <;> rfl
@[simp] theorem finish_profile (kind : FinishKind) (s : State) : (finish kind s).profile = s.profile := by cases kind <;> rfl
@[simp] theorem finish_psize (kind : FinishKind) (s : State) : (finish kind s).psize = s.psize := by cases kind <;> rfl
@[simp] theorem finish_tccnt (kind : FinishKind) (s : State) : (finish kind s).tccnt = s.tccnt := by cases kind <;> rfl
@[simp] theorem finish_tclist (kind : FinishKind) (s : State) : (finish kind s).tclist = s.tclist := by cases kind <;> rfl
@[simp] theorem finish_pps (kind : FinishKind) (s : State) : (finish kind s).pps = s.pps := by cases kind <;> rfl
@[simp] theorem finish_duration (kind : FinishKind) (s : State) : (finish kind s).duration = s.duration := by cases kind <;> rfl
@[simp] theorem finish_wDst (kind : FinishKind) (s : State) : (finish kind s).wDst = s.wDst := by cases kind <;> rfl
@[simp] theorem finish_wSrc (kind : FinishKind) (s : State) : (finish kind s).wSrc = s.wSrc := by cases kind <;> rfl
@[simp] theorem finish_wVlan (kind : FinishKind) (s : State) : (finish kind s).wVlan = s.wVlan := by cases kind <;> rfl
@[simp] theorem finish_wProf (kind : FinishKind) (s : State) : (finish kind s).wProf = s.wProf := by cases kind <;> rfl
@[simp] theorem finish_wPps (kind : FinishKind) (s : State) : (finish kind s).wPps = s.wPps := by cases kind <;> rfl
@[simp] theorem finish_wDur (kind : FinishKind) (s : State) : (finish kind s).wDur = s.wDur := by cases kind <;> rfl
@[simp] theorem finish_state (kind : FinishKind) (s : State) : (finish kind s).state = .done := by cases kind <;> rfl
@[simp] theorem finish_phase (kind : FinishKind) (s : State) : (finish kind s).phase = .top := by cases kind <;> rfl
@[simp] theorem finish_k (kind : FinishKind) (s : State) : (finish kind s).k = s.k := by cases kind <;> rfl
@[simp] theorem finish_now (kind : FinishKind) (s : State) : (finish kind s).now = s.now := by cases kind <;> rfl
@[simp] theorem finish_startT (kind : FinishKind) (s : State) : (finish kind s).startT = s.startT := by cases kind <;> rfl
@[simp] theorem finish_sN (kind : FinishKind) (s : State) : (finish kind s).sN = s.sN := by cases kind <;> rfl
@[simp] theorem finish_sOrder (kind : FinishKind) (s : State) : (finish kind s).sOrder = s.sOrder := by cases kind <;> rfl
@[simp] theorem finish_sPps (kind : FinishKind) (s : State) : (finish kind s).sPps = s.sPps := by cases kind <;> rfl
@[simp] theorem finish_sDur (kind : FinishKind) (s : State) : (finish kind s).sDur = s.sDur := by cases kind <;> rfl
@[simp] theorem finish_sPsize (kind : FinishKind) (s : State) : (finish kind s).sPsize = s.sPsize := by cases kind <;> rfl
@[simp] theorem finish_sProf (kind : FinishKind) (s : State) : (finish kind s).sProf = s.sProf := by cases kind <;> rfl
@[simp] theorem finish_sVlan (kind : FinishKind) (s : State) : (finish kind s).sVlan = s.sVlan := by cases kind <;> rfl
@[simp] theorem finish_hopen (kind : FinishKind) (s : State) : (finish kind s).hopen = false := by cases kind <;> rfl
@[simp] theorem finish_total (kind : FinishKind) (s : State) : (finish kind s).total = s.total := by cases kind <;> rfl
@[simp] theorem finish_cnt (kind : FinishKind) (s : State) : (finish kind s).cnt = s.cnt := by cases kind <;> rfl
@[simp] theorem finish_elapsed (kind : FinishKind) (s : State) : (finish kind s).elapsed = BitVec.ofNat 64 (sinceStart s) := by cases kind <;> rfl
@[simp] theorem finish_success (kind : FinishKind) (s : State) : (finish kind s).success = decide (kind ≠ .fatal) := by cases kind <;> rfl
@[simp] theorem finish_err (kind : FinishKind) (s : State) : (finish kind s).err = (if kind = .fatal then 4 else 0) := by cases kind <;> rfl
@[simp] theorem finish_svalid (kind : FinishKind) (s : State) : (finish kind s).svalid = s.svalid := by cases kind <;> rfl
@[simp] theorem finish_stopped (kind : FinishKind) (s : State) : (finish kind s).stopped = decide (kind = .stopped) := by cases kind <;> rfl
@[simp] theorem finish_trunc (kind : FinishKind) (s : State) : (finish kind s).trunc = s.trunc := by cases kind <;> rfl
@[simp] theorem finish_cmderr (kind : FinishKind) (s : State) : (finish kind s).cmderr = s.cmderr := by cases kind <;> rfl
@[simp] theorem finish_lastrej (kind : FinishKind) (s : State) : (finish kind s).lastrej = s.lastrej := by cases kind <;> rfl
@[simp] theorem finish_fvalid (kind : FinishKind) (s : State) : (finish kind s).fvalid = s.fvalid := by cases kind <;> rfl
@[simp] theorem finish_flen (kind : FinishKind) (s : State) : (finish kind s).flen = s.flen := by cases kind <;> rfl
@[simp] theorem finish_fs (kind : FinishKind) (s : State) : (finish kind s).fs = s.fs := by cases kind <;> rfl
@[simp] theorem finish_txlog (kind : FinishKind) (s : State) : (finish kind s).txlog = s.txlog ++ [.closed] := by cases kind <;> rfl
@[simp] theorem finish_par (kind : FinishKind) (s : State) : (finish kind s).par = s.par := by cases kind <;> rfl
@[simp] theorem finish_resp (kind : FinishKind) (s : State) : (finish kind s).resp = s.resp := by cases kind <;> rfl
@[simp] theorem finish_hostq (kind : FinishKind) (s : State) : (finish kind s).hostq = s.hostq := by cases kind <;> rfl
@[simp] theorem finish_hostOut (kind : FinishKind) (s : State) : (finish kind s).hostOut = s.hostOut := by cases kind <;> rfl
@[simp] theorem finish_openQ (kind : FinishKind) (s : State) : (finish kind s).openQ = s.openQ := by cases kind <;> rfl
@[simp] theorem finish_sendQ (kind : FinishKind) (s : State) : (finish kind s).sendQ = s.sendQ := by cases kind <;> rfl
@[simp] theorem finish_draws (kind : FinishKind) (s : State) : (finish kind s).draws = s.draws := by cases kind <;> rfl

/-! ### clearResult -/

@[simp] theorem clearResult_dst (s : State) : (clearResult s).dst = s.dst := rfl
@[simp] theorem clearResult_src (s : State) : (clearResult s).src = s.src := rfl
@[simp] theorem clearResult_vlan (s : State) : (clearResult s).vlan = s.vlan := rfl
@[simp] theorem clearResult_profile (s : State) : (clearResult s).profile = s.profile := rfl
@[simp] theorem clearResult_psize (s : State) : (clearResult s).psize = s.psize := rfl
@[simp] theorem clearResult_tccnt (s : State) : (clearResult s).tccnt = s.tccnt := rfl
@[simp] theorem clearResult_tclist (s : State) : (clearResult s).tclist = s.tclist := rfl
@[simp] theorem clearResult_pps (s : State) : (clearResult s).pps = s.pps := rfl
@[simp] theorem clearResult_duration (s : State) : (clearResult s).duration = s.duration := rfl
@[simp] theorem clearResult_wDst (s : State) : (clearResult s).wDst = s.wDst := rfl
@[simp] theorem clearResult_wSrc (s : State) : (clearResult s).wSrc = s.wSrc := rfl
@[simp] theorem clearResult_wVlan (s : State) : (clearResult s).wVlan = s.wVlan := rfl
@[simp] theorem clearResult_wProf (s : State) : (clearResult s).wProf = s.wProf := rfl
@[simp] theorem clearResult_wPps (s : State) : (clearResult s).wPps = s.wPps := rfl
@[simp] theorem clearResult_wDur (s : State) : (clearResult s).wDur = s.wDur := rfl
@[simp] theorem clearResult_state (s : State) : (clearResult s).state = s.state := rfl
@[simp] theorem clearResult_phase (s : State) : (clearResult s).phase = s.phase := rfl
@[simp] theorem clearResult_k (s : State) : (clearResult s).k = 0 := rfl
@[simp] theorem clearResult_now (s : State) : (clearResult s).now = s.now := rfl
@[simp] theorem clearResult_startT (s : State) : (clearResult s).startT = s.now := rfl
@[simp] theorem clearResult_sN (s : State) : (clearResult s).sN = s.tccnt := rfl
@[simp] theorem clearResult_sOrder (s : State) : (clearResult s).sOrder = s.tclist := rfl
@[simp] theorem clearResult_sPps (s : State) : (clearResult s).sPps = s.pps := rfl
@[simp] theorem clearResult_sDur (s : State) : (clearResult s).sDur = s.duration := rfl
@[simp] theorem clearResult_sPsize (s : State) : (clearResult s).sPsize = s.psize := rfl
@[simp] theorem clearResult_sProf (s : State) : (clearResult s).sProf = s.profile := rfl
@[simp] theorem clearResult_sVlan (s : State) : (clearResult s).sVlan = s.vlan := rfl
@[simp] theorem clearResult_hopen (s : State) : (clearResult s).hopen = s.hopen := rfl
@[simp] theorem clearResult_total (s : State) : (clearResult s).total = 0 := rfl
@[simp] theorem clearResult_cnt (s : State) : (clearResult s).cnt = Vector.replicate 8 0 := rfl
@[simp] theorem clearResult_elapsed (s : State) : (clearResult s).elapsed = 0 := rfl
@[simp] theorem clearResult_success (s : State) : (clearResult s).success = false := rfl
@[simp] theorem clearResult_err (s : State) : (clearResult s).err = 0 := rfl
@[simp] theorem clearResult_svalid (s : State) : (clearResult s).svalid = false := rfl
@[simp] theorem clearResult_stopped (s : State) : (clearResult s).stopped = false := rfl
@[simp] theorem clearResult_trunc (s : State) : (clearResult s).trunc = s.trunc := rfl
@[simp] theorem clearResult_cmderr (s : State) : (clearResult s).cmderr = s.cmderr := rfl
@[simp] theorem clearResult_lastrej (s : State) : (clearResult s).lastrej = s.lastrej := rfl
@[simp] theorem clearResult_fvalid (s : State) : (clearResult s).fvalid = s.fvalid := rfl
@[simp] theorem clearResult_flen (s : State) : (clearResult s).flen = s.flen := rfl
@[simp] theorem clearResult_fs (s : State) : (clearResult s).fs = s.fs := rfl
@[simp] theorem clearResult_txlog (s : State) : (clearResult s).txlog = s.txlog := rfl
@[simp] theorem clearResult_par (s : State) : (clearResult s).par = s.par := rfl
@[simp] theorem clearResult_resp (s : State) : (clearResult s).resp = s.resp := rfl
@[simp] theorem clearResult_hostq (s : State) : (clearResult s).hostq = s.hostq := rfl
@[simp] theorem clearResult_hostOut (s : State) : (clearResult s).hostOut = s.hostOut := rfl
@[simp] theorem clearResult_openQ (s : State) : (clearResult s).openQ = s.openQ := rfl
@[simp] theorem clearResult_sendQ (s : State) : (clearResult s).sendQ = s.sendQ := rfl
@[simp] theorem clearResult_draws (s : State) : (clearResult s).draws = s.draws := rfl

/-! ### countSuccess -/

@[simp] theorem countSuccess_dst (c : Pcp) (s : State) : (countSuccess c s).dst = s.dst := rfl
@[simp] theorem countSuccess_src (c : Pcp) (s : State) : (countSuccess c s).src = s.src := rfl
@[simp] theorem countSuccess_vlan (c : Pcp) (s : State) : (countSuccess c s).vlan = s.vlan := rfl
@[simp] theorem countSuccess_profile (c : Pcp) (s : State) : (countSuccess c s).profile = s.profile := rfl
@[simp] theorem countSuccess_psize (c : Pcp) (s : State) : (countSuccess c s).psize = s.psize := rfl
@[simp] theorem countSuccess_tccnt (c : Pcp) (s : State) : (countSuccess c s).tccnt = s.tccnt := rfl
@[simp] theorem countSuccess_tclist (c : Pcp) (s : State) : (countSuccess c s).tclist = s.tclist := rfl
@[simp] theorem countSuccess_pps (c : Pcp) (s : State) : (countSuccess c s).pps = s.pps := rfl
@[simp] theorem countSuccess_duration (c : Pcp) (s : State) : (countSuccess c s).duration = s.duration := rfl
@[simp] theorem countSuccess_wDst (c : Pcp) (s : State) : (countSuccess c s).wDst = s.wDst := rfl
@[simp] theorem countSuccess_wSrc (c : Pcp) (s : State) : (countSuccess c s).wSrc = s.wSrc := rfl
@[simp] theorem countSuccess_wVlan (c : Pcp) (s : State) : (countSuccess c s).wVlan = s.wVlan := rfl
@[simp] theorem countSuccess_wProf (c : Pcp) (s : State) : (countSuccess c s).wProf = s.wProf := rfl
@[simp] theorem countSuccess_wPps (c : Pcp) (s : State) : (countSuccess c s).wPps = s.wPps := rfl
@[simp] theorem countSuccess_wDur (c : Pcp) (s : State) : (countSuccess c s).wDur = s.wDur := rfl
@[simp] theorem countSuccess_state (c : Pcp) (s : State) : (countSuccess c s).state = s.state := rfl
@[simp] theorem countSuccess_phase (c : Pcp) (s : State) : (countSuccess c s).phase = s.phase := rfl
@[simp] theorem countSuccess_k (c : Pcp) (s : State) : (countSuccess c s).k = s.k := rfl
@[simp] theorem countSuccess_now (c : Pcp) (s : State) : (countSuccess c s).now = s.now := rfl
@[simp] theorem countSuccess_startT (c : Pcp) (s : State) : (countSuccess c s).startT = s.startT := rfl
@[simp] theorem countSuccess_sN (c : Pcp) (s : State) : (countSuccess c s).sN = s.sN := rfl
@[simp] theorem countSuccess_sOrder (c : Pcp) (s : State) : (countSuccess c s).sOrder = s.sOrder := rfl
@[simp] theorem countSuccess_sPps (c : Pcp) (s : State) : (countSuccess c s).sPps = s.sPps := rfl
@[simp] theorem countSuccess_sDur (c : Pcp) (s : State) : (countSuccess c s).sDur = s.sDur := rfl
@[simp] theorem countSuccess_sPsize (c : Pcp) (s : State) : (countSuccess c s).sPsize = s.sPsize := rfl
@[simp] theorem countSuccess_sProf (c : Pcp) (s : State) : (countSuccess c s).sProf = s.sProf := rfl
@[simp] theorem countSuccess_sVlan (c : Pcp) (s : State) : (countSuccess c s).sVlan = s.sVlan := rfl
@[simp] theorem countSuccess_hopen (c : Pcp) (s : State) : (countSuccess c s).hopen = s.hopen := rfl
@[simp] theorem countSuccess_total (c : Pcp) (s : State) : (countSuccess c s).total = s.total + 1 := rfl
@[simp] theorem countSuccess_cnt (c : Pcp) (s : State) : (countSuccess c s).cnt = set8 s.cnt c (at8 s.cnt c + 1) := rfl
@[simp] theorem countSuccess_elapsed (c : Pcp) (s : State) : (countSuccess c s).elapsed = s.elapsed := rfl
@[simp] theorem countSuccess_success (c : Pcp) (s : State) : (countSuccess c s).success = s.success := rfl
@[simp] theorem countSuccess_err (c : Pcp) (s : State) : (countSuccess c s).err = s.err := rfl
@[simp] theorem countSuccess_svalid (c : Pcp) (s : State) : (countSuccess c s).svalid = s.svalid := rfl
@[simp] theorem countSuccess_stopped (c : Pcp) (s : State) : (countSuccess c s).stopped = s.stopped := rfl
@[simp] theorem countSuccess_trunc (c : Pcp) (s : State) : (countSuccess c s).trunc = s.trunc := rfl
@[simp] theorem countSuccess_cmderr (c : Pcp) (s : State) : (countSuccess c s).cmderr = s.cmderr := rfl
@[simp] theorem countSuccess_lastrej (c : Pcp) (s : State) : (countSuccess c s).lastrej = s.lastrej := rfl
@[simp] theorem countSuccess_fvalid (c : Pcp) (s : State) : (countSuccess c s).fvalid = s.fvalid := rfl
@[simp] theorem countSuccess_flen (c : Pcp) (s : State) : (countSuccess c s).flen = s.flen := rfl
@[simp] theorem countSuccess_fs (c : Pcp) (s : State) : (countSuccess c s).fs = s.fs := rfl
@[simp] theorem countSuccess_txlog (c : Pcp) (s : State) : (countSuccess c s).txlog = s.txlog := rfl
@[simp] theorem countSuccess_par (c : Pcp) (s : State) : (countSuccess c s).par = s.par := rfl
@[simp] theorem countSuccess_resp (c : Pcp) (s : State) : (countSuccess c s).resp = s.resp := rfl
@[simp] theorem countSuccess_hostq (c : Pcp) (s : State) : (countSuccess c s).hostq = s.hostq := rfl
@[simp] theorem countSuccess_hostOut (c : Pcp) (s : State) : (countSuccess c s).hostOut = s.hostOut := rfl
@[simp] theorem countSuccess_openQ (c : Pcp) (s : State) : (countSuccess c s).openQ = s.openQ := rfl
@[simp] theorem countSuccess_sendQ (c : Pcp) (s : State) : (countSuccess c s).sendQ = s.sendQ := rfl
@[simp] theorem countSuccess_draws (c : Pcp) (s : State) : (countSuccess c s).draws = s.draws := rfl

/-! ### advanceIndex -/

@[simp] theorem advanceIndex_dst (s : State) : (advanceIndex s).dst = s.dst := rfl
@[simp] theorem advanceIndex_src (s : State) : (advanceIndex s).src = s.src := rfl
@[simp] theorem advanceIndex_vlan (s : State) : (advanceIndex s).vlan = s.vlan := rfl
@[simp] theorem advanceIndex_profile (s : State) : (advanceIndex s).profile = s.profile := rfl
@[simp] theorem advanceIndex_psize (s : State) : (advanceIndex s).psize = s.psize := rfl
@[simp] theorem advanceIndex_tccnt (s : State) : (advanceIndex s).tccnt = s.tccnt := rfl
@[simp] theorem advanceIndex_tclist (s : State) : (advanceIndex s).tclist = s.tclist := rfl
@[simp] theorem advanceIndex_pps (s : State) : (advanceIndex s).pps = s.pps := rfl
@[simp] theorem advanceIndex_duration (s : State) : (advanceIndex s).duration = s.duration := rfl
@[simp] theorem advanceIndex_wDst (s : State) : (advanceIndex s).wDst = s.wDst := rfl
@[simp] theorem advanceIndex_wSrc (s : State) : (advanceIndex s).wSrc = s.wSrc := rfl
@[simp] theorem advanceIndex_wVlan (s : State) : (advanceIndex s).wVlan = s.wVlan := rfl
@[simp] theorem advanceIndex_wProf (s : State) : (advanceIndex s).wProf = s.wProf := rfl
@[simp] theorem advanceIndex_wPps (s : State) : (advanceIndex s).wPps = s.wPps := rfl
@[simp] theorem advanceIndex_wDur (s : State) : (advanceIndex s).wDur = s.wDur := rfl
@[simp] theorem advanceIndex_state (s : State) : (advanceIndex s).state = .run := rfl
@[simp] theorem advanceIndex_phase (s : State) : (advanceIndex s).phase = .top := rfl
@[simp] theorem advanceIndex_k (s : State) : (advanceIndex s).k = s.k + 1 := rfl
@[simp] theorem advanceIndex_now (s : State) : (advanceIndex s).now = s.now := rfl
@[simp] theorem advanceIndex_startT (s : State) : (advanceIndex s).startT = s.startT := rfl
@[simp] theorem advanceIndex_sN (s : State) : (advanceIndex s).sN = s.sN := rfl
@[simp] theorem advanceIndex_sOrder (s : State) : (advanceIndex s).sOrder = s.sOrder := rfl
@[simp] theorem advanceIndex_sPps (s : State) : (advanceIndex s).sPps = s.sPps := rfl
@[simp] theorem advanceIndex_sDur (s : State) : (advanceIndex s).sDur = s.sDur := rfl
@[simp] theorem advanceIndex_sPsize (s : State) : (advanceIndex s).sPsize = s.sPsize := rfl
@[simp] theorem advanceIndex_sProf (s : State) : (advanceIndex s).sProf = s.sProf := rfl
@[simp] theorem advanceIndex_sVlan (s : State) : (advanceIndex s).sVlan = s.sVlan := rfl
@[simp] theorem advanceIndex_hopen (s : State) : (advanceIndex s).hopen = s.hopen := rfl
@[simp] theorem advanceIndex_total (s : State) : (advanceIndex s).total = s.total := rfl
@[simp] theorem advanceIndex_cnt (s : State) : (advanceIndex s).cnt = s.cnt := rfl
@[simp] theorem advanceIndex_elapsed (s : State) : (advanceIndex s).elapsed = s.elapsed := rfl
@[simp] theorem advanceIndex_success (s : State) : (advanceIndex s).success = s.success := rfl
@[simp] theorem advanceIndex_err (s : State) : (advanceIndex s).err = s.err := rfl
@[simp] theorem advanceIndex_svalid (s : State) : (advanceIndex s).svalid = s.svalid := rfl
@[simp] theorem advanceIndex_stopped (s : State) : (advanceIndex s).stopped = s.stopped := rfl
@[simp] theorem advanceIndex_trunc (s : State) : (advanceIndex s).trunc = s.trunc := rfl
@[simp] theorem advanceIndex_cmderr (s : State) : (advanceIndex s).cmderr = s.cmderr := rfl
@[simp] theorem advanceIndex_lastrej (s : State) : (advanceIndex s).lastrej = s.lastrej := rfl
@[simp] theorem advanceIndex_fvalid (s : State) : (advanceIndex s).fvalid = s.fvalid := rfl
@[simp] theorem advanceIndex_flen (s : State) : (advanceIndex s).flen = s.flen := rfl
@[simp] theorem advanceIndex_fs (s : State) : (advanceIndex s).fs = s.fs := rfl
@[simp] theorem advanceIndex_txlog (s : State) : (advanceIndex s).txlog = s.txlog := rfl
@[simp] theorem advanceIndex_par (s : State) : (advanceIndex s).par = s.par := rfl
@[simp] theorem advanceIndex_resp (s : State) : (advanceIndex s).resp = s.resp := rfl
@[simp] theorem advanceIndex_hostq (s : State) : (advanceIndex s).hostq = s.hostq := rfl
@[simp] theorem advanceIndex_hostOut (s : State) : (advanceIndex s).hostOut = s.hostOut := rfl
@[simp] theorem advanceIndex_openQ (s : State) : (advanceIndex s).openQ = s.openQ := rfl
@[simp] theorem advanceIndex_sendQ (s : State) : (advanceIndex s).sendQ = s.sendQ := rfl
@[simp] theorem advanceIndex_draws (s : State) : (advanceIndex s).draws = s.draws := rfl

/-! ### tick -/

@[simp] theorem tick_dst (s : State) : (tick s).dst = s.dst := rfl
@[simp] theorem tick_src (s : State) : (tick s).src = s.src := rfl
@[simp] theorem tick_vlan (s : State) : (tick s).vlan = s.vlan := rfl
@[simp] theorem tick_profile (s : State) : (tick s).profile = s.profile := rfl
@[simp] theorem tick_psize (s : State) : (tick s).psize = s.psize := rfl
@[simp] theorem tick_tccnt (s : State) : (tick s).tccnt = s.tccnt := rfl
@[simp] theorem tick_tclist (s : State) : (tick s).tclist = s.tclist := rfl
@[simp] theorem tick_pps (s : State) : (tick s).pps = s.pps := rfl
@[simp] theorem tick_duration (s : State) : (tick s).duration = s.duration := rfl
@[simp] theorem tick_wDst (s : State) : (tick s).wDst = s.wDst := rfl
@[simp] theorem tick_wSrc (s : State) : (tick s).wSrc = s.wSrc := rfl
@[simp] theorem tick_wVlan (s : State) : (tick s).wVlan = s.wVlan := rfl
@[simp] theorem tick_wProf (s : State) : (tick s).wProf = s.wProf := rfl
@[simp] theorem tick_wPps (s : State) : (tick s).wPps = s.wPps := rfl
@[simp] theorem tick_wDur (s : State) : (tick s).wDur = s.wDur := rfl
@[simp] theorem tick_state (s : State) : (tick s).state = s.state := rfl
@[simp] theorem tick_phase (s : State) : (tick s).phase = s.phase := rfl
@[simp] theorem tick_k (s : State) : (tick s).k = s.k := rfl
@[simp] theorem tick_now (s : State) : (tick s).now = s.now + 1 := rfl
@[simp] theorem tick_startT (s : State) : (tick s).startT = s.startT := rfl
@[simp] theorem tick_sN (s : State) : (tick s).sN = s.sN := rfl
@[simp] theorem tick_sOrder (s : State) : (tick s).sOrder = s.sOrder := rfl
@[simp] theorem tick_sPps (s : State) : (tick s).sPps = s.sPps := rfl
@[simp] theorem tick_sDur (s : State) : (tick s).sDur = s.sDur := rfl
@[simp] theorem tick_sPsize (s : State) : (tick s).sPsize = s.sPsize := rfl
@[simp] theorem tick_sProf (s : State) : (tick s).sProf = s.sProf := rfl
@[simp] theorem tick_sVlan (s : State) : (tick s).sVlan = s.sVlan := rfl
@[simp] theorem tick_hopen (s : State) : (tick s).hopen = s.hopen := rfl
@[simp] theorem tick_total (s : State) : (tick s).total = s.total := rfl
@[simp] theorem tick_cnt (s : State) : (tick s).cnt = s.cnt := rfl
@[simp] theorem tick_elapsed (s : State) : (tick s).elapsed = s.elapsed := rfl
@[simp] theorem tick_success (s : State) : (tick s).success = s.success := rfl
@[simp] theorem tick_err (s : State) : (tick s).err = s.err := rfl
@[simp] theorem tick_svalid (s : State) : (tick s).svalid = s.svalid := rfl
@[simp] theorem tick_stopped (s : State) : (tick s).stopped = s.stopped := rfl
@[simp] theorem tick_trunc (s : State) : (tick s).trunc = s.trunc := rfl
@[simp] theorem tick_cmderr (s : State) : (tick s).cmderr = s.cmderr := rfl
@[simp] theorem tick_lastrej (s : State) : (tick s).lastrej = s.lastrej := rfl
@[simp] theorem tick_fvalid (s : State) : (tick s).fvalid = s.fvalid := rfl
@[simp] theorem tick_flen (s : State) : (tick s).flen = s.flen := rfl
@[simp] theorem tick_fs (s : State) : (tick s).fs = s.fs := rfl
@[simp] theorem tick_txlog (s : State) : (tick s).txlog = s.txlog := rfl
@[simp] theorem tick_par (s : State) : (tick s).par = s.par := rfl
@[simp] theorem tick_resp (s : State) : (tick s).resp = s.resp := rfl
@[simp] theorem tick_hostq (s : State) : (tick s).hostq = s.hostq := rfl
@[simp] theorem tick_hostOut (s : State) : (tick s).hostOut = s.hostOut := rfl
@[simp] theorem tick_openQ (s : State) : (tick s).openQ = s.openQ := rfl
@[simp] theorem tick_sendQ (s : State) : (tick s).sendQ = s.sendQ := rfl
@[simp] theorem tick_draws (s : State) : (tick s).draws = s.draws := rfl

/-! ### takeReport -/

@[simp] theorem takeReport_dst (s : State) : (takeReport s).dst = s.dst := rfl
@[simp] theorem takeReport_src (s : State) : (takeReport s).src = s.src := rfl
@[simp] theorem takeReport_vlan (s : State) : (takeReport s).vlan = s.vlan := rfl
@[simp] theorem takeReport_profile (s : State) : (takeReport s).profile = s.profile := rfl
@[simp] theorem takeReport_psize (s : State) : (takeReport s).psize = s.psize := rfl
@[simp] theorem takeReport_tccnt (s : State) : (takeReport s).tccnt = s.tccnt := rfl
@[simp] theorem takeReport_tclist (s : State) : (takeReport s).tclist = s.tclist := rfl
@[simp] theorem takeReport_pps (s : State) : (takeReport s).pps = s.pps := rfl
@[simp] theorem takeReport_duration (s : State) : (takeReport s).duration = s.duration := rfl
@[simp] theorem takeReport_wDst (s : State) : (takeReport s).wDst = s.wDst := rfl
@[simp] theorem takeReport_wSrc (s : State) : (takeReport s).wSrc = s.wSrc := rfl
@[simp] theorem takeReport_wVlan (s : State) : (takeReport s).wVlan = s.wVlan := rfl
@[simp] theorem takeReport_wProf (s : State) : (takeReport s).wProf = s.wProf := rfl
@[simp] theorem takeReport_wPps (s : State) : (takeReport s).wPps = s.wPps := rfl
@[simp] theorem takeReport_wDur (s : State) : (takeReport s).wDur = s.wDur := rfl
@[simp] theorem takeReport_state (s : State) : (takeReport s).state = s.state := rfl
@[simp] theorem takeReport_phase (s : State) : (takeReport s).phase = s.phase := rfl
@[simp] theorem takeReport_k (s : State) : (takeReport s).k = s.k := rfl
@[simp] theorem takeReport_now (s : State) : (takeReport s).now = s.now := rfl
@[simp] theorem takeReport_startT (s : State) : (takeReport s).startT = s.startT := rfl
@[simp] theorem takeReport_sN (s : State) : (takeReport s).sN = s.sN := rfl
@[simp] theorem takeReport_sOrder (s : State) : (takeReport s).sOrder = s.sOrder := rfl
@[simp] theorem takeReport_sPps (s : State) : (takeReport s).sPps = s.sPps := rfl
@[simp] theorem takeReport_sDur (s : State) : (takeReport s).sDur = s.sDur := rfl
@[simp] theorem takeReport_sPsize (s : State) : (takeReport s).sPsize = s.sPsize := rfl
@[simp] theorem takeReport_sProf (s : State) : (takeReport s).sProf = s.sProf := rfl
@[simp] theorem takeReport_sVlan (s : State) : (takeReport s).sVlan = s.sVlan := rfl
@[simp] theorem takeReport_hopen (s : State) : (takeReport s).hopen = s.hopen := rfl
@[simp] theorem takeReport_total (s : State) : (takeReport s).total = s.total := rfl
@[simp] theorem takeReport_cnt (s : State) : (takeReport s).cnt = s.cnt := rfl
@[simp] theorem takeReport_elapsed (s : State) : (takeReport s).elapsed = s.elapsed := rfl
@[simp] theorem takeReport_success (s : State) : (takeReport s).success = s.success := rfl
@[simp] theorem takeReport_err (s : State) : (takeReport s).err = s.err := rfl
@[simp] theorem takeReport_svalid (s : State) : (takeReport s).svalid = s.svalid := rfl
@[simp] theorem takeReport_stopped (s : State) : (takeReport s).stopped = s.stopped := rfl
@[simp] theorem takeReport_trunc (s : State) : (takeReport s).trunc = s.trunc := rfl
@[simp] theorem takeReport_cmderr (s : State) : (takeReport s).cmderr = s.cmderr := rfl
@[simp] theorem takeReport_lastrej (s : State) : (takeReport s).lastrej = s.lastrej := rfl
@[simp] theorem takeReport_fvalid (s : State) : (takeReport s).fvalid = s.fvalid := rfl
@[simp] theorem takeReport_flen (s : State) : (takeReport s).flen = s.flen := rfl
@[simp] theorem takeReport_fs (s : State) : (takeReport s).fs = s.fs := rfl
@[simp] theorem takeReport_txlog (s : State) : (takeReport s).txlog = s.txlog := rfl
@[simp] theorem takeReport_par (s : State) : (takeReport s).par = s.par := rfl
@[simp] theorem takeReport_resp (s : State) : (takeReport s).resp = s.resp := rfl
@[simp] theorem takeReport_hostq (s : State) : (takeReport s).hostq = s.hostq := rfl
@[simp] theorem takeReport_hostOut (s : State) : (takeReport s).hostOut = some (.report (reportOf s)) := rfl
@[simp] theorem takeReport_openQ (s : State) : (takeReport s).openQ = s.openQ := rfl
@[simp] theorem takeReport_sendQ (s : State) : (takeReport s).sendQ = s.sendQ := rfl
@[simp] theorem takeReport_draws (s : State) : (takeReport s).draws = s.draws := rfl

/-! ### resetStep -/

@[simp] theorem resetStep_dst (s : State) : (resetStep s).dst = (State.resetWith s.par).dst := rfl
@[simp] theorem resetStep_src (s : State) : (resetStep s).src = (State.resetWith s.par).src := rfl
@[simp] theorem resetStep_vlan (s : State) : (resetStep s).vlan = (State.resetWith s.par).vlan := rfl
@[simp] theorem resetStep_profile (s : State) : (resetStep s).profile = (State.resetWith s.par).profile := rfl
@[simp] theorem resetStep_psize (s : State) : (resetStep s).psize = (State.resetWith s.par).psize := rfl
@[simp] theorem resetStep_tccnt (s : State) : (resetStep s).tccnt = (State.resetWith s.par).tccnt := rfl
@[simp] theorem resetStep_tclist (s : State) : (resetStep s).tclist = (State.resetWith s.par).tclist := rfl
@[simp] theorem resetStep_pps (s : State) : (resetStep s).pps = (State.resetWith s.par).pps := rfl
@[simp] theorem resetStep_duration (s : State) : (resetStep s).duration = (State.resetWith s.par).duration := rfl
@[simp] theorem resetStep_wDst (s : State) : (resetStep s).wDst = (State.resetWith s.par).wDst := rfl
@[simp] theorem resetStep_wSrc (s : State) : (resetStep s).wSrc = (State.resetWith s.par).wSrc := rfl
@[simp] theorem resetStep_wVlan (s : State) : (resetStep s).wVlan = (State.resetWith s.par).wVlan := rfl
@[simp] theorem resetStep_wProf (s : State) : (resetStep s).wProf = (State.resetWith s.par).wProf := rfl
@[simp] theorem resetStep_wPps (s : State) : (resetStep s).wPps = (State.resetWith s.par).wPps := rfl
@[simp] theorem resetStep_wDur (s : State) : (resetStep s).wDur = (State.resetWith s.par).wDur := rfl
@[simp] theorem resetStep_state (s : State) : (resetStep s).state = (State.resetWith s.par).state := rfl
@[simp] theorem resetStep_phase (s : State) : (resetStep s).phase = (State.resetWith s.par).phase := rfl
@[simp] theorem resetStep_k (s : State) : (resetStep s).k = (State.resetWith s.par).k := rfl
@[simp] theorem resetStep_now (s : State) : (resetStep s).now = (State.resetWith s.par).now := rfl
@[simp] theorem resetStep_startT (s : State) : (resetStep s).startT = (State.resetWith s.par).startT := rfl
@[simp] theorem resetStep_sN (s : State) : (resetStep s).sN = (State.resetWith s.par).sN := rfl
@[simp] theorem resetStep_sOrder (s : State) : (resetStep s).sOrder = (State.resetWith s.par).sOrder := rfl
@[simp] theorem resetStep_sPps (s : State) : (resetStep s).sPps = (State.resetWith s.par).sPps := rfl
@[simp] theorem resetStep_sDur (s : State) : (resetStep s).sDur = (State.resetWith s.par).sDur := rfl
@[simp] theorem resetStep_sPsize (s : State) : (resetStep s).sPsize = (State.resetWith s.par).sPsize := rfl
@[simp] theorem resetStep_sProf (s : State) : (resetStep s).sProf = (State.resetWith s.par).sProf := rfl
@[simp] theorem resetStep_sVlan (s : State) : (resetStep s).sVlan = (State.resetWith s.par).sVlan := rfl
@[simp] theorem resetStep_hopen (s : State) : (resetStep s).hopen = (State.resetWith s.par).hopen := rfl
@[simp] theorem resetStep_total (s : State) : (resetStep s).total = (State.resetWith s.par).total := rfl
@[simp] theorem resetStep_cnt (s : State) : (resetStep s).cnt = (State.resetWith s.par).cnt := rfl
@[simp] theorem resetStep_elapsed (s : State) : (resetStep s).elapsed = (State.resetWith s.par).elapsed := rfl
@[simp] theorem resetStep_success (s : State) : (resetStep s).success = (State.resetWith s.par).success := rfl
@[simp] theorem resetStep_err (s : State) : (resetStep s).err = (State.resetWith s.par).err := rfl
@[simp] theorem resetStep_svalid (s : State) : (resetStep s).svalid = (State.resetWith s.par).svalid := rfl
@[simp] theorem resetStep_stopped (s : State) : (resetStep s).stopped = (State.resetWith s.par).stopped := rfl
@[simp] theorem resetStep_trunc (s : State) : (resetStep s).trunc = (State.resetWith s.par).trunc := rfl
@[simp] theorem resetStep_cmderr (s : State) : (resetStep s).cmderr = (State.resetWith s.par).cmderr := rfl
@[simp] theorem resetStep_lastrej (s : State) : (resetStep s).lastrej = (State.resetWith s.par).lastrej := rfl
@[simp] theorem resetStep_fvalid (s : State) : (resetStep s).fvalid = (State.resetWith s.par).fvalid := rfl
@[simp] theorem resetStep_flen (s : State) : (resetStep s).flen = (State.resetWith s.par).flen := rfl
@[simp] theorem resetStep_fs (s : State) : (resetStep s).fs = (State.resetWith s.par).fs := rfl
@[simp] theorem resetStep_txlog (s : State) : (resetStep s).txlog = (State.resetWith s.par).txlog := rfl
@[simp] theorem resetStep_par (s : State) : (resetStep s).par = s.par := rfl
@[simp] theorem resetStep_resp (s : State) : (resetStep s).resp = (State.resetWith s.par).resp := rfl
@[simp] theorem resetStep_hostq (s : State) : (resetStep s).hostq = s.hostq := rfl
@[simp] theorem resetStep_hostOut (s : State) : (resetStep s).hostOut = s.hostOut := rfl
@[simp] theorem resetStep_openQ (s : State) : (resetStep s).openQ = s.openQ := rfl
@[simp] theorem resetStep_sendQ (s : State) : (resetStep s).sendQ = s.sendQ := rfl
@[simp] theorem resetStep_draws (s : State) : (resetStep s).draws = s.draws := rfl

end Sys2Proof.Machine
end

