-- ==== Sys2Proof/Laws/Memory.lean ====
section
/-!
SUPPORT. The eight-entry files and the frame store: a read after a write, a write leaves every other place alone, and every
write keeps the canonical form.
-/

namespace Sys2Proof.Machine

/-! ### Eight-entry files -/

@[simp] theorem at8_set8_same {α : Type} (v : Vector α 8) (c : Pcp) (x : α) : at8 (set8 v c x) c = x := by
  simp [at8, set8]

theorem at8_set8_ne {α : Type} (v : Vector α 8) {c d : Pcp} (x : α) (h : c ≠ d) : at8 (set8 v c x) d = at8 v d := by
  have : c.toNat ≠ d.toNat := fun e => h (BitVec.eq_of_toNat_eq e)
  simp [at8, set8, this]

theorem at8_set8 {α : Type} (v : Vector α 8) (c d : Pcp) (x : α) :
    at8 (set8 v c x) d = if c = d then x else at8 v d := by
  by_cases h : c = d
  · subst h; simp
  · simp [h, at8_set8_ne v x h]

@[simp] theorem at8_replicate {α : Type} (x : α) (c : Pcp) : at8 (Vector.replicate 8 x) c = x := by
  simp [at8]

/-! ### The frame store, one byte -/

theorem Memory.byte_set (m : Memory) (a b : Nat) (v : Byte) :
    (m.set a v).byte b = if b = a then some v else m.byte b := by
  induction m with
  | nil => simp [Memory.set, Memory.byte]
  | cons x rest ih =>
    obtain ⟨c, w⟩ := x
    simp only [Memory.set]
    split
    · simp [Memory.byte]
    · split
      · subst a
        simp only [Memory.byte]
        split <;> rfl
      · simp only [Memory.byte, ih]
        split
        · split
          · omega
          · rfl
        · rfl

theorem Memory.byte_setBytes (vs : List Byte) (m : Memory) (a b : Nat) :
    (m.setBytes a vs).byte b = if a ≤ b ∧ b < a + vs.length then vs[b - a]? else m.byte b := by
  induction vs generalizing m a with
  | nil =>
    simp [Memory.setBytes]
  | cons v vs ih =>
    simp only [Memory.setBytes, ih, Memory.byte_set, List.length_cons]
    by_cases h1 : b = a
    · subst h1
      simp
    · by_cases h2 : a + 1 ≤ b ∧ b < a + 1 + vs.length
      · have h3 : a ≤ b ∧ b < a + (vs.length + 1) := by omega
        have h4 : b - a = (b - (a + 1)) + 1 := by omega
        simp [h2, h3, h4]
      · have h3 : ¬(a ≤ b ∧ b < a + (vs.length + 1)) := by omega
        rw [if_neg h2, if_neg h3, if_neg h1]

/-! ### The canonical form -/

theorem Memory.set_addr {m : Memory} {a : Nat} {v : Byte} {x : Host.Cell} (h : x ∈ m.set a v) : x.1 = a ∨ x ∈ m := by
  induction m with
  | nil => simp [Memory.set] at h; simp [h]
  | cons y rest ih =>
    obtain ⟨c, w⟩ := y
    simp only [Memory.set] at h
    split at h
    · simp only [List.mem_cons] at h ⊢
      rcases h with rfl | h | h
      · exact .inl rfl
      · exact .inr (.inl h)
      · exact .inr (.inr h)
    · split at h
      · simp only [List.mem_cons] at h ⊢
        rcases h with rfl | h
        · exact .inl rfl
        · exact .inr (.inr h)
      · simp only [List.mem_cons] at h ⊢
        rcases h with h | h
        · exact .inr (.inl h)
        · exact (ih h).imp_right .inr

theorem Memory.set_wf {m : Memory} {a : Nat} {v : Byte} (h : m.wf = true) (ha : a < 16384) : (m.set a v).wf = true := by
  simp only [Memory.wf, Bool.and_eq_true, decide_eq_true_eq, List.all_eq_true] at h ⊢
  refine ⟨?_, fun x hx => ?_⟩
  · have hp := h.1
    clear h
    induction m with
    | nil => simp [Memory.set]
    | cons y rest ih =>
      obtain ⟨c, w⟩ := y
      rw [List.pairwise_cons] at hp
      simp only [Memory.set]
      split
      · rename_i hac
        refine List.pairwise_cons.2 ⟨?_, List.pairwise_cons.2 hp⟩
        intro z hz
        rcases List.mem_cons.1 hz with rfl | hz
        · exact hac
        · exact Nat.lt_trans hac (hp.1 z hz)
      · split
        · subst a
          exact List.pairwise_cons.2 hp
        · refine List.pairwise_cons.2 ⟨fun z hz => ?_, ih hp.2⟩
          rcases Memory.set_addr hz with e | hz
          · simp only [e]; omega
          · exact hp.1 z hz
  · rcases Memory.set_addr hx with e | hx
    · simp [e, ha]
    · simpa using h.2 x hx

theorem Memory.setBytes_wf {vs : List Byte} {m : Memory} {a : Nat} (h : m.wf = true) (ha : a + vs.length ≤ 16384) :
    (m.setBytes a vs).wf = true := by
  induction vs generalizing m a with
  | nil => exact h
  | cons v vs ih =>
    simp only [List.length_cons] at ha
    exact ih (Memory.set_wf h (by omega)) (by omega)

/-! ### Ranges -/

theorem Memory.bytes_congr {m m' : Memory} {a n : Nat} (h : ∀ b, a ≤ b → b < a + n → m.byte b = m'.byte b) :
    m.bytes a n = m'.bytes a n := by
  induction n generalizing a with
  | zero => rfl
  | succ n ih =>
    have hr : m.bytes (a + 1) n = m'.bytes (a + 1) n := ih fun b h1 h2 => h b (by omega) (by omega)
    simp only [Memory.bytes, h a (Nat.le_refl a) (by omega), hr]

theorem Memory.bytes_of_getElem? {m : Memory} {a : Nat} {vs : List Byte}
    (h : ∀ i, i < vs.length → m.byte (a + i) = vs[i]?) : m.bytes a vs.length = some vs := by
  induction vs generalizing a with
  | nil => rfl
  | cons v vs ih =>
    have h0 : m.byte a = some v := by simpa using h 0 (by simp)
    have h1 : m.bytes (a + 1) vs.length = some vs := by
      refine ih fun i hi => ?_
      have := h (i + 1) (by simp; omega)
      simpa [Nat.add_assoc, Nat.add_comm 1] using this
    simp [Memory.bytes, h0, h1]

/-- A range reads as what was written to it. -/
theorem Memory.bytes_setBytes_same (m : Memory) (a : Nat) (vs : List Byte) :
    (m.setBytes a vs).bytes a vs.length = some vs := by
  refine Memory.bytes_of_getElem? fun i hi => ?_
  rw [Memory.byte_setBytes]
  have : a ≤ a + i ∧ a + i < a + vs.length := by omega
  simp [this]

/-- A range that the write does not touch reads as before. -/
theorem Memory.bytes_setBytes_disjoint {m : Memory} {a b n : Nat} {vs : List Byte}
    (h : a + vs.length ≤ b ∨ b + n ≤ a) : (m.setBytes a vs).bytes b n = m.bytes b n := by
  refine Memory.bytes_congr fun x h1 h2 => ?_
  rw [Memory.byte_setBytes]
  have : ¬(a ≤ x ∧ x < a + vs.length) := by omega
  simp [this]

theorem Memory.byte_isSome_of_bytes {m : Memory} {a n : Nat} (h : (m.bytes a n).isSome = true) {i : Nat} (hi : i < n) :
    ∃ v, m.byte (a + i) = some v := by
  induction n generalizing a i with
  | zero => omega
  | succ n ih =>
    simp only [Memory.bytes] at h
    split at h
    · rename_i v vs hv hvs
      cases i with
      | zero => exact ⟨v, hv⟩
      | succ i =>
        have := ih (a := a + 1) (by simp [hvs]) (i := i) (by omega)
        simpa [Nat.add_assoc, Nat.add_comm 1] using this
    · simp at h

theorem Memory.length_of_bytes {m : Memory} {a n : Nat} {vs : List Byte} (h : m.bytes a n = some vs) : vs.length = n := by
  induction n generalizing a vs with
  | zero => simp only [Memory.bytes, Option.some.injEq] at h; simp [← h]
  | succ n ih =>
    simp only [Memory.bytes] at h
    split at h
    · rename_i v ws hv hws
      cases h
      simp [ih hws]
    · simp at h

theorem slotBase_lt (c : Pcp) : slotBase c + 2048 ≤ 16384 := by
  have := c.isLt
  simp only [slotBase]
  omega

theorem slotBase_disjoint {c d : Pcp} (h : c ≠ d) : slotBase c + 2048 ≤ slotBase d ∨ slotBase d + 2048 ≤ slotBase c := by
  have : c.toNat ≠ d.toNat := fun e => h (BitVec.eq_of_toNat_eq e)
  simp only [slotBase]
  omega

/-! ### MemRead -/

theorem memReadable_slot (s : State) (c : Pcp) (o n : Nat) (ho : o < 2048) :
    memReadable s (slotBase c + o) n =
      (decide (slotBase c + o + n ≤ 16384) && (at8 s.fvalid c && decide (o + n ≤ (at8 s.flen c).toNat))) := by
  have h1 : (slotBase c + o) / 2048 = c.toNat := by simp only [slotBase]; omega
  have h2 : (slotBase c + o) % 2048 = o := by simp only [slotBase]; omega
  simp [memReadable, h1, h2]

/-- What MemRead of a whole valid slot does: the frame is handed on, if every byte of it holds a value. -/
theorem memRead_frame {s : State} {c : Pcp} {bs : List Byte} (f : List Byte → Result)
    (hv : at8 s.fvalid c = true) (hb : s.fs.bytes (slotBase c) (at8 s.flen c).toNat = some bs) :
    memRead s (slotBase c) (at8 s.flen c).toNat f = f bs := by
  have h1 := (at8 s.flen c).isLt
  have h2 := slotBase_lt c
  have h := memReadable_slot s c 0 (at8 s.flen c).toNat (by omega)
  have h3 : slotBase c + (at8 s.flen c).toNat ≤ 16384 := by omega
  simp [hv, h3] at h
  simp [memRead, h, hb]

/-- If MemRead answers at all, its continuation does. -/
theorem memRead_next {s t : State} {a n : Nat} {f : List Byte → Result} (h : memRead s a n f = .next t) :
    ∃ bs, memReadable s a n = true ∧ s.fs.bytes a n = some bs ∧ f bs = .next t := by
  unfold memRead at h
  split at h
  · rename_i hr
    split at h
    · rename_i bs hb
      exact ⟨bs, hr, hb, h⟩
    · cases h
  · cases h

end Sys2Proof.Machine
end

