-- ==== Sys2Proof/Laws/Frames.lean ====
section
/-!
SUPPORT. FrameBuilder: the lengths of a frame's parts (30_encoding.md R80 to R86), and how putting frames into slots acts on
the frame cache.
-/

namespace Sys2Proof.Machine

@[simp] theorem be16_length (v : BitVec 16) : (be16 v).length = 2 := rfl
@[simp] theorem be32_length (v : BitVec 32) : (be32 v).length = 4 := rfl
@[simp] theorem be48_length (v : BitVec 48) : (be48 v).length = 6 := rfl
@[simp] theorem payload_length (n : Nat) : (payload n).length = n := by simp [payload]

@[simp] theorem ethHeader_length (dst src : Mac) (vid : Vid) (pcp : Pcp) : (ethHeader dst src vid pcp).length = 18 := by
  simp [ethHeader]

@[simp] theorem ipv4HeaderZero_length (p : Params) (pcp : Pcp) (n : Nat) : (ipv4HeaderZero p pcp n).length = 20 := by
  simp [ipv4HeaderZero]

@[simp] theorem ipv4Header_length (p : Params) (pcp : Pcp) (n : Nat) : (ipv4Header p pcp n).length = 20 := by
  simp [ipv4Header, fillChecksum]

@[simp] theorem udpHeader_length (p : Params) (pcp : Pcp) (n : Nat) : (udpHeader p pcp n).length = 8 := by
  simp [udpHeader]

@[simp] theorem padFrame_length (f : List Byte) : (padFrame f).length = max 60 f.length := by
  simp only [padFrame, List.length_append, List.length_replicate]
  omega

/-- A frame is at least 60 bytes and at most the UDP headers and the payload (R82). -/
theorem frameFor_length_bounds (s : State) (c : Pcp) :
    60 ≤ (frameFor s c).length ∧ (frameFor s c).length ≤ max 60 (46 + s.psize.toNat) := by
  simp only [frameFor, build, padFrame_length, List.length_append, ethHeader_length]
  split <;> simp <;> omega

/-! ### Frames put into slots, one after another -/

@[simp] theorem at8_fvalid_installFrame (c d : Pcp) (f : List Byte) (s : State) :
    at8 (installFrame c f s).fvalid d = if c = d then true else at8 s.fvalid d := by
  simp [at8_set8]

@[simp] theorem at8_flen_installFrame (c d : Pcp) (f : List Byte) (s : State) :
    at8 (installFrame c f s).flen d = if c = d then BitVec.ofNat 11 f.length else at8 s.flen d := by
  simp [at8_set8]

/-- A frame that fits its slot reads back from it; the other slots read as before. -/
theorem bytes_installFrame_same {c : Pcp} {f : List Byte} (s : State) (h : f.length ≤ frameLenMax) :
    (installFrame c f s).fs.bytes (slotBase c) (at8 (installFrame c f s).flen c).toNat = some f := by
  have : (BitVec.ofNat 11 f.length).toNat = f.length := by
    simp only [frameLenMax] at h
    simp only [BitVec.toNat_ofNat]
    omega
  simp [this, Memory.bytes_setBytes_same]

theorem bytes_installFrame_other {c d : Pcp} {f : List Byte} (s : State) (h : f.length ≤ frameLenMax) (hcd : c ≠ d) :
    (installFrame c f s).fs.bytes (slotBase d) (at8 (installFrame c f s).flen d).toNat =
      s.fs.bytes (slotBase d) (at8 s.flen d).toNat := by
  have h1 := (at8 s.flen d).isLt
  have h2 := slotBase_disjoint hcd
  simp only [frameLenMax] at h
  simp only [installFrame_fs, installFrame_flen, at8_set8_ne _ _ hcd]
  exact Memory.bytes_setBytes_disjoint (by omega)

theorem installFrame_wf {c : Pcp} {f : List Byte} {s : State} (h : f.length ≤ frameLenMax) (hw : s.fs.wf = true) :
    (installFrame c f s).fs.wf = true := by
  have := slotBase_lt c
  simp only [frameLenMax] at h
  exact Memory.setBytes_wf hw (by omega)

/-- What a run of installs leaves: everything but the frame cache is as before. -/
theorem installFrames_eq (frame : Pcp → List Byte) (cs : List Pcp) (s : State) :
    installFrames frame cs s =
      { s with
        fs := (installFrames frame cs s).fs
        flen := (installFrames frame cs s).flen
        fvalid := (installFrames frame cs s).fvalid } := by
  induction cs generalizing s with
  | nil => rfl
  | cons c cs ih => rw [installFrames, ih]; rfl

theorem installFrames_wf {frame : Pcp → List Byte} (hl : ∀ c, (frame c).length ≤ frameLenMax) (cs : List Pcp) {s : State}
    (hw : s.fs.wf = true) : (installFrames frame cs s).fs.wf = true := by
  induction cs generalizing s with
  | nil => exact hw
  | cons c cs ih => exact ih (installFrame_wf (hl c) hw)

/-- After the installs a slot is valid exactly when it was, or when its class is among those installed. -/
theorem installFrames_fvalid (frame : Pcp → List Byte) (cs : List Pcp) (s : State) (d : Pcp) :
    at8 (installFrames frame cs s).fvalid d = (decide (d ∈ cs) || at8 s.fvalid d) := by
  induction cs generalizing s with
  | nil => simp [installFrames]
  | cons c cs ih =>
    rw [installFrames, ih, at8_fvalid_installFrame]
    by_cases h : c = d
    · simp [h]
    · have : ¬d = c := fun e => h e.symm
      simp [h, this]

/-- After the installs a slot of an installed class holds that class's frame. -/
theorem installFrames_built {frame : Pcp → List Byte} (hl : ∀ c, (frame c).length ≤ frameLenMax) (cs : List Pcp)
    (s : State) (d : Pcp) :
    (d ∈ cs → (at8 (installFrames frame cs s).flen d).toNat = (frame d).length ∧
      (installFrames frame cs s).fs.bytes (slotBase d) (frame d).length = some (frame d)) ∧
    (d ∉ cs → at8 (installFrames frame cs s).flen d = at8 s.flen d ∧
      (installFrames frame cs s).fs.bytes (slotBase d) (at8 s.flen d).toNat =
        s.fs.bytes (slotBase d) (at8 s.flen d).toNat) := by
  induction cs generalizing s with
  | nil => simp [installFrames]
  | cons c cs ih =>
    obtain ⟨ih1, ih2⟩ := ih (installFrame c (frame c) s)
    have hlen : (BitVec.ofNat 11 (frame c).length).toNat = (frame c).length := by
      have := hl c
      simp only [frameLenMax] at this
      simp only [BitVec.toNat_ofNat]
      omega
    simp only [installFrames]
    by_cases h : c = d
    · subst h
      refine ⟨fun _ => ?_, fun h => absurd (List.mem_cons_self ..) h⟩
      by_cases hm : c ∈ cs
      · exact ih1 hm
      · obtain ⟨h1, h2⟩ := ih2 hm
        have h3 := bytes_installFrame_same (c := c) s (hl c)
        simp only [at8_flen_installFrame, if_true, hlen] at h1 h2 h3
        exact ⟨by rw [h1, hlen], by rw [h2, h3]⟩
    · have hne : ¬d = c := fun e => h e.symm
      refine ⟨fun hm => ih1 (by simpa [hne] using hm), fun hm => ?_⟩
      obtain ⟨h1, h2⟩ := ih2 (fun h' => hm (List.mem_cons_of_mem _ h'))
      have h3 := bytes_installFrame_other (d := d) s (hl c) h
      simp only [at8_flen_installFrame, if_neg h] at h1 h2 h3
      exact ⟨h1, by rw [h2, h3]⟩

/-- A byte outside the installed frames reads as before. -/
theorem installFrames_byte {frame : Pcp → List Byte} (cs : List Pcp) {s : State} {a : Nat}
    (h : ∀ c ∈ cs, a < slotBase c ∨ slotBase c + (frame c).length ≤ a) :
    (installFrames frame cs s).fs.byte a = s.fs.byte a := by
  induction cs generalizing s with
  | nil => rfl
  | cons c cs ih =>
    rw [installFrames, ih (fun d hd => h d (List.mem_cons_of_mem _ hd)), installFrame_fs, Memory.byte_setBytes, if_neg]
    have := h c List.mem_cons_self
    omega

end Sys2Proof.Machine
end

