-- ==== Sys2Proof/Laws/Ops.lean ====
section
/-!
SUPPORT. What each shared operation and each meaning can do, said once: if it answers a next state, then one of the listed
cases holds. Later proofs cite these and never unfold a meaning.
-/

namespace Sys2Proof.Machine

/-! ### Checks -/

theorem unlessBusy_next {s t : State} {f : Result} (h : unlessBusy s f = .next t) :
    (s.state = .run ∧ t = reject .busy s) ∨ (s.state ≠ .run ∧ f = .next t) := by
  unfold unlessBusy at h
  split at h
  · cases h; exact .inl ⟨‹_›, rfl⟩
  · exact .inr ⟨‹_›, h⟩

theorem check_next {ok : Bool} {r : Reason} {s t : State} {f : Result} (h : check ok r s f = .next t) :
    (ok = false ∧ t = reject r s) ∨ (ok = true ∧ f = .next t) := by
  unfold check at h
  split at h
  · exact .inr ⟨‹_›, h⟩
  · rename_i hb
    cases h; exact .inl ⟨by simpa using hb, rfl⟩

theorem unlessBusy_run {s : State} {f : Result} (h : s.state = .run) : unlessBusy s f = .next (reject .busy s) := by
  simp [unlessBusy, h]

theorem unlessBusy_free {s : State} {f : Result} (h : s.state ≠ .run) : unlessBusy s f = f := by
  simp [unlessBusy, h]

theorem check_true {r : Reason} {s : State} {f : Result} : check true r s f = f := rfl

theorem check_false {r : Reason} {s : State} {f : Result} : check false r s f = .next (reject r s) := rfl

/-! ### The configuration commands: rejected, or one record update outside RUN -/

theorem execSetdst_next {mac : Mac} {s t : State} (h : execSetdst mac s = .next t) :
    (∃ r, t = reject r s) ∨ (s.state ≠ .run ∧ t = respond 0 { s with dst := mac, wDst := true }) := by
  obtain ⟨-, rfl⟩ | ⟨hs, h⟩ := unlessBusy_next h
  · exact .inl ⟨_, rfl⟩
  · cases h; exact .inr ⟨hs, rfl⟩

theorem execSetsrc_next {mac : Mac} {s t : State} (h : execSetsrc mac s = .next t) :
    (∃ r, t = reject r s) ∨ (s.state ≠ .run ∧ t = respond 0 { s with src := mac, wSrc := true }) := by
  obtain ⟨-, rfl⟩ | ⟨hs, h⟩ := unlessBusy_next h
  · exact .inl ⟨_, rfl⟩
  · cases h; exact .inr ⟨hs, rfl⟩

theorem execSetvlan_next {hi : BitVec 36} {vid : Vid} {s t : State} (h : execSetvlan hi vid s = .next t) :
    (∃ r, t = reject r s) ∨
      (s.state ≠ .run ∧ t = respond 0 (noteTrunc (hi != 0) { s with vlan := vid, wVlan := true })) := by
  obtain ⟨-, rfl⟩ | ⟨hs, h⟩ := unlessBusy_next h
  · exact .inl ⟨_, rfl⟩
  · cases h; exact .inr ⟨hs, rfl⟩

theorem execSetprof_next {mbz : BitVec 47} {prof : BitVec 1} {s t : State} (h : execSetprof mbz prof s = .next t) :
    (∃ r, t = reject r s) ∨ (s.state ≠ .run ∧ t = respond 0 { s with profile := prof, wProf := true }) := by
  obtain ⟨-, rfl⟩ | ⟨hs, h⟩ := unlessBusy_next h
  · exact .inl ⟨_, rfl⟩
  obtain ⟨-, rfl⟩ | ⟨-, h⟩ := check_next h
  · exact .inl ⟨_, rfl⟩
  · cases h; exact .inr ⟨hs, rfl⟩

theorem execSetpsize_next {mbz : BitVec 32} {n : BitVec 16} {s t : State} (h : execSetpsize mbz n s = .next t) :
    (∃ r, t = reject r s) ∨
      (s.state ≠ .run ∧ n.toNat ≤ s.par.payloadMax.toNat ∧ t = respond 0 { s with psize := n }) := by
  obtain ⟨-, rfl⟩ | ⟨hs, h⟩ := unlessBusy_next h
  · exact .inl ⟨_, rfl⟩
  obtain ⟨-, rfl⟩ | ⟨-, h⟩ := check_next h
  · exact .inl ⟨_, rfl⟩
  obtain ⟨-, rfl⟩ | ⟨hn, h⟩ := check_next h
  · exact .inl ⟨_, rfl⟩
  · cases h; exact .inr ⟨hs, by simpa using hn, rfl⟩

theorem execTcclr_next {mbz : BitVec 48} {s t : State} (h : execTcclr mbz s = .next t) :
    (∃ r, t = reject r s) ∨ (s.state ≠ .run ∧ t = respond 0 { s with tccnt := 0 }) := by
  obtain ⟨-, rfl⟩ | ⟨hs, h⟩ := unlessBusy_next h
  · exact .inl ⟨_, rfl⟩
  obtain ⟨-, rfl⟩ | ⟨-, h⟩ := check_next h
  · exact .inl ⟨_, rfl⟩
  · cases h; exact .inr ⟨hs, rfl⟩

theorem execTcpush_next {hi : BitVec 45} {pcp : Pcp} {s t : State} (h : execTcpush hi pcp s = .next t) :
    (∃ r, t = reject r s) ∨
      (s.state ≠ .run ∧ pcp ∉ classList s ∧ s.tccnt.toNat < 8 ∧
        t = respond 0 (noteTrunc (hi != 0)
          { s with tclist := s.tclist.setIfInBounds s.tccnt.toNat pcp, tccnt := s.tccnt + 1 })) := by
  obtain ⟨-, rfl⟩ | ⟨hs, h⟩ := unlessBusy_next h
  · exact .inl ⟨_, rfl⟩
  obtain ⟨-, rfl⟩ | ⟨hp, h⟩ := check_next h
  · exact .inl ⟨_, rfl⟩
  split at h
  · cases h; exact .inr ⟨hs, by simpa using hp, ‹_›, rfl⟩
  · cases h

theorem execSetpps_next {mbz : BitVec 16} {rate : BitVec 32} {s t : State} (h : execSetpps mbz rate s = .next t) :
    (∃ r, t = reject r s) ∨
      (s.state ≠ .run ∧ rate ≠ 0 ∧ t = respond 0 { s with pps := rate, wPps := true }) := by
  obtain ⟨-, rfl⟩ | ⟨hs, h⟩ := unlessBusy_next h
  · exact .inl ⟨_, rfl⟩
  obtain ⟨-, rfl⟩ | ⟨-, h⟩ := check_next h
  · exact .inl ⟨_, rfl⟩
  obtain ⟨-, rfl⟩ | ⟨hn, h⟩ := check_next h
  · exact .inl ⟨_, rfl⟩
  · cases h; exact .inr ⟨hs, by simpa using hn, rfl⟩

theorem execSetdur_next {mbz : BitVec 16} {d : BitVec 32} {s t : State} (h : execSetdur mbz d s = .next t) :
    (∃ r, t = reject r s) ∨ (s.state ≠ .run ∧ t = respond 0 { s with duration := d, wDur := true }) := by
  obtain ⟨-, rfl⟩ | ⟨hs, h⟩ := unlessBusy_next h
  · exact .inl ⟨_, rfl⟩
  obtain ⟨-, rfl⟩ | ⟨-, h⟩ := check_next h
  · exact .inl ⟨_, rfl⟩
  · cases h; exact .inr ⟨hs, rfl⟩

/-! ### Reads, BUILD, START, STOP -/

theorem execRd_next {mbz : BitVec 40} {reg : BitVec 8} {s t : State} (h : execRd mbz reg s = .next t) :
    (∃ r, t = reject r s) ∨ (∃ n d, regOfNumber reg = some n ∧ readReg s n = .ok d ∧ t = respond d s) := by
  obtain ⟨-, rfl⟩ | ⟨-, h⟩ := check_next h
  · exact .inl ⟨_, rfl⟩
  split at h
  · cases h; exact .inl ⟨_, rfl⟩
  · rename_i n hn
    unfold answerRead at h
    split at h
    · rename_i d hd
      cases h; exact .inr ⟨n, d, hn, hd, rfl⟩
    · cases h; exact .inl ⟨_, rfl⟩

theorem execRdfb_next {mbz : BitVec 34} {slot : Pcp} {off : BitVec 11} {s t : State}
    (h : execRdfb mbz slot off s = .next t) :
    (∃ r, t = reject r s) ∨ (∃ d, t = respond d s) := by
  obtain ⟨-, rfl⟩ | ⟨-, h⟩ := check_next h
  · exact .inl ⟨_, rfl⟩
  obtain ⟨-, rfl⟩ | ⟨-, h⟩ := check_next h
  · exact .inl ⟨_, rfl⟩
  obtain ⟨-, rfl⟩ | ⟨-, h⟩ := check_next h
  · exact .inl ⟨_, rfl⟩
  obtain ⟨bs, -, -, h⟩ := memRead_next h
  cases h; exact .inr ⟨_, rfl⟩

theorem execBuild_next {hi : BitVec 45} {pcp : Pcp} {s t : State} (h : execBuild hi pcp s = .next t) :
    (∃ r, t = reject r s) ∨
      (s.state ≠ .run ∧ cfgFrameOk s = true ∧ (frameFor s pcp).length ≤ frameLenMax ∧
        t = respond (BitVec.ofNat 64 (frameFor s pcp).length)
          (noteTrunc (hi != 0) (installFrame pcp (frameFor s pcp) s))) := by
  obtain ⟨-, rfl⟩ | ⟨hs, h⟩ := unlessBusy_next h
  · exact .inl ⟨_, rfl⟩
  obtain ⟨-, rfl⟩ | ⟨hc, h⟩ := check_next h
  · exact .inl ⟨_, rfl⟩
  split at h
  · cases h; exact .inr ⟨hs, hc, ‹_›, rfl⟩
  · cases h

theorem execStart_next {mbz : BitVec 48} {s t : State} (h : execStart mbz s = .next t) :
    (∃ r, t = reject r s) ∨
      (s.state ≠ .run ∧ cfgRunOk s = true ∧ s.tccnt ≠ 0 ∧ sessionEnd s < 2 ^ 64 ∧
        ((openAnswer s = .fail ∧ t = raise .handleAcquisition (openSink (clearResult s))) ∨
         (openAnswer s = .ok ∧ (∀ c ∈ sessionClasses (clearResult s), (frameFor s c).length ≤ frameLenMax) ∧
            t = enterLoop (openSink (clearResult s))))) := by
  obtain ⟨-, rfl⟩ | ⟨hs, h⟩ := unlessBusy_next h
  · exact .inl ⟨_, rfl⟩
  obtain ⟨-, rfl⟩ | ⟨-, h⟩ := check_next h
  · exact .inl ⟨_, rfl⟩
  obtain ⟨-, rfl⟩ | ⟨hc, h⟩ := check_next h
  · exact .inl ⟨_, rfl⟩
  obtain ⟨-, rfl⟩ | ⟨ht, h⟩ := check_next h
  · exact .inl ⟨_, rfl⟩
  obtain ⟨-, rfl⟩ | ⟨he, h⟩ := check_next h
  · exact .inl ⟨_, rfl⟩
  refine .inr ⟨hs, hc, by simpa using ht, of_decide_eq_true he, ?_⟩
  split at h
  · rename_i ha
    cases h; exact .inl ⟨ha, rfl⟩
  · rename_i ha
    split at h
    · rename_i hall
      cases h; exact .inr ⟨ha, by simpa using hall, rfl⟩
    · cases h

theorem execStop_next {mbz : BitVec 48} {s t : State} (h : execStop mbz s = .next t) :
    (∃ r, t = reject r s) ∨ (s.state = .run ∧ t = respond 0 (finish .stopped s)) ∨
      (s.state ≠ .run ∧ t = respond 0 s) := by
  obtain ⟨-, rfl⟩ | ⟨-, h⟩ := check_next h
  · exact .inl ⟨_, rfl⟩
  · cases h
    by_cases hs : s.state = .run
    · exact .inr (.inl ⟨hs, by simp [hs]⟩)
    · exact .inr (.inr ⟨hs, by simp [hs]⟩)

/-! ### The framer's own steps -/

theorem attempt_next {s t : State} (h : attempt s = .next t) :
    ∃ c f, attemptClass s = some c ∧ at8 s.fvalid c = true ∧
      s.fs.bytes (slotBase c) (at8 s.flen c).toNat = some f ∧
      t = settleAttempt c (sendAnswer s) (sendSink c f s) := by
  unfold attempt at h
  split at h
  · cases h
  · rename_i c hc
    obtain ⟨f, hr, hb, h⟩ := memRead_next h
    cases h
    have := memReadable_slot s c 0 (at8 s.flen c).toNat (by omega)
    rw [Nat.add_zero, hr] at this
    simp only [Eq.comm (a := true), Bool.and_eq_true] at this
    exact ⟨c, f, hc, this.2.1, hb, rfl⟩

/-- What the framer's own agents can do (00_scope.md R7): LoopTop, Attempt, or Tick. -/
theorem advance_next {s t : State} (h : advance s = .next t) :
    (s.state = .run ∧ s.phase = .top ∧ t = loopTop s) ∨
    (s.state = .run ∧ s.phase = .wait ∧ due s s.k.toNat = true ∧ attempt s = .next t) ∨
    (s.state = .run ∧ s.phase = .wait ∧ due s s.k.toNat = false ∧ t = tick s) ∨
    (s.state ≠ .run ∧ t = tick s) := by
  unfold advance at h
  split at h
  · cases h; exact .inl ⟨‹_›, ‹_›, rfl⟩
  · split at h
    · exact .inr (.inl ⟨‹_›, ‹_›, ‹_›, h⟩)
    · rename_i hd
      cases h; exact .inr (.inr (.inl ⟨‹_›, ‹_›, by simpa using hd, rfl⟩))
  · rename_i hs
    cases h; exact .inr (.inr (.inr ⟨by simp [hs], rfl⟩))
  · rename_i hs
    cases h; exact .inr (.inr (.inr ⟨by simp [hs], rfl⟩))

theorem advance_top {s : State} (h : s.state = .run) (hp : s.phase = .top) : advance s = .next (loopTop s) := by
  simp [advance, h, hp]

theorem advance_due {s : State} (h : s.state = .run) (hp : s.phase = .wait) (hd : due s s.k.toNat = true) :
    advance s = attempt s := by
  simp [advance, h, hp, hd]

theorem advance_tick {s : State} (h : ¬(s.state = .run ∧ (s.phase = .top ∨ due s s.k.toNat = true))) :
    advance s = .next (tick s) := by
  unfold advance
  cases hs : s.state <;> cases hp : s.phase <;> simp_all

/-- The attempt of a session that has its classes and frames. -/
theorem attempt_eq {s : State} {c : Pcp} {f : List Byte} (hc : attemptClass s = some c) (hv : at8 s.fvalid c = true)
    (hb : s.fs.bytes (slotBase c) (at8 s.flen c).toNat = some f) :
    attempt s = .next (settleAttempt c (sendAnswer s) (sendSink c f s)) := by
  unfold attempt
  rw [hc]
  exact memRead_frame _ hv hb

/-! ### What passes the checks is answered -/

theorem check_of {ok : Bool} {r : Reason} {s : State} {f : Result} (h : ok = true) : check ok r s f = f := by
  subst h; rfl

theorem check_of_not {ok : Bool} {r : Reason} {s : State} {f : Result} (h : ok = false) :
    check ok r s f = .next (reject r s) := by
  subst h; rfl

theorem execBuild_eq {hi : BitVec 45} {c : Pcp} {s : State} (h : s.state ≠ .run) (hw : cfgFrameOk s = true)
    (hl : (frameFor s c).length ≤ frameLenMax) :
    execBuild hi c s = .next (respond (BitVec.ofNat 64 (frameFor s c).length)
      (noteTrunc (hi != 0) (installFrame c (frameFor s c) s))) := by
  unfold execBuild
  rw [unlessBusy_free h, check_of hw, if_pos hl]

theorem execStart_ok {s : State} (h : s.state ≠ .run) (hw : cfgRunOk s = true) (ht : s.tccnt ≠ 0)
    (he : sessionEnd s < 2 ^ 64) (hl : ∀ c, (frameFor s c).length ≤ frameLenMax) (ho : openAnswer s = .ok) :
    execStart 0 s = .next (enterLoop (openSink (clearResult s))) := by
  unfold execStart
  rw [unlessBusy_free h, check_of (by rfl), check_of hw, check_of (by simpa using ht), check_of (decide_eq_true he), ho]
  simp only
  rw [if_pos]
  rw [List.all_eq_true]
  exact fun c _ => decide_eq_true (hl c)

theorem execStart_fail {s : State} (h : s.state ≠ .run) (hw : cfgRunOk s = true) (ht : s.tccnt ≠ 0)
    (he : sessionEnd s < 2 ^ 64) (ho : openAnswer s = .fail) :
    execStart 0 s = .next (raise .handleAcquisition (openSink (clearResult s))) := by
  unfold execStart
  rw [unlessBusy_free h, check_of (by rfl), check_of hw, check_of (by simpa using ht), check_of (decide_eq_true he), ho]

/-! ### The Host -/

theorem thenDo_next {r : Result} {f : State → State} {t : State} (h : thenDo r f = .next t) :
    ∃ u, r = .next u ∧ t = f u := by
  cases r with
  | next u => cases h; exact ⟨u, rfl, rfl⟩
  | fault e => cases h
  | refused e => cases h

theorem runWord_next {w : Word64} {s t : State} (h : runWord w s = .next t) :
    (∃ r, t = reject r s) ∨ (∃ i, Sys2Proof.decode w = .instr i ∧ exec i s = .next t) := by
  unfold runWord at h
  split at h
  · exact .inr ⟨_, ‹_›, h⟩
  · cases h; exact .inl ⟨_, rfl⟩
  · cases h; exact .inl ⟨_, rfl⟩

theorem runWord_instr {w : Word64} {s : State} {i : Instr} (h : Sys2Proof.decode w = .instr i) : runWord w s = exec i s := by
  unfold runWord; rw [h]

/-- What one act of the Host can do, up to the model's own fields `hostq` and `hostOut` before and after: nothing, a reset,
one command word, or one step of the framer's own agents. -/
theorem hostAct_next {a : HostAct} {s t : State} (h : hostAct a s = .next t) :
    ∃ q q' o' u, t = { u with hostq := q', hostOut := o' } ∧
      (u = { s with hostq := q } ∨ u = resetStep { s with hostq := q } ∨
       (∃ w, runWord w { s with hostq := q } = .next u) ∨ advance { s with hostq := q } = .next u) := by
  cases a with
  | word w => exact ⟨s.hostq, t.hostq, t.hostOut, t, rfl, .inr (.inr (.inl ⟨w, h⟩))⟩
  | pass => exact ⟨s.hostq, t.hostq, t.hostOut, t, rfl, .inr (.inr (.inr h))⟩
  | reset => cases h; exact ⟨s.hostq, s.hostq, s.hostOut, _, rfl, .inr (.inl rfl)⟩
  | program lines =>
    cases lines with
    | nil => cases h; exact ⟨s.hostq, s.hostq, s.hostOut, _, rfl, .inl rfl⟩
    | cons line lines =>
      simp only [hostAct] at h
      split at h
      · rename_i w _
        exact ⟨_, t.hostq, t.hostOut, t, rfl, .inr (.inr (.inl ⟨w, h⟩))⟩
      · cases h; exact ⟨s.hostq, s.hostq, _, _, rfl, .inl rfl⟩
  | txgen udp args =>
    simp only [hostAct] at h
    split at h
    · cases h; exact ⟨s.hostq, _, s.hostOut, _, rfl, .inl rfl⟩
    · cases h; exact ⟨s.hostq, s.hostq, _, _, rfl, .inl rfl⟩
  | invoked w =>
    obtain ⟨u, hu, rfl⟩ := thenDo_next h
    refine ⟨s.hostq, (afterInvoked u).hostq, (afterInvoked u).hostOut, u, ?_, .inr (.inr (.inl ⟨w, hu⟩))⟩
    unfold afterInvoked
    split <;> rfl
  | await =>
    simp only [hostAct] at h
    split at h
    · obtain ⟨u, hu, rfl⟩ := thenDo_next h
      exact ⟨s.hostq, u.hostq, _, u, rfl, .inr (.inr (.inl ⟨_, hu⟩))⟩
    · exact ⟨_, t.hostq, t.hostOut, t, rfl, .inr (.inr (.inr h))⟩

/-- What one step can do, up to `hostq` and `hostOut` (00_scope.md R6). -/
theorem step_next {s t : State} (h : step s = .next t) :
    ∃ q q' o' u, t = { u with hostq := q', hostOut := o' } ∧
      (u = { s with hostq := q } ∨ u = resetStep { s with hostq := q } ∨
       (∃ w, runWord w { s with hostq := q } = .next u) ∨ advance { s with hostq := q } = .next u) := by
  unfold step at h
  split at h
  · exact ⟨s.hostq, t.hostq, t.hostOut, t, rfl, .inr (.inr (.inr h))⟩
  · obtain ⟨q, q', o', u, rfl, hu⟩ := hostAct_next h
    exact ⟨q, q', o', u, rfl, hu⟩

theorem step_cons {s : State} {a : HostAct} {rest : List HostAct} (h : s.hostq = a :: rest) :
    step s = hostAct a { s with hostq := rest } := by
  unfold step; rw [h]

theorem step_nil {s : State} (h : s.hostq = []) : step s = advance s := by
  unfold step; rw [h]

/-- One more step at the front of a run. -/
theorem run_succ {M : Host.Core} {n : Nat} {s t u : M.State} (h : M.step s = .next t)
    (h2 : Host.Core.run M n t = .next u) : Host.Core.run M (n + 1) s = .next u := by
  simp only [Host.Core.run, h, h2]

end Sys2Proof.Machine
end

