-- ==== Sys2Proof/Laws/PerInstr.lean ====
section
/-!
SUPPORT. Statements made for each command of Syntax.lean, one lemma per constructor.
OpcodeField: the word of a command has its opcode in bits 63:56, zero in bits 55:48 and its operand in bits 47:0
(30_encoding.md R100, R102, R103).
-/

namespace Sys2Proof.Laws.OpcodeField

theorem commandWord_fields (op : BitVec 8) (arg : BitVec 48) :
    opField (commandWord op arg) = op ∧ rsvField (commandWord op arg) = 0 ∧ argField (commandWord op arg) = arg := by
  refine ⟨?_, ?_, ?_⟩
  · ext i hi
    simp only [opField, commandWord, BitVec.getElem_extractLsb', BitVec.getLsbD_append]
    have h1 : ¬(56 + i < 48) := by omega
    have h2 : ¬(56 + i - 48 < 8) := by omega
    have h3 : 56 + i - 48 - 8 = i := by omega
    simp [h1, h2, h3, hi]
  · ext i hi
    simp only [rsvField, commandWord, BitVec.getElem_extractLsb', BitVec.getLsbD_append]
    have h1 : ¬(48 + i < 48) := by omega
    have h3 : ¬(8 ≤ i) := by omega
    simp [h1, h3]
  · ext i hi
    simp only [argField, commandWord, BitVec.getElem_extractLsb', BitVec.getLsbD_append]
    simp [hi]

/-- The fields of the word of `i`. -/
def Statement (i : Instr) : Prop :=
  opField (encode i) = i.opcode ∧ rsvField (encode i) = 0 ∧ argField (encode i) = i.operand

theorem setdst (mac : Mac) : Statement (.setdst mac) := commandWord_fields _ _
theorem setsrc (mac : Mac) : Statement (.setsrc mac) := commandWord_fields _ _
theorem setvlan (hi : BitVec 36) (vid : Vid) : Statement (.setvlan hi vid) := commandWord_fields _ _
theorem setprof (mbz : BitVec 47) (prof : BitVec 1) : Statement (.setprof mbz prof) := commandWord_fields _ _
theorem setpsize (mbz : BitVec 32) (n : BitVec 16) : Statement (.setpsize mbz n) := commandWord_fields _ _
theorem tcclr (mbz : BitVec 48) : Statement (.tcclr mbz) := commandWord_fields _ _
theorem tcpush (hi : BitVec 45) (pcp : Pcp) : Statement (.tcpush hi pcp) := commandWord_fields _ _
theorem setpps (mbz : BitVec 16) (rate : BitVec 32) : Statement (.setpps mbz rate) := commandWord_fields _ _
theorem setdur (mbz : BitVec 16) (seconds : BitVec 32) : Statement (.setdur mbz seconds) := commandWord_fields _ _
theorem build (hi : BitVec 45) (pcp : Pcp) : Statement (.build hi pcp) := commandWord_fields _ _
theorem start (mbz : BitVec 48) : Statement (.start mbz) := commandWord_fields _ _
theorem stop (mbz : BitVec 48) : Statement (.stop mbz) := commandWord_fields _ _
theorem rd (mbz : BitVec 40) (reg : BitVec 8) : Statement (.rd mbz reg) := commandWord_fields _ _
theorem rdfb (mbz : BitVec 34) (slot : Pcp) (off : BitVec 11) : Statement (.rdfb mbz slot off) := commandWord_fields _ _

end Sys2Proof.Laws.OpcodeField
end

