-- ==== Sys2Proof/Laws/Safety.lean ====
section
/-!
SUPPORT. Which fields each part of the invariant depends on, and the small facts about the log and the counters that every
proof about a session needs.
-/

namespace Sys2Proof.Machine

/-! ### Each part depends on a few fields only -/

theorem ConfigOk.of_eq {s t : State} (h : ConfigOk s) (e1 : t.par = s.par) (e2 : t.psize = s.psize)
    (e3 : t.wPps = s.wPps) (e4 : t.pps = s.pps) (e5 : t.tccnt = s.tccnt) (e6 : t.tclist = s.tclist) : ConfigOk t := by
  obtain ⟨h1, h2, h3, h4, h5⟩ := h
  simp only [classList] at h5
  exact ⟨by rw [e1]; exact h1, by rw [e1, e2]; exact h2, by rw [e3, e4]; exact h3, by rw [e5]; exact h4,
    by simp only [classList, e5, e6]; exact h5⟩

theorem SessionOk.of_eq {s t : State} (h : SessionOk s) (hr : t.state = .run → s.state = .run) (e1 : t.sN = s.sN)
    (e2 : t.sOrder = s.sOrder) (e3 : t.sPps = s.sPps)
    (e4 : t.sPsize = s.sPsize) (e5 : t.psize = s.psize) (e6 : t.sProf = s.sProf) (e7 : t.profile = s.profile)
    (e8 : t.sVlan = s.sVlan) (e9 : t.vlan = s.vlan) : SessionOk t := by
  obtain ⟨h1, h2, h3, h4, h5⟩ := h
  simp only [sessionClasses] at h2
  exact ⟨by rw [e1]; exact h1, by simp only [sessionClasses, e1, e2]; exact h2, fun e => by rw [e1]; exact h3 (hr e),
    fun e => by rw [e3]; exact h4 (hr e), fun e => by rw [e4, e5, e6, e7, e8, e9]; exact h5 (hr e)⟩

theorem frameFor_of_eq {s t : State} (e1 : t.par = s.par) (e2 : t.dst = s.dst) (e3 : t.src = s.src) (e4 : t.vlan = s.vlan)
    (e5 : t.profile = s.profile) (e6 : t.psize = s.psize) (c : Pcp) : frameFor t c = frameFor s c := by
  simp only [frameFor, e1, e2, e3, e4, e5, e6]

theorem sessionClasses_of_eq {s t : State} (e1 : t.sN = s.sN) (e2 : t.sOrder = s.sOrder) :
    sessionClasses t = sessionClasses s := by
  simp only [sessionClasses, e1, e2]

theorem FramesOk.of_eq {s t : State} (h : FramesOk s) (hr : t.state = .run → s.state = .run) (e1 : t.fs = s.fs)
    (e2 : t.flen = s.flen) (e3 : t.fvalid = s.fvalid) (e4 : t.par = s.par) (e5 : t.sN = s.sN) (e6 : t.sOrder = s.sOrder)
    (e7 : t.dst = s.dst) (e8 : t.src = s.src) (e9 : t.vlan = s.vlan) (e10 : t.profile = s.profile)
    (e11 : t.psize = s.psize) : FramesOk t := by
  obtain ⟨h1, h2, h3, h4⟩ := h
  refine ⟨by rw [e1]; exact h1, by rw [e2, e3, e4]; exact h2, by rw [e1, e2, e3]; exact h3, fun e c hc => ?_⟩
  rw [sessionClasses_of_eq e5 e6] at hc
  rw [e1, e2, e3, frameFor_of_eq e4 e7 e8 e9 e10 e11]
  exact h4 (hr e) c hc

theorem FramesOk.of_eq_stopped {s t : State} (h : FramesOk s) (hr : t.state ≠ .run) (e1 : t.fs = s.fs)
    (e2 : t.flen = s.flen) (e3 : t.fvalid = s.fvalid) (e4 : t.par = s.par) : FramesOk t := by
  obtain ⟨h1, h2, h3, -⟩ := h
  exact ⟨by rw [e1]; exact h1, by rw [e2, e3, e4]; exact h2, by rw [e1, e2, e3]; exact h3, fun e => absurd e hr⟩

theorem CountersOk.of_eq {s t : State} (h : CountersOk s) (e1 : t.total = s.total) (e2 : t.cnt = s.cnt) (e3 : t.k = s.k)
    (e4 : t.sN = s.sN) (e5 : t.sOrder = s.sOrder) (e6 : t.sPps = s.sPps) (e7 : t.sDur = s.sDur) : CountersOk t := by
  obtain ⟨h1, h2, h3, h4⟩ := h
  simp only [countSum, plannedAttempts] at h1 h4
  exact ⟨by simp only [countSum, e1, e2]; exact h1, by rw [sessionClasses_of_eq e4 e5, e2]; exact h2,
    by rw [e1, e3]; exact h3, by simp only [plannedAttempts, e3, e6, e7]; exact h4⟩

theorem RejectOk.of_eq {s t : State} (h : RejectOk s) (e1 : t.lastrej = s.lastrej) (e2 : t.cmderr = s.cmderr) :
    RejectOk t := ⟨by rw [e1]; exact h.code, by rw [e1, e2]; exact h.flag⟩

/-! ### The log, one event longer -/

@[simp] theorem scanLog_append (l : List TxEvent) (e : TxEvent) : scanLog (l ++ [e]) = scanEvent (scanLog l) e := by
  simp [scanLog, List.foldl_append]

@[simp] theorem sessionEvents_opened (l : List TxEvent) (r : OpenAns) : sessionEvents (l ++ [.opened r]) = [] := by
  simp [sessionEvents, List.foldl_append, keepSession]

@[simp] theorem sessionEvents_send (l : List TxEvent) (t : Nat) (k : BitVec 64) (c : Pcp) (f : List Byte) (r : SendAns) :
    sessionEvents (l ++ [.send t k c f r]) = sessionEvents l ++ [.send t k c f r] := by
  simp [sessionEvents, List.foldl_append, keepSession]

@[simp] theorem sessionEvents_closed (l : List TxEvent) :
    sessionEvents (l ++ [.closed]) = sessionEvents l ++ [.closed] := by
  simp [sessionEvents, List.foldl_append, keepSession]

/-! ### The counters -/

theorem sum_toNat_set (l : List (BitVec 64)) (i : Nat) (x : BitVec 64) (hi : i < l.length) :
    ((l.set i x).map BitVec.toNat).sum + l[i].toNat = (l.map BitVec.toNat).sum + x.toNat := by
  induction l generalizing i with
  | nil => simp at hi
  | cons a l ih =>
    cases i with
    | zero => simp only [List.set_cons_zero, List.map_cons, List.sum_cons, List.getElem_cons_zero]; omega
    | succ i =>
      simp only [List.length_cons, Nat.add_lt_add_iff_right] at hi
      simp only [List.set_cons_succ, List.map_cons, List.sum_cons, List.getElem_cons_succ]
      have := ih i hi
      omega

/-- The sum of the counters when one of them takes a new value. -/
theorem sum_toNat_set8 (v : Vector (BitVec 64) 8) (c : Pcp) (x : BitVec 64) :
    ((set8 v c x).toList.map BitVec.toNat).sum + (at8 v c).toNat = (v.toList.map BitVec.toNat).sum + x.toNat := by
  have := sum_toNat_set v.toList c.toNat x (by simpa using c.isLt)
  simpa only [set8, at8, Vector.toList_set, Vector.getElem_toList] using this

theorem at8_le_sum (v : Vector (BitVec 64) 8) (c : Pcp) : (at8 v c).toNat ≤ (v.toList.map BitVec.toNat).sum := by
  apply List.le_sum_of_mem
  simp only [List.mem_map]
  exact ⟨at8 v c, by simp [at8], rfl⟩

theorem sum_toNat_zero : ((Vector.replicate 8 (0 : BitVec 64)).toList.map BitVec.toNat).sum = 0 := by decide

/-! ### Small arithmetic -/

theorem elapsed_toNat (s : State) : (BitVec.ofNat 64 (sinceStart s)).toNat = sinceStart s := by
  have := s.now.isLt
  simp only [BitVec.toNat_ofNat, sinceStart]
  omega

theorem toNat_succ {w : Nat} {x : BitVec w} (hw : 1 < 2 ^ w) (h : x.toNat + 1 < 2 ^ w) : (x + 1).toNat = x.toNat + 1 := by
  rw [BitVec.toNat_add]
  have h1 : (1 : BitVec w).toNat = 1 := by simp [Nat.mod_eq_of_lt hw]
  rw [h1, Nat.mod_eq_of_lt h]

theorem Reason.code_range (r : Reason) : 1 ≤ r.code.toNat ∧ r.code.toNat ≤ 10 := by cases r <;> decide

/-- Under the configuration invariant a frame has 60 to 2047 bytes, and fits the slot. -/
theorem frameFor_length_ok {s : State} (h : ConfigOk s) (c : Pcp) :
    60 ≤ (frameFor s c).length ∧ (frameFor s c).length ≤ frameLenMax ∧
      (frameFor s c).length ≤ max 60 (46 + s.par.payloadMax.toNat) := by
  have h1 := frameFor_length_bounds s c
  have h2 := h.params
  have h3 := h.psize
  simp only [Params.ok, Bool.and_eq_true, decide_eq_true_eq] at h2
  simp only [frameLenMax]
  omega

/-- The state in which `START` builds its frames: the result cleared, the sink asked, the handle owned, no slot valid. -/
def startBase (s : State) : State :=
  { openSink (clearResult s) with hopen := true, fvalid := Vector.replicate 8 false }

/-- What a `START` that acquires its handle leaves: the frames of the configured classes in their slots, and RUN/TOP. -/
theorem enterLoop_start (s : State) :
    enterLoop (openSink (clearResult s)) =
      { installFrames (frameFor s) (classList s) (startBase s) with
        state := .run, phase := .top, svalid := true, resp := some ⟨.ok, 0⟩ } := by
  have h : frameFor { openSink (clearResult s) with hopen := true } = frameFor s :=
    funext fun c => frameFor_of_eq (by simp) (by simp) (by simp) (by simp) (by simp) (by simp) c
  simp only [enterLoop, precompute, h]
  rfl

/-- The same as one update of the state in which the frames are built. -/
theorem enterLoop_eq (s : State) :
    enterLoop (openSink (clearResult s)) =
      { startBase s with
        state := .run, phase := .top, svalid := true, resp := some ⟨.ok, 0⟩
        fs := (installFrames (frameFor s) (classList s) (startBase s)).fs
        flen := (installFrames (frameFor s) (classList s) (startBase s)).flen
        fvalid := (installFrames (frameFor s) (classList s) (startBase s)).fvalid } := by
  rw [enterLoop_start, installFrames_eq]

/-- A class pushed onto a list with room is its last entry. -/
theorem classList_push {s : State} (hc : s.tccnt.toNat < 8) (p : Pcp) :
    classList { s with tclist := s.tclist.setIfInBounds s.tccnt.toNat p, tccnt := s.tccnt + 1 } = classList s ++ [p] := by
  have h1 : (s.tccnt + 1).toNat = s.tccnt.toNat + 1 := toNat_succ (by decide) (by omega)
  have hlen : s.tclist.toList.length = 8 := Vector.length_toList
  simp only [classList, h1, Vector.toList_setIfInBounds]
  generalize s.tclist.toList = l at *
  generalize s.tccnt.toNat = n at *
  rw [List.take_add_one, List.take_set_of_le (Nat.le_refl n), List.getElem?_set_self (by omega)]
  rfl

end Sys2Proof.Machine
end

