-- ==== Sys2Proof/Tests/Slice0.lean ====
section
/-!
SUPPORT. The model's own tests: the well-formedness smoke test, words decoded, single steps with results taken from the
spec's own examples, and a witness for the hypotheses of every obligation that has any.
-/

namespace Sys2Proof.Tests

open Sys2Proof.Machine Sys2Proof.Claims

/-! ### Small states -/

/-- Configured as in 41_framebuilder.md R150's example, with class 5, one packet a second for one second, one tick a second. -/
def idle : State :=
  { State.reset with
    dst := 0xAABBCCDDEEFF, src := 0x112233445566, vlan := 100, profile := 0, tccnt := 1
    tclist := Vector.replicate 8 5, pps := 1, duration := 1
    wDst := true, wSrc := true, wVlan := true, wProf := true, wPps := true, wDur := true
    par := { Params.default with tickHz := 1 }, openQ := [.ok], sendQ := [.success, .success] }

/-- The same with a sink that does not open. -/
def idleFail : State := { idle with openQ := [.fail] }

/-- The next state of an outcome, or `s` where there is none. -/
def nextOr (s : State) (r : Result) : State :=
  match r with
  | .next t => t
  | .fault _ => s
  | .refused _ => s

/-- After BUILD 5. -/
def built : State := nextOr idle (exec (.build 0 5) idle)

/-- After START: RUN/TOP. -/
def runTop : State := nextOr idle (exec (.start 0) idle)

/-- After the first LoopTop: RUN/WAIT, the first attempt due. -/
def runWait : State := { runTop with phase := .wait }

/-- RUN/WAIT with the second attempt not yet due. -/
def runEarly : State :=
  { runWait with
    k := 1, total := 1, cnt := set8 runTop.cnt 5 1, sendQ := [.success]
    txlog := runTop.txlog ++ [.send 0 0 5 (frameFor idle 5) .success] }

/-- RUN/TOP at the end of the duration, both attempts made. -/
def runOver : State :=
  { runTop with
    k := 2, total := 2, cnt := set8 runTop.cnt 5 2, now := 1, sendQ := []
    txlog := runTop.txlog ++ [.send 0 0 5 (frameFor idle 5) .success, .send 1 1 5 (frameFor idle 5) .success] }

/-- The same session ended by its duration. -/
def doneNormal : State :=
  { runOver with
    state := .done, hopen := false, elapsed := 1, success := true, txlog := runOver.txlog ++ [.closed] }

/-- Two classes for two seconds. -/
def idleTwo : State := { idle with tclist := #v[7, 1, 0, 0, 0, 0, 0, 0], tccnt := 2, duration := 2 }

/-- The session of `idleTwo` ended by its duration: attempts at ticks 0, 1 and 2, all successes. -/
def doneTwo : State :=
  { nextOr idleTwo (exec (.start 0) idleTwo) with
    state := .done, phase := .top, hopen := false, k := 3, total := 3, now := 2, elapsed := 2, success := true
    cnt := #v[0, 1, 0, 0, 0, 0, 0, 2], sendQ := []
    txlog := [.opened .ok, .send 0 0 7 (frameFor idleTwo 7) .success, .send 1 1 1 (frameFor idleTwo 1) .success,
      .send 2 2 7 (frameFor idleTwo 7) .success, .closed] }

/-- `s` with these acts ahead of the Host. -/
def withActs (s : State) (q : List HostAct) : State := { s with hostq := q }

/-! ### Well-formedness: each check refuses an ill-formed command (30_encoding.md R103, R104) -/

theorem test_wellFormed_refuses_each_check :
    (Instr.setprof 1 0).wellFormed Params.default = false ∧
    (Instr.setpsize 1 0).wellFormed Params.default = false ∧
    (Instr.setpsize 0 1473).wellFormed Params.default = false ∧
    (Instr.tcclr 1).wellFormed Params.default = false ∧
    (Instr.setpps 1 5).wellFormed Params.default = false ∧
    (Instr.setpps 0 0).wellFormed Params.default = false ∧
    (Instr.setdur 1 0).wellFormed Params.default = false ∧
    (Instr.start 1).wellFormed Params.default = false ∧
    (Instr.stop 1).wellFormed Params.default = false ∧
    (Instr.rd 1 0).wellFormed Params.default = false ∧
    (Instr.rdfb 1 0 0).wellFormed Params.default = false := by decide

theorem test_wellFormed_accepts :
    (Instr.setvlan 1 100).wellFormed Params.default = true ∧
    (Instr.setpsize 0 1472).wellFormed Params.default = true ∧
    (Instr.setpps 0 1).wellFormed Params.default = true ∧
    (Instr.setdur 0 0).wellFormed Params.default = true := by decide

/-! ### Decoding: words written from the examples of the rules (R120 to R131, R150, R163, R169) -/

theorem test_decode_configuration_words :
    decode 0x0100AABBCCDDEEFF = .instr (.setdst 0xAABBCCDDEEFF) ∧
    decode 0x0200112233445566 = .instr (.setsrc 0x112233445566) ∧
    decode 0x0300000000000064 = .instr (.setvlan 0 100) ∧
    decode 0x0400000000000001 = .instr (.setprof 0 1) ∧
    decode 0x050000000000000A = .instr (.setpsize 0 10) ∧
    decode 0x0600000000000000 = .instr (.tcclr 0) ∧
    decode 0x0700000000000004 = .instr (.tcpush 0 4) ∧
    decode 0x08000000000003E8 = .instr (.setpps 0 1000) ∧
    decode 0x0900000000000001 = .instr (.setdur 0 1) := by decide

theorem test_decode_other_words :
    decode 0x1000000000000005 = .instr (.build 0 5) ∧
    decode 0x1100000000000000 = .instr (.start 0) ∧
    decode 0x1200000000000000 = .instr (.stop 0) ∧
    decode 0x2000000000000005 = .instr (.rd 0 5) ∧
    decode 0x210000000000280E = .instr (.rdfb 0 5 14) ∧
    decode 0x0000000000000000 = .illop ∧ decode 0xFFFFFFFFFFFFFFFF = .illop ∧
    decode 0x0A00000000000000 = .illop ∧ decode 0x2201000000000000 = .illop ∧
    decode 0x1201000000000000 = .rsvbits := by decide

theorem test_decodeTableWord : decodeTableWord 64 0x0300000000001064 = some (.setvlan 1 100) := by decide

/-! ### Single steps -/

/-- R120's example. -/
theorem test_setdst : (nextOr idle (exec (.setdst 0x020000000001) idle)).dst = 0x020000000001 := by decide

/-- R121: `SETSRC` marks its own register written, and no other. -/
theorem test_setsrc_written_bit :
    (nextOr idle (exec (.setsrc 7) State.reset)).wSrc = true ∧ (nextOr idle (exec (.setsrc 7) State.reset)).wDst = false := by
  decide

/-- R122: `SETVLAN 4196` stores 100 and sets TRUNC. -/
theorem test_setvlan_masks :
    (nextOr idle (exec (.setvlan 1 100) idle)).vlan = 100 ∧ (nextOr idle (exec (.setvlan 1 100) idle)).trunc = true := by
  decide

/-- R123: profile 2 is rejected, not masked. -/
theorem test_setprof_two_rejected :
    (nextOr idle (exec (.setprof 1 0) idle)).lastrej = 3 ∧ (nextOr idle (exec (.setprof 1 0) idle)).profile = 0 := by decide

/-- R124: PAYLOAD_MAX is accepted, PAYLOAD_MAX + 1 keeps the old value. -/
theorem test_setpsize_limit :
    (nextOr idle (exec (.setpsize 0 1472) idle)).psize = 1472 ∧ (nextOr idle (exec (.setpsize 0 1473) idle)).psize = 10 := by
  decide

/-- R125. -/
theorem test_tcclr : (nextOr idle (exec (.tcclr 0) idle)).tccnt = 0 := by decide

/-- R126: the operand 13 masks to 5, a duplicate here; a rejected push does not set TRUNC. -/
theorem test_tcpush_duplicate :
    (nextOr idle (exec (.tcpush 1 5) idle)).lastrej = 7 ∧ (nextOr idle (exec (.tcpush 1 5) idle)).trunc = false := by decide

/-- R126 and R49: entry `i` of TC_LIST stands in bits 4i+2 : 4i. -/
theorem test_tcpush_order :
    (nextOr idle (exec (.rd 0 0x07) (nextOr idle (exec (.tcpush 0 2) idle)))).resp = some ⟨.ok, 0x25⟩ := by decide

/-- R127: 0 is rejected. -/
theorem test_setpps_zero : (nextOr idle (exec (.setpps 0 0) idle)).lastrej = 3 := by decide

/-- R128: 0 is accepted. -/
theorem test_setdur_zero : (nextOr idle (exec (.setdur 0 0) idle)).duration = 0 := by decide

/-- R130: after reset `RD PSIZE` answers 10. -/
theorem test_rd_psize : (nextOr idle (exec (.rd 0 5) State.reset)).resp = some ⟨.ok, 10⟩ := by decide

/-- R130: after reset `RD VLAN` is rejected UNSET. -/
theorem test_rd_vlan_unset :
    (nextOr idle (exec (.rd 0 3) State.reset)).resp = some ⟨.reject, 0⟩ ∧
    (nextOr idle (exec (.rd 0 3) State.reset)).lastrej = 5 := by decide

/-- R150's example: the response is 60. -/
theorem test_build_length : built.resp = some ⟨.ok, 60⟩ ∧ at8 built.flen 5 = 60 := by decide

/-- 95_test_vectors.md V2: the UDP frame of class 5. -/
theorem test_build_udp :
    build Params.default 0xAABBCCDDEEFF 0x112233445566 100 5 1 10 =
      [0xAA, 0xBB, 0xCC, 0xDD, 0xEE, 0xFF, 0x11, 0x22, 0x33, 0x44, 0x55, 0x66, 0x81, 0x00, 0xA0, 0x64, 0x08, 0x00,
       0x45, 0xA0, 0x00, 0x26, 0x00, 0x00, 0x00, 0x00, 0x40, 0x11, 0x66, 0x25, 0x0A, 0x00, 0x00, 0x01, 0x0A, 0x00, 0x00, 0x02,
       0x27, 0x15, 0x4E, 0x25, 0x00, 0x12, 0x00, 0x00, 0, 1, 2, 3, 4, 5, 6, 7, 8, 9, 0, 0, 0, 0] := by decide

/-- V12: a header whose sum carries, and the same with its checksum filled in. -/
theorem test_cksum_carry :
    cksum [0x45, 0, 0, 0x3C, 0x1C, 0x46, 0x40, 0, 0x40, 6, 0, 0, 0xAC, 0x10, 0x0A, 0x63, 0xAC, 0x10, 0x0A, 0x0C] = 0xB1E6 ∧
    cksum [0x45, 0, 0, 0x3C, 0x1C, 0x46, 0x40, 0, 0x40, 6, 0xB1, 0xE6, 0xAC, 0x10, 0x0A, 0x63, 0xAC, 0x10, 0x0A, 0x0C] = 0 := by
  decide

/-- R131's examples: the TCI bytes of the frame in slot 5. -/
theorem test_rdfb_tci :
    (nextOr idle (exec (.rdfb 0 5 14) built)).resp = some ⟨.ok, 0xA0⟩ ∧
    (nextOr idle (exec (.rdfb 0 5 15) built)).resp = some ⟨.ok, 0x64⟩ := by decide

/-- R131: the offset FLEN is refused. -/
theorem test_rdfb_beyond : (nextOr idle (exec (.rdfb 0 5 60) built)).lastrej = 9 := by decide

/-- R160: an empty list is TCEMPTY; R192: a sink that does not open is ERR 2 in DONE. -/
theorem test_start_refusals :
    (nextOr idle (exec (.start 0) { idle with tccnt := 0 })).lastrej = 6 ∧
    (nextOr idle (exec (.start 0) idleFail)).err = 2 ∧ (nextOr idle (exec (.start 0) idleFail)).state = .done := by decide

/-- R163: RUN/TOP, SVALID, the slot of the one class valid. -/
theorem test_start_enters :
    runTop.state = .run ∧ runTop.phase = .top ∧ runTop.svalid = true ∧ at8 runTop.fvalid 5 = true ∧
    at8 runTop.fvalid 0 = false := by decide

/-- R169: ELAPSED is the tick of the command minus START_T. -/
theorem test_stop_elapsed :
    (nextOr idle (exec (.stop 0) { runTop with now := 7 })).elapsed = 7 ∧
    (nextOr idle (exec (.stop 0) { runTop with now := 7 })).stopped = true := by decide

/-- R169: no effect outside RUN. -/
theorem test_stop_idle : exec (.stop 0) idle = .next { idle with resp := some ⟨.ok, 0⟩ } := rfl

/-- R167: the answer `wouldBlock` advances K and counts nothing. -/
theorem test_attempt_wouldBlock :
    (nextOr idle (advance { runWait with sendQ := [.wouldBlock] })).k = 1 ∧
    (nextOr idle (advance { runWait with sendQ := [.wouldBlock] })).total = 0 := by decide

/-- R165's example: the session goes on at 999000 ticks and ends at 1000000. -/
theorem test_loopTop_duration :
    (loopTop { runTop with par := Params.default, now := 999000 }).phase = .wait ∧
    (loopTop { runTop with par := Params.default, now := 1000000 }).state = .done := by decide

/-- R111: the example, a mixed separator, and a short group. -/
theorem test_parseMac :
    parseMac "aa:bb:CC:dd:ee:ff".toList = some 0xAABBCCDDEEFF ∧ parseMac "11-22-33-44-55-66".toList = some 0x112233445566 ∧
    parseMac "aa:bb:cc-dd:ee:ff".toList = none ∧ parseMac "a:bb:cc:dd:ee:ff".toList = none := by decide

/-- R110's examples. -/
theorem test_assembleLine :
    assembleLine "SETVLAN 100".toList = .ok 0x0300000000000064 ∧ assembleLine "RD TOTAL".toList = .ok 0x200000000000000D ∧
    assembleLine "RDFB 5, 14".toList = .ok 0x210000000000280E ∧ assembleLine "START".toList = .ok 0x1100000000000000 := by
  decide

/-- R113's example. -/
theorem test_parseClasses :
    parseClasses "[0,2,4]".toList = some [0, 2, 4] ∧ parseClasses "[]".toList = some [] ∧ parseClasses "[-1]".toList = none := by
  decide

/-! ### The invariant of small states, by evaluation -/

/-- The clauses of the invariant over the log, for one event. -/
def eventOk (s : State) : TxEvent → Bool
  | .send t k c _ _ =>
    decide ((sessionClasses s)[k.toNat % s.sN.toNat]? = some c) &&
    decide (k.toNat * s.par.tickHz.toNat ≤ t * s.sPps.toNat) &&
    decide (t = 0 ∨ (t - 1) * s.sPps.toNat < k.toNat * s.par.tickHz.toNat)
  | .opened _ => true
  | .closed => true

theorem schedule_of_eventOk {s : State} (h : (sessionEvents s.txlog).all (eventOk s) = true) :
    ∀ t k c f r, .send t k c f r ∈ sessionEvents s.txlog →
      (sessionClasses s)[k.toNat % s.sN.toNat]? = some c ∧
      k.toNat * s.par.tickHz.toNat ≤ t * s.sPps.toNat ∧
      (t = 0 ∨ (t - 1) * s.sPps.toNat < k.toNat * s.par.tickHz.toNat) := by
  intro t k c f r hm
  have := List.all_eq_true.mp h _ hm
  simpa [eventOk, and_assoc] using this

/-- Configuration and session. -/
def configChecked (s : State) : Prop :=
  s.par.ok = true ∧ s.psize.toNat ≤ max 10 s.par.payloadMax.toNat ∧ (s.wPps = true → 1 ≤ s.pps.toNat) ∧
  s.tccnt.toNat ≤ 8 ∧ (classList s).Nodup

/-- The session's copies. -/
def sessionChecked (s : State) : Prop :=
  s.sN.toNat ≤ 8 ∧ (sessionClasses s).Nodup ∧ (s.state = .run → 1 ≤ s.sN.toNat) ∧ (s.state = .run → 1 ≤ s.sPps.toNat) ∧
  (s.state = .run → s.sPsize = s.psize ∧ s.sProf = s.profile ∧ s.sVlan = s.vlan)

/-- The frame store and cache. -/
def framesChecked (s : State) : Prop :=
  s.fs.wf = true ∧
  (∀ c, at8 s.fvalid c = true →
    60 ≤ (at8 s.flen c).toNat ∧ (at8 s.flen c).toNat ≤ max 60 (46 + s.par.payloadMax.toNat)) ∧
  (∀ c, at8 s.fvalid c = true → (s.fs.bytes (slotBase c) (at8 s.flen c).toNat).isSome = true) ∧
  (s.state = .run → ∀ c ∈ sessionClasses s,
    at8 s.fvalid c = true ∧ s.fs.bytes (slotBase c) (at8 s.flen c).toNat = some (frameFor s c))

/-- Control, counters, pacing. -/
def paceChecked (s : State) : Prop :=
  (s.state ≠ .run → s.phase = .top) ∧ (s.hopen = true ↔ s.state = .run) ∧
  s.total.toNat = countSum s ∧ (∀ c, c ∉ sessionClasses s → at8 s.cnt c = 0) ∧ s.total.toNat ≤ s.k.toNat ∧
  s.k.toNat ≤ plannedAttempts s + 1 ∧
  (s.state = .run → s.startT.toNat ≤ s.now.toNat) ∧ (s.state = .run → sinceStart s ≤ durationTicks s) ∧
  (s.state = .run → s.startT.toNat + durationTicks s < 2 ^ 64) ∧
  (s.state = .run → s.k.toNat * s.par.tickHz.toNat ≤ sinceStart s * s.sPps.toNat + s.par.tickHz.toNat) ∧
  (s.state = .run → s.phase = .wait →
    s.k.toNat ≤ plannedAttempts s ∧
    (sinceStart s = 0 ∨ (sinceStart s - 1) * s.sPps.toNat < s.k.toNat * s.par.tickHz.toNat)) ∧
  (s.state = .run → s.phase = .top →
    (sinceStart s = 0 ∨ (1 ≤ s.k.toNat ∧ (sinceStart s - 1) * s.sPps.toNat < (s.k.toNat - 1) * s.par.tickHz.toNat))) ∧
  (s.svalid = true → s.state = .done →
    s.k.toNat * s.par.tickHz.toNat ≤ s.elapsed.toNat * s.sPps.toNat + s.par.tickHz.toNat)

/-- Outcome. -/
def outcomeChecked (s : State) : Prop :=
  (s.state = .idle → s.success = false ∧ s.err = 0 ∧ s.svalid = false ∧ s.stopped = false ∧
    s.k = 0 ∧ s.total = 0 ∧ s.elapsed = 0) ∧
  (s.state = .run → s.success = false ∧ s.err = 0 ∧ s.svalid = true ∧ s.stopped = false ∧ s.elapsed = 0) ∧
  (s.state = .done →
    (s.success = true ∧ s.err = 0 ∧ s.svalid = true) ∨
    (s.success = false ∧ s.err = 4 ∧ s.svalid = true ∧ s.stopped = false) ∨
    (s.success = false ∧ s.err = 2 ∧ s.svalid = false ∧ s.stopped = false ∧ s.k = 0 ∧ s.total = 0 ∧ s.elapsed = 0))

/-- Normal end and rejects. -/
def endChecked (s : State) : Prop :=
  (s.state = .done → s.success = true → s.stopped = false →
    s.elapsed.toNat = durationTicks s ∧
    (s.sPps.toNat ≤ s.par.tickHz.toNat → 1 ≤ s.sDur.toNat → s.k.toNat = plannedAttempts s + 1)) ∧
  s.lastrej.toNat ≤ 10 ∧ (s.cmderr = true ↔ s.lastrej ≠ 0)

/-- The log. -/
def logChecked (s : State) : Prop :=
  scanLog s.txlog = some s.hopen ∧
  s.k.toNat =
    (sessionEvents s.txlog).countP (isAnswer .success) + (sessionEvents s.txlog).countP (isAnswer .wouldBlock) ∧
  (sessionEvents s.txlog).filterMap attemptIndex = List.range s.k.toNat ∧
  s.total.toNat = (sessionEvents s.txlog).countP (isAnswer .success) ∧
  (∀ c, (at8 s.cnt c).toNat = (sessionEvents s.txlog).countP (isSuccessOf c)) ∧
  (sessionEvents s.txlog).all (eventOk s) = true

theorem inv_of_checked {s : State} (h1 : configChecked s) (h2 : sessionChecked s) (h3 : framesChecked s)
    (h4 : paceChecked s) (h5 : outcomeChecked s) (h6 : logChecked s)
    (h7 : endChecked s) : FramerInv s := by
  obtain ⟨a1, a2, a3, a4, a5⟩ := h1
  obtain ⟨b1, b2, b3, b4, b5⟩ := h2
  obtain ⟨c1, c2, c3, c4⟩ := h3
  obtain ⟨d1, d2, d3, d4, d5, d6, d7, d8, d9, d10, d11, d12, d13⟩ := h4
  obtain ⟨e1, e2, e3⟩ := h5
  obtain ⟨e4, e5, e6⟩ := h7
  obtain ⟨e7, e8, e9, e10, e11, e12⟩ := h6
  exact ⟨⟨a1, a2, a3, a4, a5⟩, ⟨b1, b2, b3, b4, b5⟩, ⟨d1, d2⟩, ⟨c1, c2, c3, c4⟩, ⟨d3, d4, d5, d6⟩,
    ⟨d7, d8, d9, d10, d11, d12, d13⟩, ⟨e1, e2, e3⟩, e4, ⟨e5, e6⟩, ⟨e7, e8, e9, e10, e11, schedule_of_eventOk e12⟩⟩

theorem configOk_idle : ConfigOk idle := by constructor <;> decide

theorem inv_runTop : FramerInv runTop :=
  inv_of_checked (by unfold configChecked; decide) (by unfold sessionChecked; decide)
    (by unfold framesChecked; decide) (by unfold paceChecked; decide)
    (by unfold outcomeChecked; decide) (by unfold logChecked; decide)
    (by unfold endChecked; decide)

theorem inv_runWait : FramerInv runWait :=
  inv_of_checked (by unfold configChecked; decide) (by unfold sessionChecked; decide)
    (by unfold framesChecked; decide) (by unfold paceChecked; decide)
    (by unfold outcomeChecked; decide) (by unfold logChecked; decide)
    (by unfold endChecked; decide)

theorem inv_runEarly : FramerInv runEarly :=
  inv_of_checked (by unfold configChecked; decide) (by unfold sessionChecked; decide)
    (by unfold framesChecked; decide) (by unfold paceChecked; decide)
    (by unfold outcomeChecked; decide) (by unfold logChecked; decide)
    (by unfold endChecked; decide)

theorem inv_doneNormal : FramerInv doneNormal :=
  inv_of_checked (by unfold configChecked; decide) (by unfold sessionChecked; decide)
    (by unfold framesChecked; decide) (by unfold paceChecked; decide)
    (by unfold outcomeChecked; decide) (by unfold logChecked; decide)
    (by unfold endChecked; decide)

theorem inv_doneTwo : FramerInv doneTwo :=
  inv_of_checked (by unfold configChecked; decide) (by unfold sessionChecked; decide)
    (by unfold framesChecked; decide +kernel) (by unfold paceChecked; decide)
    (by unfold outcomeChecked; decide) (by unfold logChecked; decide)
    (by unfold endChecked; decide)

/-! ### Witnesses for the hypotheses of the obligations, in the order of Obligations.lean

`idle` is not RUN, `runTop` is; the other hypotheses are met at the values named, at the ends of their ranges where they are
ranges. A statement that is not listed has no hypothesis. -/

/-- The result is a next state. -/
def isNext (r : Result) : Bool :=
  match r with
  | .next _ => true
  | .fault _ => false
  | .refused _ => false

theorem exists_next {r : Result} (h : isNext r = true) : ∃ t, r = .next t := by
  cases r with
  | next t => exact ⟨t, rfl⟩
  | fault e => cases h
  | refused e => cases h

theorem notRun_and_run : idle.state ≠ .run ∧ runTop.state = .run := by decide

theorem witness_SetdstStoresMac : idle.state ≠ .run ∧ runTop.state = .run := notRun_and_run

theorem witness_SetsrcStoresMac : idle.state ≠ .run ∧ runTop.state = .run := notRun_and_run

theorem witness_SetvlanKeepsTwelveBits : idle.state ≠ .run ∧ runTop.state = .run := notRun_and_run

theorem witness_SetprofStoresProfile :
    (idle.state ≠ .run ∧ (0 : BitVec 47) = 0) ∧ (idle.state ≠ .run ∧ (1 : BitVec 47) ≠ 0) ∧ runTop.state = .run :=
  ⟨⟨notRun_and_run.1, rfl⟩, ⟨notRun_and_run.1, by decide⟩, notRun_and_run.2⟩

theorem witness_SetpsizeStoresSize :
    (idle.state ≠ .run ∧ (0 : BitVec 32) = 0 ∧ (1472 : BitVec 16).toNat ≤ idle.par.payloadMax.toNat) ∧
    (idle.state ≠ .run ∧ ((0 : BitVec 32) ≠ 0 ∨ idle.par.payloadMax.toNat < (1473 : BitVec 16).toNat)) ∧
    (idle.state ≠ .run ∧ ((1 : BitVec 32) ≠ 0 ∨ idle.par.payloadMax.toNat < (0 : BitVec 16).toNat)) ∧
    runTop.state = .run := by decide

theorem witness_TcclrEmptiesList :
    (idle.state ≠ .run ∧ (0 : BitVec 48) = 0) ∧ (idle.state ≠ .run ∧ (1 : BitVec 48) ≠ 0) ∧ runTop.state = .run :=
  ⟨⟨notRun_and_run.1, rfl⟩, ⟨notRun_and_run.1, by decide⟩, notRun_and_run.2⟩

/-- All eight classes configured. -/
def fullList : State := { idle with tclist := #v[0, 1, 2, 3, 4, 5, 6, 7], tccnt := 8 }

theorem witness_TcpushAppendsClass :
    (ConfigOk idle ∧ idle.state ≠ .run ∧ (2 : Pcp) ∉ classList idle) ∧ (5 : Pcp) ∈ classList idle ∧
    (ConfigOk fullList ∧ fullList.tccnt = 8) ∧ (ConfigOk runTop ∧ runTop.state = .run) :=
  ⟨⟨configOk_idle, notRun_and_run.1, by decide⟩, by decide, ⟨by constructor <;> decide, rfl⟩,
    inv_runTop.config, notRun_and_run.2⟩

theorem witness_SetppsStoresRate :
    (idle.state ≠ .run ∧ (0 : BitVec 16) = 0 ∧ (1 : BitVec 32) ≠ 0) ∧
    (idle.state ≠ .run ∧ ((0 : BitVec 16) ≠ 0 ∨ (0 : BitVec 32) = 0)) ∧
    (idle.state ≠ .run ∧ ((1 : BitVec 16) ≠ 0 ∨ (1 : BitVec 32) = 0)) ∧ runTop.state = .run := by decide

theorem witness_SetdurStoresDuration :
    (idle.state ≠ .run ∧ (0 : BitVec 16) = 0) ∧ (idle.state ≠ .run ∧ (1 : BitVec 16) ≠ 0) ∧ runTop.state = .run :=
  ⟨⟨notRun_and_run.1, rfl⟩, ⟨notRun_and_run.1, by decide⟩, notRun_and_run.2⟩

theorem witness_RdAnswersRegister : (1 : BitVec 40) ≠ 0 ∧ 0x28 < (0x29 : BitVec 8).toNat := by decide

theorem witness_AchievedRateFits :
    (FramerInv runTop ∧ runTop.elapsed = 0 ∧ runTop.state = .run) ∧ (FramerInv doneNormal ∧ doneNormal.elapsed ≠ 0) :=
  ⟨⟨inv_runTop, by decide⟩, inv_doneNormal, by decide⟩

/-- One empty slot beside the frame of 60 bytes: the last offset and the first beyond it. -/
theorem witness_RdfbAnswersByte :
    FramesOk runTop ∧ (1 : BitVec 34) ≠ 0 ∧ at8 runTop.fvalid 4 = false ∧
    (at8 runTop.flen 5).toNat ≤ (60 : BitVec 11).toNat ∧
    at8 runTop.fvalid 5 = true ∧ (59 : BitVec 11).toNat < (at8 runTop.flen 5).toNat :=
  ⟨inv_runTop.frames, by decide⟩

theorem witness_ReadsHaveNoSideEffect :
    exec (.rd 0 0x0A) idle = .next (answered 0 idle) ∧ exec (.rdfb 0 0 0) idle = .next (rejected 9 idle) := ⟨rfl, rfl⟩

theorem witness_FrameLengthAndPadding :
    Params.default.ok = true ∧ 0 ≤ Params.default.payloadMax.toNat ∧ 1472 ≤ Params.default.payloadMax.toNat := by decide

theorem witness_BuiltFrameDecodesBack : (1 : BitVec 1) = 1 := rfl

/-- `n = 10`: the first and the last byte of padding, and of the payload. -/
theorem witness_MinimalLayoutAndPayload :
    (18 + 10 ≤ 28 ∧ 28 < 60) ∧ (18 + 10 ≤ 59 ∧ 59 < 60) ∧ 0 < 10 ∧ 9 < 10 := by decide

theorem witness_UdpFrameLayout :
    ∃ f, f = build Params.default 1 2 100 5 1 10 ∧ Params.default.ok = true ∧ 10 ≤ Params.default.payloadMax.toNat ∧
      9 < 10 ∧ 46 + 10 ≤ 56 ∧ 56 < 60 := ⟨_, rfl, by decide⟩

theorem exists_length (n : Nat) : ∃ b : List Byte, b.length = n := ⟨List.replicate n 0, List.length_replicate⟩

theorem witness_ChecksumLaws :
    ∃ pre post : List Byte, pre.length % 2 = 0 ∧ post.length % 2 = 0 ∧ pre.length + 2 + post.length = 131074 := by
  obtain ⟨pre, h⟩ := exists_length 10
  obtain ⟨post, h'⟩ := exists_length 131062
  exact ⟨pre, post, by omega⟩

theorem witness_ChecksumTwoFoldsEnough :
    ∃ b c : List Byte, (b.length + 1) / 2 = 65537 ∧ c.length = 20 := by
  obtain ⟨b, h⟩ := exists_length 131074
  obtain ⟨c, h'⟩ := exists_length 20
  exact ⟨b, c, by omega⟩

theorem witness_BuildInstallsFrame :
    (ConfigOk idle ∧ idle.state ≠ .run ∧ frameWritten idle) ∧
    (ConfigOk State.reset ∧ State.reset.state ≠ .run ∧ ¬frameWritten State.reset) ∧
    (ConfigOk runTop ∧ runTop.state = .run) ∧ (4 : Pcp) ≠ 5 :=
  ⟨⟨configOk_idle, notRun_and_run.1, by unfold frameWritten; decide⟩,
    ⟨by constructor <;> decide, by decide, by unfold frameWritten; decide⟩,
    ⟨inv_runTop.config, notRun_and_run.2⟩, by decide⟩

theorem startable_idle : startable idle ∧ startable idleFail := by
  unfold startable allWritten frameWritten; decide

theorem configOk_idleFail : ConfigOk idleFail := by constructor <;> decide

/-- The last tick at which a session of one tick is still in range is `2 ^ 64 - 2`. -/
theorem witness_StartChecksInOrder :
    runTop.state = .run ∧ (idle.state ≠ .run ∧ (1 : BitVec 48) ≠ 0) ∧
    (State.reset.state ≠ .run ∧ ¬allWritten State.reset) ∧
    (State.state { idle with tccnt := 0 } ≠ .run ∧ allWritten { idle with tccnt := 0 }) ∧
    (idle.state ≠ .run ∧ allWritten { idle with now := BitVec.allOnes 64 } ∧ idle.tccnt ≠ 0 ∧
      2 ^ 64 ≤ (BitVec.allOnes 64).toNat + idle.duration.toNat * idle.par.tickHz.toNat) ∧
    startable { idle with now := BitVec.allOnes 64 - 1 } ∧ (startable idle ∧ ConfigOk idle) :=
  ⟨notRun_and_run.2, ⟨notRun_and_run.1, by decide⟩, by unfold allWritten frameWritten; decide,
    by unfold allWritten frameWritten; decide, by unfold allWritten frameWritten; decide,
    by unfold startable allWritten frameWritten; decide, startable_idle.1, configOk_idle⟩

theorem witness_StartHandleFailure : startable idleFail ∧ openAnswer idleFail = .fail := ⟨startable_idle.2, rfl⟩

theorem witness_StartClearsAndCopies :
    (startable idle ∧ ConfigOk idle ∧ openAnswer idle = .ok) ∧
    (startable idleFail ∧ ConfigOk idleFail ∧ openAnswer idleFail = .fail) :=
  ⟨⟨startable_idle.1, configOk_idle, rfl⟩, startable_idle.2, configOk_idleFail, rfl⟩

theorem witness_StartBuildsOneFramePerClass :
    startable idle ∧ ConfigOk idle ∧ openAnswer idle = .ok ∧ (5 : Pcp) ∈ classList idle ∧ (4 : Pcp) ∉ classList idle ∧
    (∀ c ∈ classList idle, 0 < c.toNat * 2048) := ⟨startable_idle.1, configOk_idle, rfl, by decide⟩

theorem witness_StartEntersLoop :
    (startable idle ∧ ConfigOk idle ∧ openAnswer idle = .ok) ∧ runTop.state = .run :=
  ⟨⟨startable_idle.1, configOk_idle, rfl⟩, notRun_and_run.2⟩

/-- The duration is one tick: not reached at tick 0, reached at tick 1. -/
theorem witness_LoopTopChecksDuration :
    (runTop.state = .run ∧ runTop.phase = .top ∧ ¬durationReached runTop) ∧
    (runOver.state = .run ∧ runOver.phase = .top ∧ durationReached runOver) := by
  unfold durationReached; decide

/-- The sink's coming answers are no part of what these say. -/
theorem due_withAnswer {s : State} (a : SendAns) (h : SessionOk s) (hf : FramesOk s) (hr : s.state = .run)
    (hp : s.phase = .wait) (hd : attemptDue s) :
    ∃ t : State, SessionOk t ∧ FramesOk t ∧ t.state = .run ∧ t.phase = .wait ∧ attemptDue t ∧ sendAnswer t = a :=
  ⟨{ s with sendQ := [a] }, ⟨h.count, h.distinct, h.nonempty, h.rate, h.copies⟩,
    ⟨hf.canonical, hf.lengths, hf.whole, hf.built⟩, hr, hp, hd, rfl⟩

/-- RUN/WAIT, the attempt due, with each of the sink's answers. -/
theorem due_runWait (a : SendAns) :
    ∃ t : State, SessionOk t ∧ FramesOk t ∧ t.state = .run ∧ t.phase = .wait ∧ attemptDue t ∧ sendAnswer t = a :=
  due_withAnswer a inv_runWait.session inv_runWait.frames (by decide) rfl
    (by unfold attemptDue; decide)

theorem witness_AttemptSendsNextClass :
    (∃ s, SessionOk s ∧ FramesOk s ∧ s.state = .run ∧ s.phase = .wait ∧ attemptDue s ∧ sendAnswer s = .success) ∧
    (∃ s, SessionOk s ∧ FramesOk s ∧ s.state = .run ∧ s.phase = .wait ∧ attemptDue s ∧ sendAnswer s = .wouldBlock) ∧
    (∃ s, SessionOk s ∧ FramesOk s ∧ s.state = .run ∧ s.phase = .wait ∧ attemptDue s ∧ sendAnswer s = .error) :=
  ⟨due_runWait .success, due_runWait .wouldBlock, due_runWait .error⟩

theorem witness_FatalSendEndsSession :
    ∃ s, SessionOk s ∧ FramesOk s ∧ s.state = .run ∧ s.phase = .wait ∧ attemptDue s ∧ sendAnswer s = .error :=
  due_runWait .error

theorem witness_StopEndsRunningSession :
    (1 : BitVec 48) ≠ 0 ∧ ((0 : BitVec 48) = 0 ∧ runTop.state = .run) ∧ ((0 : BitVec 48) = 0 ∧ idle.state ≠ .run) :=
  ⟨by decide, ⟨rfl, notRun_and_run.2⟩, rfl, notRun_and_run.1⟩

/-- No Sender step is enabled outside RUN, and none in RUN/WAIT before the next tick; one is in RUN/TOP and when due. -/
theorem witness_TickOnlyWhenSenderIdle :
    ¬(idle.state = .run ∧ (idle.phase = .top ∨ attemptDue idle)) ∧
    ¬(runEarly.state = .run ∧ (runEarly.phase = .top ∨ attemptDue runEarly)) ∧
    (runTop.state = .run ∧ (runTop.phase = .top ∨ attemptDue runTop) ∧ advance runTop = .next (loopTop runTop)) ∧
    (runWait.state = .run ∧ (runWait.phase = .top ∨ attemptDue runWait)) ∧
    exec (.stop 0) idle = .next (answered 0 idle) := by
  refine ⟨?_, ?_, ⟨?_, ?_, rfl⟩, ⟨?_, ?_⟩, rfl⟩ <;> (try unfold attemptDue) <;> decide

theorem witness_AttemptOnItsTick :
    1 ≤ 1 ∧ (FramerInv runEarly ∧ runEarly.state = .run ∧ runEarly.phase = .wait ∧ ¬attemptDue runEarly) ∧
    (FramerInv runWait ∧ runWait.state = .run ∧ runWait.phase = .wait ∧ attemptDue runWait) :=
  ⟨by decide, ⟨inv_runEarly, by unfold attemptDue; decide⟩, inv_runWait, by unfold attemptDue; decide⟩

/-- A session of one second, and one of two. -/
theorem witness_NormalEndCounts :
    (FramerInv doneNormal ∧ doneNormal.state = .done ∧ doneNormal.success = true ∧ doneNormal.stopped = false ∧
      doneNormal.sPps.toNat ≤ doneNormal.par.tickHz.toNat ∧ 1 ≤ doneNormal.sDur.toNat ∧
      (sessionEvents doneNormal.txlog).countP (isAnswer .wouldBlock) = 0 ∧ doneNormal.sDur.toNat = 1) ∧
    (FramerInv doneTwo ∧ doneTwo.state = .done ∧ doneTwo.success = true ∧ doneTwo.stopped = false ∧
      doneTwo.sPps.toNat ≤ doneTwo.par.tickHz.toNat ∧ 1 ≤ doneTwo.sDur.toNat ∧
      (sessionEvents doneTwo.txlog).countP (isAnswer .wouldBlock) = 0 ∧ 2 ≤ doneTwo.sDur.toNat) :=
  ⟨⟨inv_doneNormal, by decide⟩, inv_doneTwo, by decide⟩

/-- Two classes, three successes: the first class has one more than the second. -/
theorem witness_RoundRobinBalanced :
    FramerInv doneTwo ∧ (sessionEvents doneTwo.txlog).countP (isAnswer .wouldBlock) = 0 ∧
    TxEvent.send 1 1 1 (frameFor idleTwo 1) .success ∈ sessionEvents doneTwo.txlog ∧
    (sessionClasses doneTwo)[0]? = some 7 ∧ (sessionClasses doneTwo)[1]? = some 1 ∧
    (7 : Pcp) ∈ sessionClasses doneTwo ∧ (1 : Pcp) ∈ sessionClasses doneTwo :=
  ⟨inv_doneTwo, by decide⟩

/-- An undefined opcode, a reserved bit, a busy framer, an operand out of range, and commands that run (one while RUN). -/
theorem witness_DecodeOrder :
    (withActs idle [.word 0]).hostq = [.word 0] ∧
    (0 : Word64).extractLsb' 56 8 ∉ opcodes ∧
    ((0x1201000000000000 : Word64).extractLsb' 56 8 ∈ opcodes ∧ (0x1201000000000000 : Word64).extractLsb' 48 8 ≠ 0) ∧
    ((0x0600000000000000 : Word64).extractLsb' 56 8 ∈ opcodes ∧ (0x0600000000000000 : Word64).extractLsb' 48 8 = 0 ∧
      (0x0600000000000000 : Word64).extractLsb' 56 8 ∉ neverBusy ∧ runTop.state = .run) ∧
    ((0x1200000000000000 : Word64).extractLsb' 56 8 ∈ neverBusy ∧
      decode 0x1200000000000000 = .instr (.stop 0) ∧ (Instr.stop 0).wellFormed idle.par = true) ∧
    (idle.state ≠ .run ∧ decode 0x0400000000000002 = .instr (.setprof 1 0) ∧
      (Instr.setprof 1 0).wellFormed idle.par = false) := by decide

theorem witness_IllegalWordsRejected :
    (0x0A00000000000000 : Word64).extractLsb' 56 8 ∉ opcodes ∧
    ((0x2180000000000000 : Word64).extractLsb' 56 8 ∈ opcodes ∧ (0x2180000000000000 : Word64).extractLsb' 48 8 ≠ 0) := by
  decide

theorem witness_ConfigurationFrozenDuringSession :
    (Instr.start 0).opcode ∉ neverBusy ∧ runTop.state = .run := ⟨by decide, notRun_and_run.2⟩

theorem witness_RejectWritesNothingElse :
    runWord 0 idle = .next (rejected 1 idle) ∧ runWord 0x1200000000000000 idle = .next (answered 0 idle) := ⟨rfl, rfl⟩

theorem witness_ControlPositionTransitions :
    exec (.stop 0) idle = .next (answered 0 idle) ∧ (∃ t, exec (.start 0) idle = .next t) ∧
    (∃ t, exec (.stop 0) runTop = .next t) ∧ advance idle = .next (tick idle) ∧ advance runTop = .next (loopTop runTop) ∧
    (∃ t, advance runWait = .next t) := by
  refine ⟨rfl, exists_next ?_, exists_next ?_, rfl, rfl, exists_next ?_⟩ <;> decide

/-- Sticky flags set; a pass, and a word that is rejected. -/
theorem witness_StickyFlags :
    (∃ t, step { idle with trunc := true, cmderr := true, lastrej := 3, hostq := [.pass] } = .next t) ∧
    (∀ rest, (withActs idle [.word 0]).hostq ≠ .reset :: rest) ∧
    step (withActs idle [.word 0]) = .next (rejected 1 idle) ∧ (rejected 1 idle).lastrej ≠ idle.lastrej :=
  ⟨exists_next (by decide), by intro rest h; simp [withActs] at h, rfl, by decide⟩

theorem witness_CachedFramesStay :
    (exec (.rd 0 0x0A) idle = .next (answered 0 idle) ∧ (Instr.rd 0 0x0A).opcode ≠ 0x10 ∧
      (Instr.rd 0 0x0A).opcode ≠ 0x11) ∧
    (∃ t, exec (.build 0 5) idle = .next t) ∧ (4 : Pcp) ≠ 5 ∧ advance idle = .next (tick idle) :=
  ⟨⟨rfl, by decide⟩, exists_next (by decide), by decide, rfl⟩

theorem witness_ResetStepClears : (withActs runTop [.reset]).hostq = [.reset] := rfl

theorem witness_LogStaysBracketed :
    scanLog runTop.txlog = some runTop.hopen ∧ (runTop.hopen = true ↔ runTop.state = .run) ∧
    step runTop = .next (loopTop runTop) := ⟨inv_runTop.log.brackets, inv_runTop.control.handle, rfl⟩

theorem witness_StepRunsDecodedInstruction :
    ((withActs idle [.word 0x1100000000000000]).hostq = [.word 0x1100000000000000] ∧
      decode 0x1100000000000000 = .instr (.start 0)) ∧
    (0x1100000000000000 < 2 ^ 64 ∧ decode (BitVec.ofNat 64 0x1100000000000000) = .instr (.start 0)) ∧
    idle.hostq = [] ∧ (withActs idle [.pass]).hostq = [.pass] := ⟨⟨rfl, by decide⟩, ⟨by decide, by decide⟩, rfl, rfl⟩

theorem witness_EncodeOfDecode : decode 0x0300000000001064 = .instr (.setvlan 1 100) := by decide

theorem witness_StepKeepsInvariant : FramerInv runTop ∧ step runTop = .next (loopTop runTop) := ⟨inv_runTop, rfl⟩

theorem witness_ResetHasInvariant : Params.default.ok = true := by decide

theorem witness_NoStepStops : FramerInv runTop := inv_runTop

theorem witness_EveryRunGoesOn : Params.default.ok = true := by decide

theorem witness_SessionEnds : FramerInv runTop ∧ runTop.state = .run ∧ runTop.hostq = [] :=
  ⟨inv_runTop, by decide⟩

/-- R112's operands as text. -/
def minArgs : List (List Char) :=
  ["eth0".toList, "aa:bb:cc:dd:ee:ff".toList, "11:22:33:44:55:66".toList, "100".toList, "[5]".toList, "1000".toList,
   "1".toList]

theorem witness_InvocationExpands :
    (withActs idle [.txgen false minArgs]).hostq = [.txgen false minArgs] ∧ (minArgs.take 6).length < 7 ∧
    parseMac "aa:bb".toList = none ∧
    parseMac "aa:bb:cc:dd:ee:ff".toList = some 0xAABBCCDDEEFF ∧ parseMac "11:22:33:44:55:66".toList = some 0x112233445566 ∧
    parseArg "100".toList = some 100 ∧ parseClasses "[5]".toList = some [5] ∧ parseArg "1000".toList = some 1000 ∧
    parseArg "1".toList = some 1 ∧ ([] : List (List Char)).length ≤ 1 ∧ ["0x0A".toList].length ≤ 1 ∧
    ["0x0A".toList].map parseArg = [some 10] := ⟨rfl, by decide⟩

theorem witness_HostStopsOnReject :
    ((withActs idle [.invoked 0, .invoked 0, .await]).hostq = .invoked 0 :: ([0].map .invoked ++ .await :: []) ∧
      runWord 0 (withActs idle [.invoked 0, .await]) = .next (rejected 1 (withActs idle [.invoked 0, .await]))) ∧
    ((withActs doneNormal [.await]).hostq = [.await] ∧ (withActs doneNormal [.await]).state = .done) ∧
    ((withActs idle [.await]).hostq = [.await] ∧ (withActs idle [.await]).state ≠ .done) :=
  ⟨⟨rfl, rfl⟩, ⟨rfl, rfl⟩, rfl, by decide⟩

end Sys2Proof.Tests
end

section
/-!
SUPPORT. How one step reads the Host's schedule (00_scope.md R6, R7; 30_encoding.md R104): a word at its head is run, and an
empty schedule or the act `pass` lets the framer's own agents move.
-/

namespace Sys2Proof.Machine

theorem step_word {s : State} {w : Word64} {rest : List HostAct} (h : s.hostq = .word w :: rest) :
    step s = runWord w { s with hostq := rest } := step_cons h

theorem step_pass {s : State} {rest : List HostAct} (h : s.hostq = .pass :: rest) :
    step s = advance { s with hostq := rest } := step_cons h

/-- `withFetchWord` puts the word in front of the schedule of `s`, so taking it off again leaves `s` itself. -/
theorem step_withFetchWord (s : State) (nbits w : Nat) :
    step (s.withFetchWord nbits w) = runWord (BitVec.ofNat 64 (w % 2 ^ nbits)) s := step_word rfl

/-- Settles O47: each kind of schedule has its equation of `step`, and a word that decodes is run by `exec`. -/
theorem stepRunsDecodedInstruction : Obligations.StepRunsDecodedInstruction := by
  refine ⟨fun s rest w i hq hd => ?word, fun s w i hw hd => ?fetched, fun _ => step_nil, fun _ _ => step_pass⟩
  case word => rw [step_word hq, runWord_instr hd]
  case fetched => rw [step_withFetchWord, Nat.mod_eq_of_lt hw, runWord_instr hd]

end Sys2Proof.Machine
end

section
/-!
SUPPORT. Which fields the parts of the invariant of Safety.lean depend on, where Laws/Safety.lean does not say it yet, and
what that gives for a step that leaves the session alone.
-/

namespace Sys2Proof.Machine

theorem ConfigOk.tickHz_pos {s : State} (h : ConfigOk s) : 1 ≤ s.par.tickHz.toNat := by
  have := h.params
  simp only [Params.ok, Bool.and_eq_true, decide_eq_true_eq] at this
  exact this.1

theorem SessionOk.of_eq_stopped {s t : State} (h : SessionOk s) (hr : t.state ≠ .run) (e1 : t.sN = s.sN)
    (e2 : t.sOrder = s.sOrder) : SessionOk t :=
  ⟨by rw [e1]; exact h.count, by rw [sessionClasses_of_eq e1 e2]; exact h.distinct, fun e => absurd e hr,
    fun e => absurd e hr, fun e => absurd e hr⟩

theorem ControlOk.of_eq {s t : State} (h : ControlOk s) (e1 : t.state = s.state) (e2 : t.phase = s.phase)
    (e3 : t.hopen = s.hopen) : ControlOk t :=
  ⟨by rw [e1, e2]; exact h.phase, by rw [e1, e3]; exact h.handle⟩

theorem PaceOk.of_eq {s t : State} (h : PaceOk s) (e1 : t.state = s.state) (e2 : t.phase = s.phase) (e3 : t.now = s.now)
    (e4 : t.startT = s.startT) (e5 : t.sPps = s.sPps) (e6 : t.sDur = s.sDur) (e7 : t.par = s.par) (e8 : t.k = s.k)
    (e9 : t.svalid = s.svalid) (e10 : t.elapsed = s.elapsed) : PaceOk t := by
  obtain ⟨h1, h2, h3, h4, h5, h6, h7⟩ := h
  constructor <;> simp only [sinceStart, durationTicks, plannedAttempts, e1, e2, e3, e4, e5, e6, e7, e8, e9, e10] <;>
    assumption

/-- Outside RUN the pacing says only how many attempts a finished session made. -/
theorem PaceOk.of_stopped {t : State} (hr : t.state ≠ .run) (hd : t.svalid = true → t.state = .done →
      t.k.toNat * t.par.tickHz.toNat ≤ t.elapsed.toNat * t.sPps.toNat + t.par.tickHz.toNat) : PaceOk t :=
  ⟨fun e => absurd e hr, fun e => absurd e hr, fun e => absurd e hr, fun e => absurd e hr, fun e => absurd e hr,
    fun e => absurd e hr, hd⟩

theorem OutcomeOk.of_eq {s t : State} (h : OutcomeOk s) (e1 : t.state = s.state) (e2 : t.success = s.success)
    (e3 : t.err = s.err) (e4 : t.svalid = s.svalid) (e5 : t.stopped = s.stopped) (e6 : t.k = s.k)
    (e7 : t.total = s.total) (e8 : t.elapsed = s.elapsed) : OutcomeOk t := by
  obtain ⟨h1, h2, h3⟩ := h
  constructor <;> simp only [e1, e2, e3, e4, e5, e6, e7, e8] <;> assumption

theorem NormalEndOk.of_eq {s t : State} (h : NormalEndOk s) (e1 : t.state = s.state) (e2 : t.success = s.success)
    (e3 : t.stopped = s.stopped) (e4 : t.elapsed = s.elapsed) (e5 : t.sPps = s.sPps) (e6 : t.sDur = s.sDur)
    (e7 : t.par = s.par) (e8 : t.k = s.k) : NormalEndOk t := by
  simpa only [NormalEndOk, durationTicks, plannedAttempts, e1, e2, e3, e4, e5, e6, e7, e8] using h

theorem LogOk.of_eq {s t : State} (h : LogOk s) (e1 : t.txlog = s.txlog) (e2 : t.hopen = s.hopen) (e3 : t.k = s.k)
    (e4 : t.total = s.total) (e5 : t.cnt = s.cnt) (e6 : t.sN = s.sN) (e7 : t.sOrder = s.sOrder) (e8 : t.sPps = s.sPps)
    (e9 : t.par = s.par) : LogOk t := by
  obtain ⟨h1, h2, h3, h4, h5, h6⟩ := h
  constructor <;> simp only [sessionClasses_of_eq e6 e7, e1, e2, e3, e4, e5, e6, e8, e9] <;> assumption

/-! ### A step that leaves the session alone -/

/-- `t` is `s` but for NOW, the configuration registers, the sticky flags, the frame cache, the response and the Host. -/
def sameSession (s t : State) : Prop :=
  t = { s with
    now := t.now
    dst := t.dst, src := t.src, vlan := t.vlan, profile := t.profile, psize := t.psize, tccnt := t.tccnt
    tclist := t.tclist, pps := t.pps, duration := t.duration
    wDst := t.wDst, wSrc := t.wSrc, wVlan := t.wVlan, wProf := t.wProf, wPps := t.wPps, wDur := t.wDur
    trunc := t.trunc, cmderr := t.cmderr, lastrej := t.lastrej
    fvalid := t.fvalid, flen := t.flen, fs := t.fs
    resp := t.resp, hostq := t.hostq, hostOut := t.hostOut }

/-- Control, counters, outcome and log speak of the session only; the other parts are to be shown. -/
theorem FramerInv.of_sameSession {s t : State} (h : FramerInv s) (e : sameSession s t) (hc : ConfigOk t)
    (hs : SessionOk t) (hf : FramesOk t) (hp : PaceOk t) (hr : RejectOk t) : FramerInv t where
  config := hc
  session := hs
  control := by rw [e]; exact h.control.of_eq rfl rfl rfl
  frames := hf
  counters := by rw [e]; exact h.counters.of_eq rfl rfl rfl rfl rfl rfl rfl
  pace := hp
  outcome := by rw [e]; exact h.outcome.of_eq rfl rfl rfl rfl rfl rfl rfl rfl
  normalEnd := by rw [e]; exact h.normalEnd.of_eq rfl rfl rfl rfl rfl rfl rfl rfl
  rejects := hr
  log := by rw [e]; exact h.log.of_eq rfl rfl rfl rfl rfl rfl rfl rfl rfl

/-- Outside RUN the configuration, the frame cache and NOW can change under a session that is over. -/
theorem FramerInv.of_sameSession_stopped {s t : State} (h : FramerInv s) (hs : s.state ≠ .run) (e : sameSession s t)
    (hc : ConfigOk t) (hf : FramesOk t) (hr : RejectOk t) : FramerInv t := by
  have ht : t.state ≠ .run := by rw [e]; exact hs
  refine h.of_sameSession e hc (h.session.of_eq_stopped ht ?_ ?_) hf (.of_stopped ht ?_) hr
  · rw [e]
  · rw [e]
  · rw [e]; exact h.pace.ended

/-- The same where the frame cache and the reject flags stay too: a configuration command. -/
theorem FramerInv.of_config {s t : State} (h : FramerInv s) (hs : s.state ≠ .run) (e : sameSession s t) (hc : ConfigOk t)
    (hf : t.fs = s.fs ∧ t.flen = s.flen ∧ t.fvalid = s.fvalid) (hr : t.lastrej = s.lastrej ∧ t.cmderr = s.cmderr) :
    FramerInv t := by
  obtain ⟨e1, e2, e3⟩ := hf
  exact h.of_sameSession_stopped hs e hc
    (h.frames.of_eq_stopped (by rw [e]; exact hs) e1 e2 e3 (by rw [e])) (h.rejects.of_eq hr.1 hr.2)

/-- The flags TRUNC, CMDERR and LASTREJ, the response and the Host are outside every other part of the invariant. -/
theorem FramerInv.of_flags {s : State} (h : FramerInv s) (trunc cmderr : Bool) (lastrej : BitVec 8)
    (resp : Option Response) (hostq : List HostAct) (hostOut : Option HostOutcome)
    (hr : lastrej.toNat ≤ 10 ∧ (cmderr = true ↔ lastrej ≠ 0)) :
    FramerInv { s with
      trunc := trunc, cmderr := cmderr, lastrej := lastrej, resp := resp, hostq := hostq, hostOut := hostOut } :=
  h.of_sameSession rfl (h.config.of_eq rfl rfl rfl rfl rfl rfl)
    (h.session.of_eq id rfl rfl rfl rfl rfl rfl rfl rfl rfl)
    (h.frames.of_eq id rfl rfl rfl rfl rfl rfl rfl rfl rfl rfl rfl)
    (h.pace.of_eq rfl rfl rfl rfl rfl rfl rfl rfl rfl rfl) ⟨hr.1, hr.2⟩

theorem FramerInv.reject {s : State} (h : FramerInv s) (r : Reason) : FramerInv (reject r s) :=
  h.of_flags s.trunc true r.code _ s.hostq s.hostOut ⟨r.code_range.2, by cases r <;> decide⟩

theorem FramerInv.respond {s : State} (h : FramerInv s) (d : Word64) : FramerInv (respond d s) :=
  h.of_flags s.trunc s.cmderr s.lastrej _ s.hostq s.hostOut ⟨h.rejects.code, h.rejects.flag⟩

theorem FramerInv.noteTrunc {s : State} (h : FramerInv s) (b : Bool) : FramerInv (noteTrunc b s) :=
  h.of_flags _ s.cmderr s.lastrej s.resp s.hostq s.hostOut ⟨h.rejects.code, h.rejects.flag⟩

theorem FramerInv.withHost {s : State} (h : FramerInv s) (q : List HostAct) (o : Option HostOutcome) :
    FramerInv { s with hostq := q, hostOut := o } :=
  h.of_flags s.trunc s.cmderr s.lastrej s.resp q o ⟨h.rejects.code, h.rejects.flag⟩

end Sys2Proof.Machine
end

section
/-!
SUPPORT. The commands that touch no session keep the invariant: configuration (40_config_commands.md R120 to R128), BUILD
(41_framebuilder.md R150), reset (70_reset_and_hazards.md R220).
-/

namespace Sys2Proof.Machine

/-- A command that is rejected, or else writes registers of the configuration outside RUN. -/
theorem FramerInv.of_reject_or_config {s t u : State} (h : FramerInv s)
    (ht : (∃ r, t = Machine.reject r s) ∨ (s.state ≠ .run ∧ t = u)) (e : sameSession s u) (hc : ConfigOk u)
    (hf : u.fs = s.fs ∧ u.flen = s.flen ∧ u.fvalid = s.fvalid) (hr : u.lastrej = s.lastrej ∧ u.cmderr = s.cmderr) :
    FramerInv t := by
  obtain ⟨r, rfl⟩ | ⟨hs, rfl⟩ := ht
  · exact h.reject r
  · exact h.of_config hs e hc hf hr

theorem execSetpsize_inv {mbz : BitVec 32} {n : BitVec 16} {s t : State} (h : FramerInv s)
    (ht : execSetpsize mbz n s = .next t) : FramerInv t := by
  obtain ⟨r, rfl⟩ | ⟨hs, hn, rfl⟩ := execSetpsize_next ht
  · exact h.reject r
  · exact h.of_config hs rfl ⟨h.config.params, le_max_of_le_right hn, h.config.pps, h.config.tccnt, h.config.distinct⟩
      ⟨rfl, rfl, rfl⟩ ⟨rfl, rfl⟩

theorem execTcclr_inv {mbz : BitVec 48} {s t : State} (h : FramerInv s) (ht : execTcclr mbz s = .next t) :
    FramerInv t :=
  h.of_reject_or_config (execTcclr_next ht) rfl
    ⟨h.config.params, h.config.psize, h.config.pps, Nat.zero_le 8, List.nodup_nil⟩ ⟨rfl, rfl, rfl⟩ ⟨rfl, rfl⟩

theorem execTcpush_inv {hi : BitVec 45} {pcp : Pcp} {s t : State} (h : FramerInv s)
    (ht : execTcpush hi pcp s = .next t) : FramerInv t := by
  obtain ⟨r, rfl⟩ | ⟨hs, hp, hn, rfl⟩ := execTcpush_next ht
  · exact h.reject r
  · have hcount : (s.tccnt + 1).toNat ≤ 8 := by rw [toNat_succ (by decide) (by omega)]; omega
    have hnodup : (classList s ++ [pcp]).Nodup := h.config.distinct.append (by simp) (by simpa using hp)
    rw [← classList_push hn pcp] at hnodup
    exact h.of_config hs rfl ⟨h.config.params, h.config.psize, h.config.pps, hcount, hnodup⟩ ⟨rfl, rfl, rfl⟩ ⟨rfl, rfl⟩

theorem execSetpps_inv {mbz : BitVec 16} {rate : BitVec 32} {s t : State} (h : FramerInv s)
    (ht : execSetpps mbz rate s = .next t) : FramerInv t := by
  obtain ⟨r, rfl⟩ | ⟨hs, hn, rfl⟩ := execSetpps_next ht
  · exact h.reject r
  · have hrate : 1 ≤ rate.toNat := Nat.one_le_iff_ne_zero.2 fun e => hn (BitVec.eq_of_toNat_eq e)
    exact h.of_config hs rfl ⟨h.config.params, h.config.psize, fun _ => hrate, h.config.tccnt, h.config.distinct⟩
      ⟨rfl, rfl, rfl⟩ ⟨rfl, rfl⟩

/-- A frame of the present configuration put into its slot keeps the frame cache, outside RUN. -/
theorem FramesOk.afterInstall {s : State} (h : FramesOk s) (hc : ConfigOk s) (hs : s.state ≠ .run) (c : Pcp) :
    FramesOk (installFrame c (frameFor s c) s) := by
  obtain ⟨hmin, hfit, hmax⟩ := frameFor_length_ok hc c
  have hlen : (BitVec.ofNat 11 (frameFor s c).length).toNat = (frameFor s c).length :=
    Nat.mod_eq_of_lt (Nat.lt_succ_of_le hfit)
  refine ⟨installFrame_wf hfit h.canonical, fun d hd => ?_, fun d hd => ?_, fun e => absurd e hs⟩ <;>
    rw [at8_fvalid_installFrame] at hd
  · rw [at8_flen_installFrame]
    split
    · rw [hlen]; exact ⟨hmin, hmax⟩
    · exact h.lengths d (by simpa [*] using hd)
  · by_cases hcd : c = d
    · subst hcd; rw [bytes_installFrame_same s hfit]; rfl
    · rw [bytes_installFrame_other s hfit hcd]; exact h.whole d (by simpa [hcd] using hd)

theorem sameSession_installFrame (c : Pcp) (f : List Byte) (s : State) : sameSession s (installFrame c f s) := rfl

theorem execBuild_inv {hi : BitVec 45} {c : Pcp} {s t : State} (h : FramerInv s) (ht : execBuild hi c s = .next t) :
    FramerInv t := by
  obtain ⟨r, rfl⟩ | ⟨hs, -, -, rfl⟩ := execBuild_next ht
  · exact h.reject r
  · have hinst : FramerInv (installFrame c (frameFor s c) s) :=
      h.of_sameSession_stopped hs (sameSession_installFrame ..) (h.config.of_eq rfl rfl rfl rfl rfl rfl)
        (h.frames.afterInstall h.config hs c) (h.rejects.of_eq rfl rfl)
    exact (hinst.noteTrunc _).respond _

/-- The state after reset has the invariant, whatever stands in the Host's and the sink's fields. -/
theorem resetWith_inv {p : Params} (hp : p.ok = true) (q : List HostAct) (o : Option HostOutcome) (oq : List OpenAns)
    (sq : List SendAns) (n : Nat) :
    FramerInv { State.resetWith p with hostq := q, hostOut := o, openQ := oq, sendQ := sq, draws := n } where
  config := ⟨hp, Nat.le_max_left .., nofun, Nat.zero_le 8, List.nodup_nil⟩
  session := ⟨Nat.zero_le 8, List.nodup_nil, nofun, nofun, nofun⟩
  control := ⟨fun _ => rfl, iff_of_false nofun nofun⟩
  frames := ⟨rfl, fun c hc => by simp [State.resetWith] at hc, fun c hc => by simp [State.resetWith] at hc, nofun⟩
  counters := ⟨sum_toNat_zero.symm, fun c _ => at8_replicate 0 c, Nat.le_refl 0, Nat.zero_le _⟩
  pace := .of_stopped nofun nofun
  outcome := ⟨fun _ => ⟨rfl, rfl, rfl, rfl, rfl, rfl, rfl⟩, nofun, nofun⟩
  normalEnd := nofun
  rejects := ⟨Nat.zero_le 10, iff_of_false nofun (not_not_intro rfl)⟩
  log := ⟨rfl, rfl, rfl, rfl, fun c => by simp [State.resetWith, sessionEvents], nofun⟩

theorem resetStep_inv {s : State} (h : FramerInv s) : FramerInv (resetStep s) :=
  resetWith_inv h.config.params s.hostq s.hostOut s.openQ s.sendQ s.draws

end Sys2Proof.Machine
end

section
/-!
SUPPORT. The steps of a session keep the invariant: START (42_pacedsender.md R160 to R163), LoopTop (R165), Attempt (R167),
Finish (R168) and Tick (R170). In the arithmetic `p`, `d`, `t` stand for S_PPS, S_DUR, TICK_HZ and `a` for NOW - START_T.
-/

namespace Sys2Proof.Machine

/-! ### Arithmetic of the schedule (R164) -/

/-- Before the duration is over no more than the planned attempts have been made. -/
theorem attempts_le_planned {k p d t a : Nat} (hp : 1 ≤ p) (ha : a < d * t) (hk : k * t ≤ a * p + t) : k ≤ p * d := by
  by_contra hlt
  have h1 : (p * d + 1) * t ≤ k * t := Nat.mul_le_mul_right t (by omega)
  have h2 : (a + 1) * p ≤ d * t * p := Nat.mul_le_mul_right p ha
  have h3 : d * t * p = p * d * t := by ring
  rw [Nat.add_mul] at h1 h2
  omega

/-- An attempt that is not due leaves time in the session. -/
theorem duration_left {k p d t a : Nat} (hk : k ≤ p * d) (ha : a * p < k * t) : a < d * t := by
  by_contra hge
  have h1 : k * t ≤ p * d * t := Nat.mul_le_mul_right t hk
  have h2 : d * t * p ≤ a * p := Nat.mul_le_mul_right p (by omega)
  have h3 : d * t * p = p * d * t := by ring
  omega

/-- At the end of the duration the attempt after the planned ones has been made, if there is at most one a tick. -/
theorem planned_lt_attempts {k p d t : Nat} (hpt : p ≤ t) (hk : (d * t - 1) * p < (k - 1) * t) : p * d < k := by
  by_contra hge
  have h1 : (k - 1) * t ≤ (p * d - 1) * t := Nat.mul_le_mul_right t (by omega)
  have h2 : d * t * p = p * d * t := by ring
  rw [Nat.sub_mul (p * d)] at h1
  rw [Nat.sub_mul (d * t)] at hk
  omega

/-- The planned attempts of two 32-bit factors, and one more, fit the 64 bits of K. -/
theorem plannedAttempts_lt (s : State) : plannedAttempts s + 1 < 2 ^ 64 := by
  have h : plannedAttempts s ≤ (2 ^ 32 - 1) * (2 ^ 32 - 1) :=
    Nat.mul_le_mul (Nat.le_sub_one_of_lt s.sPps.isLt) (Nat.le_sub_one_of_lt s.sDur.isLt)
  omega

/-! ### Time passes -/

theorem due_eq_false_iff (s : State) (k : Nat) :
    due s k = false ↔ sinceStart s * s.sPps.toNat < k * s.par.tickHz.toNat := by
  simp [due]

theorem due_eq_true_iff (s : State) (k : Nat) :
    due s k = true ↔ k * s.par.tickHz.toNat ≤ sinceStart s * s.sPps.toNat := by
  simp [due]

theorem PaceOk.afterTick {s : State} (h : PaceOk s) (hw : s.phase = .wait) (hd : due s s.k.toNat = false) :
    PaceOk (tick s) := by
  by_cases hr : s.state = .run
  case neg => exact .of_stopped hr h.ended
  rw [due_eq_false_iff] at hd
  obtain ⟨hk, -⟩ := h.waiting hr hw
  have hstart := h.started hr
  have hwrap := h.noWrap hr
  have hleft : sinceStart s < durationTicks s := duration_left hk hd
  have hnow : (tick s).now.toNat = s.now.toNat + 1 :=
    toNat_succ (by decide) (by simp only [sinceStart] at hleft; omega)
  have hsince : sinceStart (tick s) = sinceStart s + 1 := by
    simp only [sinceStart, hnow, tick_startT]; omega
  refine ⟨fun _ => ?started, fun _ => ?inside, fun _ => hwrap, fun _ => ?notEarly, fun _ _ => ⟨hk, ?notLate⟩,
    fun _ e => ?atTop, h.ended⟩
  case started => rw [hnow]; exact Nat.le_succ_of_le hstart
  case inside => rw [hsince]; exact hleft
  case notEarly =>
    rw [hsince, Nat.add_mul]
    exact Nat.le_trans (h.notEarly hr) (by simp only [tick_sPps, tick_par]; omega)
  case notLate => rw [hsince]; exact .inr hd
  case atTop => exact absurd (hw.symm.trans e) nofun

theorem tick_inv {s : State} (h : FramerInv s) (hd : s.state = .run → s.phase = .wait ∧ due s s.k.toNat = false) :
    FramerInv (tick s) := by
  refine h.of_sameSession rfl (h.config.of_eq rfl rfl rfl rfl rfl rfl)
    (h.session.of_eq id rfl rfl rfl rfl rfl rfl rfl rfl rfl)
    (h.frames.of_eq id rfl rfl rfl rfl rfl rfl rfl rfl rfl rfl rfl) ?_ (h.rejects.of_eq rfl rfl)
  by_cases hr : s.state = .run
  · exact h.pace.afterTick (hd hr).1 (hd hr).2
  · exact .of_stopped hr h.pace.ended

/-! ### The end of a session (R168) -/

/-- A session that LoopTop ends lasted exactly its duration, with one attempt more than planned if there is at most one a
tick (R172). -/
theorem PaceOk.normalEnd {s : State} (h : PaceOk s) (hr : s.state = .run) (hp : s.phase = .top)
    (hb : s.k.toNat ≤ plannedAttempts s + 1) (hT : 1 ≤ s.par.tickHz.toNat) (hd : durationOver s = true) :
    sinceStart s = durationTicks s ∧
      (s.sPps.toNat ≤ s.par.tickHz.toNat → 1 ≤ s.sDur.toNat → s.k.toNat = plannedAttempts s + 1) := by
  have hsince : sinceStart s = durationTicks s :=
    Nat.le_antisymm (h.inside hr) (by simpa [durationOver, durationTicks] using hd)
  refine ⟨hsince, fun hpt hD => Nat.le_antisymm hb ?_⟩
  have hpos : 1 ≤ durationTicks s := Nat.mul_le_mul hD hT
  obtain h0 | ⟨-, hlate⟩ := h.atTop hr hp
  · omega
  · rw [hsince] at hlate
    exact planned_lt_attempts hpt hlate

theorem finish_log {s : State} (kind : FinishKind) (h : LogOk s) (ho : s.hopen = true) : LogOk (finish kind s) := by
  obtain ⟨h1, h2, h3, h4, h5, h6⟩ := h
  have hc : sessionClasses (finish kind s) = sessionClasses s := sessionClasses_of_eq (by simp) (by simp)
  constructor <;>
    simp only [hc, finish_txlog, finish_hopen, finish_k, finish_total, finish_cnt, finish_sN, finish_par, finish_sPps,
      sessionEvents_closed, List.countP_append, List.filterMap_append, scanLog_append, h1, ho]
  · rfl
  · simpa [isAnswer] using h2
  · simpa [attemptIndex, List.filterMap_cons] using h3
  · simpa [isAnswer] using h4
  · simpa [isSuccessOf] using h5
  · simpa using h6

/-- Finish of a running session keeps the invariant; the kind `normal` is LoopTop's, at the end of the duration. -/
theorem finish_inv {s : State} {kind : FinishKind} (h : FramerInv s) (hr : s.state = .run)
    (hn : kind = .normal → s.phase = .top ∧ durationOver s = true) : FramerInv (finish kind s) := by
  have hstop : (finish kind s).state ≠ .run := by simp
  refine ⟨h.config.of_eq ?_ ?_ ?_ ?_ ?_ ?_, h.session.of_eq_stopped hstop ?_ ?_, ⟨fun _ => finish_phase kind s, ?_⟩,
    h.frames.of_eq_stopped hstop ?_ ?_ ?_ ?_, h.counters.of_eq ?_ ?_ ?_ ?_ ?_ ?_ ?_, .of_stopped hstop fun _ _ => ?pace,
    ⟨?_, ?_, fun _ => ?outcome⟩, fun _ hs hst => ?normalEnd, h.rejects.of_eq ?_ ?_,
    finish_log kind h.log (h.control.handle.2 hr)⟩
  case pace => simpa [-BitVec.toNat_ofNat, elapsed_toNat] using h.pace.notEarly hr
  case outcome =>
    obtain ⟨-, -, hv, -, -⟩ := h.outcome.run hr
    cases kind <;> simp [hv]
  case normalEnd =>
    have hk : kind = .normal := by cases kind <;> simp at hs hst ⊢
    obtain ⟨hp, hd⟩ := hn hk
    have := h.pace.normalEnd hr hp h.counters.bound h.config.tickHz_pos hd
    simpa [-BitVec.toNat_ofNat, elapsed_toNat, durationTicks, plannedAttempts] using this
  all_goals simp

/-! ### LoopTop goes on (R165) -/

theorem PaceOk.enterWait {s : State} (h : PaceOk s) (hr : s.state = .run) (hp : s.phase = .top)
    (hk : s.k.toNat ≤ plannedAttempts s) : PaceOk (setPosition .run .wait s) := by
  refine ⟨fun _ => h.started hr, fun _ => h.inside hr, fun _ => h.noWrap hr, fun _ => h.notEarly hr,
    fun _ _ => ⟨hk, (h.atTop hr hp).imp_right fun ⟨_, hlate⟩ => ?_⟩, fun _ => nofun, fun _ => nofun⟩
  exact Nat.lt_of_lt_of_le hlate (Nat.mul_le_mul_right _ (Nat.sub_le ..))

theorem loopTop_inv {s : State} (h : FramerInv s) (hr : s.state = .run) (hp : s.phase = .top) :
    FramerInv (loopTop s) := by
  unfold loopTop
  split
  case isTrue hd => exact finish_inv h hr fun _ => ⟨hp, hd⟩
  case isFalse hd =>
    have hlt : sinceStart s < durationTicks s := by simpa [durationOver, durationTicks] using hd
    have hk : s.k.toNat ≤ plannedAttempts s := attempts_le_planned (h.session.rate hr) hlt (h.pace.notEarly hr)
    exact {
      config := h.config.of_eq rfl rfl rfl rfl rfl rfl
      session := h.session.of_eq (fun _ => hr) rfl rfl rfl rfl rfl rfl rfl rfl rfl
      control := ⟨fun e => absurd rfl e, iff_of_true (h.control.handle.2 hr) rfl⟩
      frames := h.frames.of_eq (fun _ => hr) rfl rfl rfl rfl rfl rfl rfl rfl rfl rfl rfl
      counters := h.counters.of_eq rfl rfl rfl rfl rfl rfl rfl
      pace := h.pace.enterWait hr hp hk
      outcome := ⟨nofun, fun _ => h.outcome.run hr, nofun⟩
      normalEnd := nofun
      rejects := h.rejects.of_eq rfl rfl
      log := h.log.of_eq rfl rfl rfl rfl rfl rfl rfl rfl rfl }

/-! ### Attempt (R166, R167) -/

/-- The log one attempt longer: what the answer `r` adds to K, TOTAL and CNT is what it adds to the counts of the log. -/
theorem LogOk.afterAttempt {s t : State} {n : Nat} {c : Pcp} {f : List Byte} {r : SendAns} (h : LogOk s)
    (hlog : t.txlog = s.txlog ++ [.send n s.k c f r]) (ho : s.hopen = true ∧ t.hopen = true)
    (hk : t.k.toNat = s.k.toNat + if r = .error then 0 else 1)
    (htot : t.total.toNat = s.total.toNat + if r = .success then 1 else 0)
    (hcnt : ∀ d, (at8 t.cnt d).toNat = (at8 s.cnt d).toNat + if c = d ∧ r = .success then 1 else 0)
    (e1 : t.sN = s.sN) (e2 : t.sOrder = s.sOrder) (e3 : t.sPps = s.sPps) (e4 : t.par = s.par)
    (hsched : (sessionClasses s)[s.k.toNat % s.sN.toNat]? = some c ∧
      s.k.toNat * s.par.tickHz.toNat ≤ n * s.sPps.toNat ∧
      (n = 0 ∨ (n - 1) * s.sPps.toNat < s.k.toNat * s.par.tickHz.toNat)) : LogOk t := by
  obtain ⟨h1, h2, h3, h4, h5, h6⟩ := h
  constructor <;>
    simp only [sessionClasses_of_eq e1 e2, hlog, e1, e3, e4, sessionEvents_send, List.countP_append,
      List.filterMap_append, scanLog_append, h1, ho]
  case brackets => rfl
  case index => rw [hk, h2]; cases r <;> simp [isAnswer, Nat.add_assoc, Nat.add_comm 1]
  case indices => rw [hk, h3]; cases r <;> simp [attemptIndex, List.range_succ]
  case total => rw [htot, h4]; cases r <;> simp [isAnswer]
  case perClass => intro d; rw [hcnt, h5]; cases r <;> simp [isSuccessOf, List.countP_cons]
  case schedule =>
    intro t' k' c' f' r' hm
    rcases List.mem_append.1 hm with hm | hm
    · exact h6 t' k' c' f' r' hm
    · obtain ⟨rfl, rfl, rfl, -, -⟩ : t' = n ∧ k' = s.k ∧ c' = c ∧ f' = f ∧ r' = r := by simpa using hm
      exact hsched

/-- In RUN/WAIT the attempt index has room for one more. -/
theorem toNat_k_succ {s : State} (hk : s.k.toNat ≤ plannedAttempts s) : (s.k + 1).toNat = s.k.toNat + 1 :=
  toNat_succ (by decide) (Nat.lt_of_le_of_lt (Nat.succ_le_succ hk) (plannedAttempts_lt s))

theorem PaceOk.afterAttempt {s : State} (h : PaceOk s) (hr : s.state = .run) (hw : s.phase = .wait)
    (hd : due s s.k.toNat = true) : PaceOk (advanceIndex s) := by
  obtain ⟨hk, hlate⟩ := h.waiting hr hw
  have hsucc : (advanceIndex s).k.toNat = s.k.toNat + 1 := toNat_k_succ hk
  rw [due_eq_true_iff] at hd
  refine ⟨fun _ => h.started hr, fun _ => h.inside hr, fun _ => h.noWrap hr, fun _ => ?notEarly, fun _ => nofun,
    fun _ _ => hlate.imp_right fun hl => ?atTop, fun _ => nofun⟩
  case notEarly =>
    rw [hsucc, Nat.add_mul, Nat.one_mul]
    exact Nat.add_le_add_right hd _
  case atTop => rw [hsucc]; exact ⟨Nat.succ_pos _, hl⟩

theorem CountersOk.afterAttempt {s : State} (h : CountersOk s) (hk : s.k.toNat ≤ plannedAttempts s) :
    CountersOk (advanceIndex s) := by
  have hsucc : (advanceIndex s).k.toNat = s.k.toNat + 1 := toNat_k_succ hk
  refine ⟨h.sum, h.outside, ?_, ?_⟩ <;> rw [hsucc]
  · exact Nat.le_succ_of_le h.drops
  · exact Nat.succ_le_succ hk

/-- Neither TOTAL nor a counter of a class can wrap: both are at most K. -/
theorem CountersOk.toNat_success {s : State} (h : CountersOk s) (hk : s.k.toNat ≤ plannedAttempts s) (c : Pcp) :
    (s.total + 1).toNat = s.total.toNat + 1 ∧ (at8 s.cnt c + 1).toNat = (at8 s.cnt c).toNat + 1 := by
  have hmax := plannedAttempts_lt s
  have htotal := h.drops
  have hcnt : (at8 s.cnt c).toNat ≤ s.total.toNat := h.sum ▸ at8_le_sum s.cnt c
  exact ⟨toNat_succ (by decide) (by omega), toNat_succ (by decide) (by omega)⟩

theorem CountersOk.afterSuccess {s : State} (h : CountersOk s) (hk : s.k.toNat ≤ plannedAttempts s) {c : Pcp}
    (hc : c ∈ sessionClasses s) : CountersOk (advanceIndex (countSuccess c s)) := by
  obtain ⟨ht, hn⟩ := h.toNat_success hk c
  have hsucc : (s.k + 1).toNat = s.k.toNat + 1 := toNat_k_succ hk
  have hsum := sum_toNat_set8 s.cnt c (at8 s.cnt c + 1)
  refine ⟨?sum, fun d hd => ?outside, ?drops, ?bound⟩
  case sum =>
    have := h.sum
    simp only [countSum] at this
    simp only [countSum, advanceIndex_total, advanceIndex_cnt, countSuccess_total, countSuccess_cnt, ht]
    omega
  case outside =>
    have hcd : c ≠ d := fun e => hd (e ▸ hc)
    simpa [at8_set8_ne _ _ hcd] using h.outside d hd
  case drops =>
    simp only [advanceIndex_total, advanceIndex_k, countSuccess_total, countSuccess_k, ht, hsucc]
    exact Nat.succ_le_succ h.drops
  case bound =>
    simp only [advanceIndex_k, countSuccess_k, hsucc]
    exact Nat.succ_le_succ hk

/-- The index advanced after a due attempt: only the log and the counters are to be shown. -/
theorem advanceIndex_inv {s u : State} (h : FramerInv s) (hr : s.state = .run) (hw : s.phase = .wait)
    (hd : due s s.k.toNat = true)
    (e : u = { s with txlog := u.txlog, cnt := u.cnt, total := u.total, sendQ := u.sendQ, draws := u.draws })
    (hc : CountersOk (advanceIndex u)) (hl : LogOk (advanceIndex u)) : FramerInv (advanceIndex u) where
  config := by rw [e]; exact h.config.of_eq rfl rfl rfl rfl rfl rfl
  session := by rw [e]; exact h.session.of_eq (fun _ => hr) rfl rfl rfl rfl rfl rfl rfl rfl rfl
  control := ⟨fun e => absurd rfl e, by rw [e]; exact iff_of_true (h.control.handle.2 hr) rfl⟩
  frames := by rw [e]; exact h.frames.of_eq (fun _ => hr) rfl rfl rfl rfl rfl rfl rfl rfl rfl rfl rfl
  counters := hc
  pace := by rw [e]; exact (h.pace.afterAttempt hr hw hd).of_eq rfl rfl rfl rfl rfl rfl rfl rfl rfl rfl
  outcome := ⟨nofun, fun _ => by rw [e]; exact h.outcome.run hr, nofun⟩
  normalEnd := nofun
  rejects := by rw [e]; exact h.rejects.of_eq rfl rfl
  log := hl

/-- An attempt logged and answered `error` leaves everything but the log. -/
theorem sendSink_error_inv {s : State} {c : Pcp} {f : List Byte} (h : FramerInv s) (hl : LogOk (sendSink c f s)) :
    FramerInv (sendSink c f s) where
  config := h.config.of_eq rfl rfl rfl rfl rfl rfl
  session := h.session.of_eq id rfl rfl rfl rfl rfl rfl rfl rfl rfl
  control := h.control.of_eq rfl rfl rfl
  frames := h.frames.of_eq id rfl rfl rfl rfl rfl rfl rfl rfl rfl rfl rfl
  counters := h.counters.of_eq rfl rfl rfl rfl rfl rfl rfl
  pace := h.pace.of_eq rfl rfl rfl rfl rfl rfl rfl rfl rfl rfl
  outcome := h.outcome.of_eq rfl rfl rfl rfl rfl rfl rfl rfl
  normalEnd := h.normalEnd.of_eq rfl rfl rfl rfl rfl rfl rfl rfl
  rejects := h.rejects.of_eq rfl rfl
  log := hl

theorem settleAttempt_inv {s : State} {c : Pcp} (f : List Byte) (h : FramerInv s) (hr : s.state = .run)
    (hw : s.phase = .wait) (hd : due s s.k.toNat = true) (hc : attemptClass s = some c) :
    FramerInv (settleAttempt c (sendAnswer s) (sendSink c f s)) := by
  obtain ⟨hk, hlate⟩ := h.pace.waiting hr hw
  have hopen : s.hopen = true := h.control.handle.2 hr
  have hsched := And.intro hc (And.intro ((due_eq_true_iff ..).1 hd) hlate)
  have hsucc : (s.k + 1).toNat = s.k.toNat + 1 := toNat_k_succ hk
  have hcounters : CountersOk (sendSink c f s) := h.counters.of_eq rfl rfl rfl rfl rfl rfl rfl
  cases ha : sendAnswer s with
  | error =>
    refine finish_inv (sendSink_error_inv h ?_) hr nofun
    exact h.log.afterAttempt rfl ⟨hopen, hopen⟩ (by simp [ha]) (by simp [ha]) (by simp [ha]) rfl rfl rfl rfl hsched
  | wouldBlock =>
    refine advanceIndex_inv h hr hw hd rfl (hcounters.afterAttempt hk) ?_
    exact h.log.afterAttempt rfl ⟨hopen, hopen⟩ (by simpa [ha] using hsucc) (by simp [ha]) (by simp [ha])
      rfl rfl rfl rfl hsched
  | success =>
    obtain ⟨ht, hn⟩ := h.counters.toNat_success hk c
    have hmem : c ∈ sessionClasses s := List.mem_of_getElem? hc
    refine advanceIndex_inv h hr hw hd rfl (hcounters.afterSuccess hk hmem) ?_
    refine h.log.afterAttempt rfl ⟨hopen, hopen⟩ (by simpa [ha] using hsucc) (by simpa [ha] using ht) (fun d => ?_)
      rfl rfl rfl rfl hsched
    by_cases hcd : c = d
    · subst hcd; simpa [ha] using hn
    · simp [ha, hcd, at8_set8_ne]

theorem attempt_inv {s t : State} (h : FramerInv s) (hr : s.state = .run) (hw : s.phase = .wait)
    (hd : due s s.k.toNat = true) (ht : attempt s = .next t) : FramerInv t := by
  obtain ⟨c, f, hc, -, -, rfl⟩ := attempt_next ht
  exact settleAttempt_inv f h hr hw hd hc

/-- Whatever the framer's own agents do keeps the invariant. -/
theorem advance_inv {s t : State} (h : FramerInv s) (ht : advance s = .next t) : FramerInv t := by
  obtain ⟨hr, hp, rfl⟩ | ⟨hr, hw, hd, ht⟩ | ⟨hr, hw, hd, rfl⟩ | ⟨hr, rfl⟩ := advance_next ht
  · exact loopTop_inv h hr hp
  · exact attempt_inv h hr hw hd ht
  · exact tick_inv h fun _ => ⟨hw, hd⟩
  · exact tick_inv h fun e => absurd e hr

end Sys2Proof.Machine
end

section
/-!
SUPPORT. START keeps the invariant (42_pacedsender.md R160 to R163, 60_exceptions.md R192), and with it every step does.
-/

namespace Sys2Proof.Machine

/-! ### START -/

/-- A session that begins has no attempt: no counter and no event of its own. -/
theorem LogOk.afterOpen {s t : State} {r : OpenAns} (h : LogOk s) (ho : s.hopen = false)
    (hlog : t.txlog = s.txlog ++ [.opened r]) (hopen : t.hopen = decide (r = .ok)) (hk : t.k = 0) (htot : t.total = 0)
    (hcnt : t.cnt = Vector.replicate 8 0) : LogOk t := by
  constructor <;> simp only [hlog, hopen, hk, htot, hcnt, scanLog_append, sessionEvents_opened, h.brackets, ho]
  case brackets => cases r <;> rfl
  case perClass => simp
  case schedule => nofun
  all_goals rfl

theorem CountersOk.of_zero {t : State} (hk : t.k = 0) (htot : t.total = 0) (hcnt : t.cnt = Vector.replicate 8 0) :
    CountersOk t := by
  constructor <;> simp only [hk, htot, hcnt, countSum, sum_toNat_zero] <;> simp

/-- The classes of a session that begins are those configured. -/
theorem SessionOk.ofConfig {s t : State} (h : ConfigOk s) (e1 : t.sN = s.tccnt) (e2 : t.sOrder = s.tclist)
    (hrun : t.state = .run → 1 ≤ t.sN.toNat ∧ 1 ≤ t.sPps.toNat ∧
      t.sPsize = t.psize ∧ t.sProf = t.profile ∧ t.sVlan = t.vlan) : SessionOk t := by
  have hc : sessionClasses t = classList s := by simp only [sessionClasses, classList, e1, e2]
  exact ⟨by rw [e1]; exact h.tccnt, by rw [hc]; exact h.distinct, fun e => (hrun e).1, fun e => (hrun e).2.1,
    fun e => (hrun e).2.2⟩

/-- The raise procedure without the match on the exception. -/
theorem raise_handleAcquisition (s : State) :
    raise .handleAcquisition s =
      { s with
        err := 2, success := false, svalid := false, stopped := false, state := .done, phase := .top
        resp := some ⟨.ok, 0⟩ } := rfl

/-- R192: the sink does not open. -/
theorem startFail_inv {s t : State} (h : FramerInv s) (hs : s.state ≠ .run) (ho : openAnswer s = .fail)
    (ht : t = raise .handleAcquisition (openSink (clearResult s))) : FramerInv t := by
  have hopen : s.hopen = false := Bool.eq_false_iff.2 fun e => hs (h.control.handle.1 e)
  rw [raise_handleAcquisition] at ht
  exact {
    config := by rw [ht]; exact h.config.of_eq rfl rfl rfl rfl rfl rfl
    session := .ofConfig h.config (by rw [ht]; rfl) (by rw [ht]; rfl) (by rw [ht]; exact nofun)
    control := by rw [ht]; exact ⟨fun _ => rfl, iff_of_false (fun e => hs (h.control.handle.1 e)) nofun⟩
    frames := by rw [ht]; exact h.frames.of_eq_stopped nofun rfl rfl rfl rfl
    counters := .of_zero (by rw [ht]; rfl) (by rw [ht]; rfl) (by rw [ht]; rfl)
    pace := by rw [ht]; exact .of_stopped nofun nofun
    outcome := by rw [ht]; exact ⟨nofun, nofun, fun _ => .inr (.inr ⟨rfl, rfl, rfl, rfl, rfl, rfl, rfl⟩)⟩
    normalEnd := by rw [ht]; exact nofun
    rejects := by rw [ht]; exact h.rejects.of_eq rfl rfl
    log := h.log.afterOpen (r := openAnswer s) hopen (by rw [ht]; rfl) (by rw [ht, ho]; exact hopen) (by rw [ht]; rfl)
      (by rw [ht]; rfl) (by rw [ht]; rfl) }

/-- R162: the frame cache after every slot was invalidated and each class of the list had its frame built. -/
theorem FramesOk.afterStart {s t : State} (h : FramesOk s) (hc : ConfigOk s)
    (ht : t = enterLoop (openSink (clearResult s))) : FramesOk t := by
  have hlen := frameFor_length_ok hc
  have hfit (c : Pcp) : (frameFor s c).length ≤ frameLenMax := (hlen c).2.1
  have hvalid (c : Pcp) : at8 t.fvalid c = true ↔ c ∈ classList s := by
    rw [ht, enterLoop_start]
    simp [installFrames_fvalid, startBase]
  have hbuilt (c : Pcp) (hm : c ∈ classList s) : (at8 t.flen c).toNat = (frameFor s c).length ∧
      t.fs.bytes (slotBase c) (frameFor s c).length = some (frameFor s c) := by
    rw [ht, enterLoop_start]
    exact (installFrames_built hfit (classList s) (startBase s) c).1 hm
  have hframe (c : Pcp) : frameFor t c = frameFor s c := by
    rw [ht, enterLoop_eq]
    rfl
  have hclasses : sessionClasses t = classList s := by
    rw [ht, enterLoop_eq]
    rfl
  have hpar : t.par = s.par := by
    rw [ht, enterLoop_eq]
    rfl
  refine ⟨?canonical, fun c hv => ?lengths, fun c hv => ?whole, fun _ c hm => ?built⟩
  case canonical =>
    rw [ht, enterLoop_start]
    exact installFrames_wf hfit (classList s) h.canonical
  case lengths =>
    rw [(hbuilt c ((hvalid c).1 hv)).1, hpar]
    exact ⟨(hlen c).1, (hlen c).2.2⟩
  case whole =>
    obtain ⟨hl, hb⟩ := hbuilt c ((hvalid c).1 hv)
    rw [hl, hb]
    rfl
  case built =>
    rw [hclasses] at hm
    obtain ⟨hl, hb⟩ := hbuilt c hm
    exact ⟨(hvalid c).2 hm, by rw [hl, hb, hframe]⟩

/-- At the tick of START no time has passed and no attempt is made (R161, R163). -/
theorem PaceOk.ofStart {t : State} (hrun : t.state = .run) (htop : t.phase = .top) (hnow : t.startT = t.now)
    (hk : t.k = 0) (hend : t.now.toNat + durationTicks t < 2 ^ 64) : PaceOk t := by
  have h0 : sinceStart t = 0 := by simp [sinceStart, hnow]
  refine ⟨fun _ => by rw [hnow], fun _ => by rw [h0]; exact Nat.zero_le _, fun _ => by rw [hnow]; exact hend,
    fun _ => by simp [hk], fun _ e => ?_, fun _ _ => .inl h0, fun _ e => ?_⟩
  · exact absurd (htop.symm.trans e) nofun
  · exact absurd (hrun.symm.trans e) nofun

/-- R161 to R163: the sink opens, the frames are built, the loop is entered. -/
theorem startOk_inv {s t : State} (h : FramerInv s) (hs : s.state ≠ .run) (hw : cfgRunOk s = true) (hn : s.tccnt ≠ 0)
    (he : sessionEnd s < 2 ^ 64) (ho : openAnswer s = .ok) (ht : t = enterLoop (openSink (clearResult s))) :
    FramerInv t := by
  have hframes : FramesOk t := h.frames.afterStart h.config ht
  have hpps : 1 ≤ s.pps.toNat := h.config.pps (by simp only [cfgRunOk, Bool.and_eq_true] at hw; exact hw.1.2)
  have hcount : 1 ≤ s.tccnt.toNat := Nat.one_le_iff_ne_zero.2 fun e => hn (BitVec.eq_of_toNat_eq e)
  have hopen : s.hopen = false := Bool.eq_false_iff.2 fun e => hs (h.control.handle.1 e)
  rw [enterLoop_eq] at ht
  exact {
    config := by rw [ht]; exact h.config.of_eq rfl rfl rfl rfl rfl rfl
    session := .ofConfig h.config (by rw [ht]; rfl) (by rw [ht]; rfl) (by
      rw [ht]; exact fun _ => ⟨hcount, hpps, rfl, rfl, rfl⟩)
    control := by rw [ht]; exact ⟨fun e => absurd rfl e, iff_of_true rfl rfl⟩
    frames := hframes
    counters := .of_zero (by rw [ht]; rfl) (by rw [ht]; rfl) (by rw [ht]; rfl)
    pace := .ofStart (by rw [ht]) (by rw [ht]) (by rw [ht]; rfl) (by rw [ht]; rfl) (by rw [ht]; exact he)
    outcome := by rw [ht]; exact ⟨nofun, fun _ => ⟨rfl, rfl, rfl, rfl, rfl⟩, nofun⟩
    normalEnd := by rw [ht]; exact nofun
    rejects := h.rejects.of_eq (by rw [ht]; rfl) (by rw [ht]; rfl)
    log := h.log.afterOpen (r := openAnswer s) hopen (by rw [ht]; rfl) (by rw [ht, ho]; rfl) (by rw [ht]; rfl)
      (by rw [ht]; rfl) (by rw [ht]; rfl) }

theorem execStart_inv {mbz : BitVec 48} {s t : State} (h : FramerInv s) (ht : execStart mbz s = .next t) :
    FramerInv t := by
  obtain ⟨r, rfl⟩ | ⟨hs, hw, hn, he, ⟨ho, ht⟩ | ⟨ho, -, ht⟩⟩ := execStart_next ht
  · exact h.reject r
  · exact startFail_inv h hs ho ht
  · exact startOk_inv h hs hw hn he ho ht

/-! ### Every command, every step -/

theorem execStop_inv {mbz : BitVec 48} {s t : State} (h : FramerInv s) (ht : execStop mbz s = .next t) :
    FramerInv t := by
  obtain ⟨r, rfl⟩ | ⟨hr, rfl⟩ | ⟨-, rfl⟩ := execStop_next ht
  · exact h.reject r
  · exact (finish_inv (kind := .stopped) h hr nofun).respond 0
  · exact h.respond 0

/-- Every command keeps the invariant. DST, SRC, VLAN, PROFILE and DURATION are in no part of it that speaks of a state
outside RUN, and the reads write nothing but the response. -/
theorem exec_inv {i : Instr} {s t : State} (h : FramerInv s) (ht : exec i s = .next t) : FramerInv t := by
  cases i with
  | setdst mac =>
    exact h.of_reject_or_config (execSetdst_next ht) rfl (h.config.of_eq rfl rfl rfl rfl rfl rfl)
      ⟨rfl, rfl, rfl⟩ ⟨rfl, rfl⟩
  | setsrc mac =>
    exact h.of_reject_or_config (execSetsrc_next ht) rfl (h.config.of_eq rfl rfl rfl rfl rfl rfl)
      ⟨rfl, rfl, rfl⟩ ⟨rfl, rfl⟩
  | setvlan hi vid =>
    exact h.of_reject_or_config (execSetvlan_next ht) rfl (h.config.of_eq rfl rfl rfl rfl rfl rfl)
      ⟨rfl, rfl, rfl⟩ ⟨rfl, rfl⟩
  | setprof mbz prof =>
    exact h.of_reject_or_config (execSetprof_next ht) rfl (h.config.of_eq rfl rfl rfl rfl rfl rfl)
      ⟨rfl, rfl, rfl⟩ ⟨rfl, rfl⟩
  | setdur mbz seconds =>
    exact h.of_reject_or_config (execSetdur_next ht) rfl (h.config.of_eq rfl rfl rfl rfl rfl rfl)
      ⟨rfl, rfl, rfl⟩ ⟨rfl, rfl⟩
  | setpsize mbz n => exact execSetpsize_inv h ht
  | tcclr mbz => exact execTcclr_inv h ht
  | tcpush hi pcp => exact execTcpush_inv h ht
  | setpps mbz rate => exact execSetpps_inv h ht
  | build hi pcp => exact execBuild_inv h ht
  | start mbz => exact execStart_inv h ht
  | stop mbz => exact execStop_inv h ht
  | rd mbz reg =>
    obtain ⟨r, rfl⟩ | ⟨-, d, -, -, rfl⟩ := execRd_next ht
    · exact h.reject r
    · exact h.respond d
  | rdfb mbz slot off =>
    obtain ⟨r, rfl⟩ | ⟨d, rfl⟩ := execRdfb_next ht
    · exact h.reject r
    · exact h.respond d

theorem runWord_inv {w : Word64} {s t : State} (h : FramerInv s) (ht : runWord w s = .next t) : FramerInv t := by
  obtain ⟨r, rfl⟩ | ⟨i, -, hi⟩ := runWord_next ht
  · exact h.reject r
  · exact exec_inv h hi

/-- Settles O51: a step is nothing, a reset, a command word or a step of the framer's own agents, up to the Host's fields,
and each of these keeps the invariant. -/
theorem stepKeepsInvariant : Obligations.StepKeepsInvariant := by
  intro s t h ht
  obtain ⟨q, q', o', u, rfl, hu⟩ := step_next ht
  have hq : FramerInv { s with hostq := q } := h.withHost q s.hostOut
  refine FramerInv.withHost ?_ q' o'
  obtain rfl | rfl | ⟨w, hw⟩ | ha := hu
  · exact hq
  · exact resetStep_inv hq
  · exact runWord_inv hq hw
  · exact advance_inv hq ha

end Sys2Proof.Machine
end

section
/-!
SUPPORT. The reads: the word of a command decodes to it (30_encoding.md R100 to R104), what `RD` answers (10_state.md R49,
40_config_commands.md R130), and the two packed words, TC_LIST (R49) and STATUS (R48).
-/

namespace Sys2Proof.Machine

open Sys2Proof.Claims

/-- The word of an opcode and an operand decodes as its opcode says: its reserved field is 0. -/
theorem decode_word_of_selectOp {op : BitVec 8} {arg : BitVec 48} {i : Instr} (h : selectOp op arg = some i) :
    decode (word op arg) = .instr i := by
  obtain ⟨hop, hrsv, harg⟩ : opField (word op arg) = op ∧ rsvField (word op arg) = 0 ∧ argField (word op arg) = arg :=
    Laws.OpcodeField.commandWord_fields op arg
  simp [decode, hop, hrsv, harg, h]

theorem decode_word_rd (mbz : BitVec 40) (r : BitVec 8) : decode (word 0x20 (mbz ++ r)) = .instr (.rd mbz r) := by
  have hmbz : BitVec.extractLsb' 8 40 (mbz ++ r) = mbz := BitVec.extractLsb'_append_eq_left
  have hreg : BitVec.extractLsb' 0 8 (mbz ++ r) = r := BitVec.extractLsb'_append_eq_right
  refine decode_word_of_selectOp ?_
  show some (Instr.rd _ _) = _
  rw [hmbz, hreg]

/-! ### RD -/

theorem exec_rd_oprange {mbz : BitVec 40} (h : mbz ≠ 0) (reg : BitVec 8) (s : State) :
    exec (.rd mbz reg) s = .next (rejected 3 s) :=
  check_of_not (by simpa using h)

/-- A register number beyond 0x28 is not in the table. -/
theorem regOfNumber_eq_none {reg : BitVec 8} (h : 0x28 < reg.toNat) : regOfNumber reg = none := by
  unfold regOfNumber
  generalize reg.toNat = n at h
  split
  case h_26 => rw [if_neg (by omega), if_neg (by omega)]
  all_goals omega

theorem exec_rd_badreg {reg : BitVec 8} (h : regOfNumber reg = none) (s : State) :
    exec (.rd 0 reg) s = .next (rejected 8 s) := by
  simp only [exec, execRd, h]
  rfl

theorem exec_rd_register {reg : BitVec 8} {r : Reg} (h : regOfNumber reg = some r) (s : State) :
    exec (.rd 0 reg) s = answerRead (readReg s r) s := by
  simp only [exec, execRd, h]
  rfl

/-- A register that is always readable answers its value. -/
theorem exec_rd_value {reg : BitVec 8} {r : Reg} {s : State} {v : Word64} (h : regOfNumber reg = some r)
    (hv : readReg s r = .ok v) : exec (.rd 0 reg) s = .next (answered v s) := by
  rw [exec_rd_register h, hv]
  rfl

/-- A register with a condition answers its value, or is rejected for its reason. -/
theorem exec_rd_readIf {reg : BitVec 8} {r : Reg} {s : State} {b : Bool} {e : Reason} {v : Word64}
    (h : regOfNumber reg = some r) (hv : readReg s r = readIf b e v) :
    exec (.rd 0 reg) s = .next (if b then answered v s else rejected e.code s) := by
  rw [exec_rd_register h, hv]
  cases b <;> rfl

/-- A configuration register is rejected UNSET until it is written. -/
theorem exec_rd_written {reg : BitVec 8} {r : Reg} {s : State} {b : Bool} {v : Word64} (h : regOfNumber reg = some r)
    (hv : readReg s r = readIf b .unset v) :
    exec (.rd 0 reg) s = .next (if b then answered v s else rejected 5 s) := exec_rd_readIf h hv

theorem regOfNumber_cnt (c : Pcp) : regOfNumber (0x10 + c.setWidth 8) = some (.cnt c) := by
  revert c; decide

theorem regOfNumber_flen (c : Pcp) : regOfNumber (0x18 + c.setWidth 8) = some (.flen c) := by
  revert c; decide

/-! ### TC_LIST and STATUS -/

/-- Entry `i` of a packed class list stands in the four bits from 4i on; there are none beyond the list's end. -/
theorem packClasses_nibble (cs : List Pcp) {i : Nat} (hi : i < 8) :
    (packClasses cs).extractLsb' (4 * i) 4 = (cs[i]?.map (BitVec.setWidth 4)).getD 0 := by
  induction cs generalizing i with
  | nil => simp [packClasses]
  | cons c cs ih =>
    ext j hj
    cases i with
    | zero => simp [packClasses, hj, Nat.lt_trans hj]
    | succ i =>
      rw [List.getElem?_cons_succ, ← ih (by omega)]
      have hc : c.getLsbD (4 * (i + 1) + j) = false := c.getLsbD_of_ge _ (by omega)
      have h32 : 4 * (i + 1) + j < 32 := by omega
      have h4 : ¬ (4 * (i + 1) + j < 4) := by omega
      have hj' : 4 * (i + 1) + j - 4 = 4 * i + j := by omega
      simp only [packClasses, BitVec.getElem_extractLsb', BitVec.getLsbD_or, BitVec.getLsbD_shiftLeft,
        BitVec.getLsbD_setWidth, hc, h32, h4, hj']
      simp

/-- The first `n` entries of an eight-entry class file as R49 packs them, zero-extended to 64 bits. -/
theorem packClasses_take_layout (v : Vector Pcp 8) (n : Nat) :
    ((packClasses (v.toList.take n)).setWidth 64).toNat < 2 ^ 32 ∧
    ∀ i : Fin 8, ((packClasses (v.toList.take n)).setWidth 64).extractLsb' (4 * i.val) 4 =
      if i.val < n then v[i].setWidth 4 else 0 := by
  refine ⟨?_, fun i => ?_⟩
  · rw [BitVec.toNat_setWidth]
    exact Nat.lt_of_le_of_lt (Nat.mod_le ..) (BitVec.isLt _)
  · rw [BitVec.extractLsb'_setWidth_of_le (by omega), packClasses_nibble _ i.isLt, List.getElem?_take]
    split <;> simp

/-- The eight FVALID bits, each at the place of its slot. -/
theorem fvalidBits_getLsbD (s : State) (c : Pcp) : (fvalidBits s).getLsbD c.toNat = at8 s.fvalid c := by
  simp only [fvalidBits, BitVec.getLsbD_append]
  obtain ⟨j, hj⟩ := c
  interval_cases j <;> simp
/-- The single flags of STATUS (R48). -/
theorem statusWord_flags (s : State) :
    (statusWord s).getLsbD 2 = phaseBit s ∧ (statusWord s).getLsbD 3 = s.success ∧
    (statusWord s).getLsbD 4 = s.svalid ∧ (statusWord s).getLsbD 5 = s.stopped ∧ (statusWord s).getLsbD 6 = s.hopen ∧
    (statusWord s).getLsbD 7 = s.trunc ∧ (statusWord s).getLsbD 8 = s.cmderr := by
  simp only [statusWord, BitVec.getLsbD_append]
  simp

/-- The six written-bits of STATUS (R48). -/
theorem statusWord_written (s : State) :
    (statusWord s).getLsbD 24 = s.wDst ∧ (statusWord s).getLsbD 25 = s.wSrc ∧ (statusWord s).getLsbD 26 = s.wVlan ∧
    (statusWord s).getLsbD 27 = s.wProf ∧ (statusWord s).getLsbD 28 = s.wPps ∧ (statusWord s).getLsbD 29 = s.wDur := by
  simp only [statusWord, writtenBits, BitVec.getLsbD_append]
  simp

/-- The fields of more than one bit of STATUS, and its reserved fields (R48). -/
theorem statusWord_fields (s : State) :
    (statusWord s).extractLsb' 0 2 = s.state.bits ∧ (statusWord s).extractLsb' 9 3 = 0 ∧
    (statusWord s).extractLsb' 12 4 = s.err ∧ (statusWord s).extractLsb' 16 8 = s.lastrej ∧
    (statusWord s).extractLsb' 30 2 = 0 ∧ (statusWord s).extractLsb' 32 8 = fvalidBits s ∧
    (statusWord s).extractLsb' 40 24 = 0 := by
  simp (disch := omega) only [statusWord, BitVec.extractLsb'_append_eq_of_le, BitVec.extractLsb'_append_eq_of_add_le]
  simp

theorem statusWord_fvalid (s : State) (c : Pcp) : (statusWord s).getLsbD (32 + c.toNat) = at8 s.fvalid c := by
  obtain ⟨-, -, -, -, -, hvalid, -⟩ := statusWord_fields s
  have hc : c.toNat < 8 := c.isLt
  rw [← fvalidBits_getLsbD, ← hvalid, BitVec.getLsbD_extractLsb']
  simp [hc]

/-! ### The obligations about RD -/

/-- Settles O10: each number of the table names its register, and the register answers or is rejected as R49 says. -/
theorem rdAnswersRegister : Obligations.RdAnswersRegister := by
  refine ⟨decode_word_rd, fun s => ⟨fun _ r h => exec_rd_oprange h r s, fun _ h => exec_rd_badreg (regOfNumber_eq_none h) s,
    exec_rd_value rfl rfl, ?dst, ?src, ?vlan, ?profile, exec_rd_value rfl rfl, exec_rd_value rfl rfl, ?tcList, ?pps,
    ?duration, exec_rd_value rfl rfl, exec_rd_value rfl rfl, exec_rd_value rfl rfl, exec_rd_value rfl rfl,
    exec_rd_value rfl rfl, exec_rd_value rfl rfl, ?cnt, ?flen, exec_rd_value rfl rfl, exec_rd_value rfl rfl, ?sTcList,
    exec_rd_value rfl rfl, exec_rd_value rfl rfl, exec_rd_value rfl rfl, exec_rd_value rfl rfl, exec_rd_value rfl rfl,
    exec_rd_value rfl rfl⟩⟩
  case tcList => exact ⟨_, exec_rd_value rfl rfl, packClasses_take_layout s.tclist _⟩
  case sTcList => exact ⟨_, exec_rd_value rfl rfl, packClasses_take_layout s.sOrder _⟩
  case cnt => exact fun c => exec_rd_value (regOfNumber_cnt c) rfl
  case flen => exact fun c => exec_rd_readIf (e := .noframe) (regOfNumber_flen c) rfl
  all_goals exact exec_rd_written rfl rfl

/-- Settles O11: RD STATUS answers `statusWord`, and each field stands at its place in it. -/
theorem rdStatusLayout : Obligations.RdStatusLayout := by
  intro s
  obtain ⟨hphase, hsuccess, hsvalid, hstopped, hhopen, htrunc, hcmderr⟩ := statusWord_flags s
  obtain ⟨hdst, hsrc, hvlan, hprof, hpps, hdur⟩ := statusWord_written s
  obtain ⟨hstate, hres9, herr, hlastrej, hres30, -, hres40⟩ := statusWord_fields s
  exact ⟨statusWord s, exec_rd_value rfl rfl, hstate, hphase, hsuccess, hsvalid, hstopped, hhopen, htrunc, hcmderr, hres9,
    herr, hlastrej, hdst, hsrc, hvlan, hprof, hpps, hdur, hres30, statusWord_fvalid s, hres40⟩

/-- A finished session made at most one attempt more than its length allows (R164, R172). -/
theorem attempts_le_of_elapsed {s : State} (h : FramerInv s) (he : s.elapsed ≠ 0) :
    s.k.toNat * s.par.tickHz.toNat ≤ s.elapsed.toNat * s.sPps.toNat + s.par.tickHz.toNat := by
  cases hs : s.state with
  | idle =>
    obtain ⟨-, -, -, -, -, -, h0⟩ := h.outcome.idle hs
    exact absurd h0 he
  | run =>
    obtain ⟨-, -, -, -, h0⟩ := h.outcome.run hs
    exact absurd h0 he
  | done =>
    obtain ⟨-, -, hv⟩ | ⟨-, -, hv, -⟩ | ⟨-, -, -, -, -, -, h0⟩ := h.outcome.done hs
    · exact h.pace.ended hv hs
    · exact h.pace.ended hv hs
    · exact absurd h0 he

/-- The bound of R40: with `n` successes in `k ≤ e × p / t + 1` attempts, the rate `n × t / e` is at most `p + t`. -/
theorem rate_le {n k e p t : Nat} (hn : n ≤ k) (he : 1 ≤ e) (hk : k * t ≤ e * p + t) : n * t / e ≤ p + t := by
  refine Nat.div_le_of_le_mul ?_
  calc n * t ≤ k * t := Nat.mul_le_mul_right t hn
    _ ≤ e * p + t := hk
    _ ≤ e * p + e * t := Nat.add_le_add_left (Nat.le_mul_of_pos_left t he) _
    _ = e * (p + t) := (Nat.mul_add ..).symm

/-- The same bound as R40 has it, on K. -/
theorem attempts_le_div {k e p t : Nat} (ht : 1 ≤ t) (hk : k * t ≤ e * p + t) : k ≤ e * p / t + 1 := by
  rw [← Nat.add_div_right _ ht]
  exact (Nat.le_div_iff_mul_le ht).2 hk

/-- The quotient of R40, and that neither it nor the 64 bits of the answer overflow. -/
theorem achPps_spec {s : State} (h : FramerInv s) :
    (achPps s).toNat = (if s.elapsed = 0 then 0 else s.total.toNat * s.par.tickHz.toNat / s.elapsed.toNat) ∧
    (achPps s).toNat ≤ s.sPps.toNat + s.par.tickHz.toNat := by
  unfold achPps
  split
  case isTrue => exact ⟨rfl, Nat.zero_le _⟩
  case isFalse he =>
    have hpos : 1 ≤ s.elapsed.toNat := Nat.one_le_iff_ne_zero.2 fun e => he (BitVec.eq_of_toNat_eq e)
    have hle := rate_le h.counters.drops hpos (attempts_le_of_elapsed h he)
    have hfit : s.total.toNat * s.par.tickHz.toNat / s.elapsed.toNat < 2 ^ 64 := by
      have := s.sPps.isLt
      have := s.par.tickHz.isLt
      omega
    rw [BitVec.toNat_ofNat, Nat.mod_eq_of_lt hfit]
    exact ⟨rfl, hle⟩

/-- Settles O12: TOTAL is at most K, K is bounded by the schedule, and the quotient under that bound is below 2^64. -/
theorem achievedRateFits : Obligations.AchievedRateFits := by
  intro s h
  obtain ⟨hvalue, hbound⟩ := achPps_spec h
  refine ⟨achPps s, exec_rd_value rfl rfl, hvalue, h.counters.drops, fun he => ?attempts, hbound, fun hs => ?run⟩
  case attempts => exact attempts_le_div h.config.tickHz_pos (attempts_le_of_elapsed h he)
  case run =>
    obtain ⟨-, -, -, -, h0⟩ := h.outcome.run hs
    exact if_pos h0

/-- Settles O14: what RD and RDFB can do is a reject or a response, and `rejected` and `answered` are just these. -/
theorem readsHaveNoSideEffect : Obligations.ReadsHaveNoSideEffect := by
  refine fun s t => ⟨fun mbz r h => ?rd, fun mbz slot off h => ?rdfb⟩
  case rd =>
    obtain ⟨e, rfl⟩ | ⟨-, d, -, -, rfl⟩ := execRd_next h
    · exact .inr ⟨e.code, rfl⟩
    · exact .inl ⟨d, rfl⟩
  case rdfb =>
    obtain ⟨e, rfl⟩ | ⟨d, rfl⟩ := execRdfb_next h
    · exact .inr ⟨e.code, rfl⟩
    · exact .inl ⟨d, rfl⟩

end Sys2Proof.Machine
end

section
/-!
SUPPORT. The control position (10_state.md R30): what each command and each of the framer's own steps does to it. And the
state after reset (R51, 70_reset_and_hazards.md R220, R221).
-/

namespace Sys2Proof.Machine

open Sys2Proof.Claims

/-! ### The control position -/

/-- The position stays: what every command but START and STOP does. -/
def samePosition (s t : State) : Prop := t.state = s.state ∧ t.phase = s.phase

theorem execStart_position {mbz : BitVec 48} {s t : State} (h : execStart mbz s = .next t) :
    samePosition s t ∨ (s.state ≠ .run ∧ (t.state = .run ∨ t.state = .done) ∧ t.phase = .top) := by
  obtain ⟨r, rfl⟩ | ⟨hs, -, -, -, ⟨-, rfl⟩ | ⟨-, -, rfl⟩⟩ := execStart_next h
  · exact .inl ⟨rfl, rfl⟩
  · exact .inr ⟨hs, .inr rfl, rfl⟩
  · exact .inr ⟨hs, .inl rfl, rfl⟩

theorem execStop_position {mbz : BitVec 48} {s t : State} (h : execStop mbz s = .next t) :
    samePosition s t ∨ (s.state = .run ∧ t.state = .done ∧ t.phase = .top) := by
  obtain ⟨r, rfl⟩ | ⟨hs, rfl⟩ | ⟨-, rfl⟩ := execStop_next h
  · exact .inl ⟨rfl, rfl⟩
  · exact .inr ⟨hs, rfl, rfl⟩
  · exact .inl ⟨rfl, rfl⟩

/-- Every command but START and STOP is rejected or updates registers that are not the control position. -/
theorem exec_samePosition {i : Instr} {s t : State} (h : exec i s = .next t) (h1 : ∀ m, i ≠ .start m)
    (h2 : ∀ m, i ≠ .stop m) : samePosition s t := by
  cases i with
  | setdst mac => obtain ⟨r, rfl⟩ | ⟨-, rfl⟩ := execSetdst_next h <;> exact ⟨rfl, rfl⟩
  | setsrc mac => obtain ⟨r, rfl⟩ | ⟨-, rfl⟩ := execSetsrc_next h <;> exact ⟨rfl, rfl⟩
  | setvlan hi vid => obtain ⟨r, rfl⟩ | ⟨-, rfl⟩ := execSetvlan_next h <;> exact ⟨rfl, rfl⟩
  | setprof mbz prof => obtain ⟨r, rfl⟩ | ⟨-, rfl⟩ := execSetprof_next h <;> exact ⟨rfl, rfl⟩
  | setpsize mbz n => obtain ⟨r, rfl⟩ | ⟨-, -, rfl⟩ := execSetpsize_next h <;> exact ⟨rfl, rfl⟩
  | tcclr mbz => obtain ⟨r, rfl⟩ | ⟨-, rfl⟩ := execTcclr_next h <;> exact ⟨rfl, rfl⟩
  | tcpush hi pcp => obtain ⟨r, rfl⟩ | ⟨-, -, -, rfl⟩ := execTcpush_next h <;> exact ⟨rfl, rfl⟩
  | setpps mbz rate => obtain ⟨r, rfl⟩ | ⟨-, -, rfl⟩ := execSetpps_next h <;> exact ⟨rfl, rfl⟩
  | setdur mbz seconds => obtain ⟨r, rfl⟩ | ⟨-, rfl⟩ := execSetdur_next h <;> exact ⟨rfl, rfl⟩
  | build hi pcp => obtain ⟨r, rfl⟩ | ⟨-, -, -, rfl⟩ := execBuild_next h <;> exact ⟨rfl, rfl⟩
  | start mbz => exact absurd rfl (h1 mbz)
  | stop mbz => exact absurd rfl (h2 mbz)
  | rd mbz reg => obtain ⟨r, rfl⟩ | ⟨-, d, -, -, rfl⟩ := execRd_next h <;> exact ⟨rfl, rfl⟩
  | rdfb mbz slot off => obtain ⟨r, rfl⟩ | ⟨d, rfl⟩ := execRdfb_next h <;> exact ⟨rfl, rfl⟩

/-- LoopTop waits for the next attempt or ends the session (R165). -/
theorem loopTop_position (s : State) :
    ((loopTop s).state = .run ∧ (loopTop s).phase = .wait) ∨ ((loopTop s).state = .done ∧ (loopTop s).phase = .top) := by
  unfold loopTop
  split
  · exact .inr ⟨rfl, rfl⟩
  · exact .inl ⟨rfl, rfl⟩

/-- An attempt goes back to the top of the loop, or ends the session (R167). -/
theorem settleAttempt_position (c : Pcp) (r : SendAns) (s : State) :
    ((settleAttempt c r s).state = .run ∨ (settleAttempt c r s).state = .done) ∧ (settleAttempt c r s).phase = .top := by
  cases r with
  | success => exact ⟨.inl rfl, rfl⟩
  | wouldBlock => exact ⟨.inl rfl, rfl⟩
  | error => exact ⟨.inr rfl, rfl⟩

/-- `due(K)` in the words of the statements (R164). -/
theorem attemptDue_iff (s : State) : attemptDue s ↔ due s s.k.toNat = true := (due_eq_true_iff s _).symm

/-- Settles O41: only START and STOP move the position among the commands; LoopTop and Attempt among the framer's steps. -/
theorem controlPositionTransitions : Obligations.ControlPositionTransitions := by
  refine ⟨fun i s t h => ?command, fun s t h => ?framer, fun _ => ⟨rfl, rfl⟩⟩
  case command =>
    by_cases h1 : ∃ m, i = .start m
    · obtain ⟨m, rfl⟩ := h1
      exact (execStart_position h).imp_right fun hp => .inl ⟨⟨m, rfl⟩, hp⟩
    by_cases h2 : ∃ m, i = .stop m
    · obtain ⟨m, rfl⟩ := h2
      exact (execStop_position h).imp_right fun hp => .inr ⟨⟨m, rfl⟩, hp⟩
    exact .inl (exec_samePosition h (fun m e => h1 ⟨m, e⟩) fun m e => h2 ⟨m, e⟩)
  case framer =>
    obtain ⟨hr, hp, rfl⟩ | ⟨hr, hw, hd, ht⟩ | ⟨hr, hw, hd, rfl⟩ | ⟨hr, rfl⟩ := advance_next h
    · exact .inr (.inl ⟨hr, hp, loopTop_position s⟩)
    · obtain ⟨c, f, -, -, -, rfl⟩ := attempt_next ht
      exact .inr (.inr ⟨hr, hw, (attemptDue_iff s).2 hd, settleAttempt_position ..⟩)
    · exact .inl ⟨by simp [hw, attemptDue_iff, hd], rfl, rfl⟩
    · exact .inl ⟨fun e => hr e.1, rfl, rfl⟩

/-! ### Reset -/

/-- The values of the table of R51, for all parameters. -/
theorem hasResetValues_resetWith (p : Params) : hasResetValues (State.resetWith p) :=
  ⟨⟨rfl, rfl, rfl, rfl, rfl, rfl⟩, rfl, rfl, rfl, rfl, ⟨rfl, rfl, at8_replicate 0, rfl, rfl⟩, rfl,
    ⟨rfl, rfl, rfl, rfl, rfl, rfl⟩, rfl, ⟨rfl, rfl, rfl, rfl⟩, ⟨rfl, rfl, rfl⟩, at8_replicate false, fun _ => rfl, rfl⟩

/-- After reset every field of STATUS is 0: STATUS reads no parameter, so the default ones stand for all. -/
theorem statusWord_resetWith (p : Params) : statusWord (State.resetWith p) = 0 :=
  calc statusWord (State.resetWith p) = statusWord State.reset := rfl
    _ = 0 := by decide

/-- Settles O45: the values are those of `State.resetWith`, all fields of STATUS are 0 there, and IDLE admits only Tick. -/
theorem resetValues : Obligations.ResetValues :=
  ⟨hasResetValues_resetWith _, fun p => ⟨hasResetValues_resetWith p, exec_rd_value rfl (congrArg _ (statusWord_resetWith p)),
    advance_tick (s := State.resetWith p) nofun⟩⟩

/-- Settles O52: `resetWith_inv`, at the Host's and the sink's fields of the statement. -/
theorem resetHasInvariant : Obligations.ResetHasInvariant :=
  fun _ q oq sq hp => resetWith_inv hp q none oq sq 0

end Sys2Proof.Machine
end

section
/-!
SUPPORT. The decoder and the encoder undo each other (30_encoding.md R100, R102, R103): opcode and operand determine the
command, the command determines them, and a word is its three fields put together.
-/

namespace Sys2Proof.Machine

open Sys2Proof.Claims

/-! ### The fields of an operand (R103): put together and read back, read and put together -/

theorem fields_append {β : Type} {a b : Nat} (f : BitVec a → BitVec b → β) (x : BitVec a) (y : BitVec b) :
    f ((x ++ y).extractLsb' b a) ((x ++ y).extractLsb' 0 b) = f x y :=
  congrArg₂ f BitVec.extractLsb'_append_eq_left BitVec.extractLsb'_append_eq_right

theorem fields_append_append {β : Type} {a b c : Nat} (f : BitVec a → BitVec b → BitVec c → β) (x : BitVec a)
    (y : BitVec b) (z : BitVec c) :
    f ((x ++ y ++ z).extractLsb' (c + b) a) ((x ++ y ++ z).extractLsb' c b) ((x ++ y ++ z).extractLsb' 0 c) = f x y z := by
  have h (k l : Nat) : (x ++ y ++ z).extractLsb' (c + k) l = (x ++ y).extractLsb' k l := by
    ext i hi
    simp only [BitVec.getElem_extractLsb', BitVec.getLsbD_append (x := x ++ y)]
    rw [if_neg (by omega)]
    congr 1
    omega
  have hx : (x ++ y ++ z).extractLsb' (c + b) a = x := (h b a).trans BitVec.extractLsb'_append_eq_left
  have hy : (x ++ y ++ z).extractLsb' c b = y := (h 0 b).trans BitVec.extractLsb'_append_eq_right
  rw [hx, hy, BitVec.extractLsb'_append_eq_right]

theorem append_extractLsb' {a b : Nat} (x : BitVec (a + b)) : x.extractLsb' b a ++ x.extractLsb' 0 b = x := by
  rw [BitVec.extractLsb'_append_extractLsb'_eq_extractLsb' (Nat.zero_add b).symm, BitVec.extractLsb'_eq_self]

theorem append_append_extractLsb' {a b c : Nat} (x : BitVec (a + b + c)) :
    x.extractLsb' (c + b) a ++ x.extractLsb' c b ++ x.extractLsb' 0 c = x := by
  rw [BitVec.extractLsb'_append_extractLsb'_eq_extractLsb' rfl, append_extractLsb']

/-! ### Opcode and operand -/

/-- R102 and R103 read back what the encoder writes. -/
theorem selectOp_opcode_operand (i : Instr) : selectOp i.opcode i.operand = some i := by
  cases i with
  | setdst _ | setsrc _ | tcclr _ | start _ | stop _ => rfl
  | rdfb mbz slot off => exact congrArg some (fields_append_append Instr.rdfb mbz slot off)
  | setvlan hi lo | setprof hi lo | setpsize hi lo | tcpush hi lo | setpps hi lo | setdur hi lo | build hi lo | rd hi lo =>
    exact congrArg some (fields_append _ hi lo)

/-- Settles O49: the word's fields are the opcode and the operand, and these read back as the command. -/
theorem decodeOfEncode : Obligations.DecodeOfEncode :=
  fun i => decode_word_of_selectOp (selectOp_opcode_operand i)

/-- The decoder reads no other opcode and operand as `i`. -/
theorem opcode_operand_of_selectOp {op : BitVec 8} {arg : BitVec 48} {i : Instr} (h : selectOp op arg = some i) :
    i.opcode = op ∧ i.operand = arg := by
  unfold selectOp at h
  split at h
  -- h_15: no command has the opcode; h_1, h_2, h_6, h_11, h_12: the operand is one field; h_14: RDFB's three fields.
  case h_15 => cases h
  all_goals
    rename_i hop
    cases h
    refine ⟨BitVec.eq_of_toNat_eq hop.symm, ?_⟩
  case h_1 | h_2 | h_6 | h_11 | h_12 => rfl
  case h_14 => exact append_append_extractLsb' (a := 34) (b := 3) (c := 11) arg
  all_goals exact append_extractLsb' _

theorem decode_eq_instr_iff {w : Word64} {i : Instr} :
    decode w = .instr i ↔ selectOp (opField w) (argField w) = some i ∧ rsvField w = 0 := by
  unfold decode
  cases selectOp (opField w) (argField w) with
  | none => simp
  | some j => by_cases hr : rsvField w = 0 <;> simp_all

/-- Settles O50: the three fields make up the word, and the reserved one of a command is 0. -/
theorem encodeOfDecode : Obligations.EncodeOfDecode := by
  intro w i h
  obtain ⟨hsel, hrsv⟩ := decode_eq_instr_iff.1 h
  obtain ⟨hop, harg⟩ := opcode_operand_of_selectOp hsel
  calc encode i = opField w ++ 0#8 ++ argField w := by rw [encode, hop, harg, commandWord]
    _ = opField w ++ rsvField w ++ argField w := by rw [hrsv]; rfl
    _ = w := append_append_extractLsb' (a := 8) (b := 8) (c := 48) w

/-- Settles O48: each word is split into its fields and read by the table. -/
theorem decodesWrittenWords : Obligations.DecodesWrittenWords := by
  unfold Obligations.DecodesWrittenWords
  decide

end Sys2Proof.Machine
end

section
/-!
SUPPORT. Which check of a command word decides (30_encoding.md R104, R105): opcode, reserved field, BUSY, operand range.
-/

namespace Sys2Proof.Machine

open Sys2Proof.Claims

theorem opcode_mem_opcodes (i : Instr) : i.opcode ∈ opcodes := by
  cases i <;> simp [Instr.opcode, opcodes]

theorem selectOp_eq_none {op : BitVec 8} (h : op ∉ opcodes) (arg : BitVec 48) : selectOp op arg = none := by
  rw [Option.eq_none_iff_forall_ne_some]
  rintro i hi
  exact h ((opcode_operand_of_selectOp hi).1 ▸ opcode_mem_opcodes i)

theorem exists_selectOp {op : BitVec 8} (h : op ∈ opcodes) (arg : BitVec 48) : ∃ i, selectOp op arg = some i := by
  simp only [opcodes, List.mem_cons, List.not_mem_nil, or_false] at h
  obtain rfl | rfl | rfl | rfl | rfl | rfl | rfl | rfl | rfl | rfl | rfl | rfl | rfl | rfl := h <;> exact ⟨_, rfl⟩

/-- Check (1) of R104. -/
theorem runWord_illop {w : Word64} (h : opField w ∉ opcodes) (s : State) : runWord w s = .next (rejected 1 s) := by
  rw [runWord, decode, selectOp_eq_none h]
  rfl

/-- Check (2) of R104. -/
theorem runWord_rsvbits {w : Word64} (h : opField w ∈ opcodes) (hr : rsvField w ≠ 0) (s : State) :
    runWord w s = .next (rejected 2 s) := by
  obtain ⟨i, hi⟩ := exists_selectOp h (argField w)
  simp only [runWord, decode, hi, if_neg hr]
  rfl

/-- A word that passes checks (1) and (2) is a command. -/
theorem exists_decode {w : Word64} (h : opField w ∈ opcodes) (hr : rsvField w = 0) :
    ∃ i, decode w = .instr i ∧ i.opcode = opField w := by
  obtain ⟨i, hi⟩ := exists_selectOp h (argField w)
  exact ⟨i, decode_eq_instr_iff.2 ⟨hi, hr⟩, (opcode_operand_of_selectOp hi).1⟩

/-- Check (3) of R104. -/
theorem exec_busy {i : Instr} {s : State} (hi : i.opcode ∉ neverBusy) (hs : s.state = .run) :
    exec i s = .next (rejected 4 s) := by
  cases i with
  | stop _ | rd _ _ | rdfb _ _ _ => simp [Instr.opcode, neverBusy] at hi
  | _ => exact unlessBusy_run hs

/-- Two operand checks in a row fail with the same reason when one of them fails. -/
theorem check_check_of_not {a b : Bool} {r : Reason} {s : State} {f : Result} (h : (a && b) = false) :
    check a r s (check b r s f) = .next (reject r s) := by
  cases a with
  | false => rfl
  | true => exact check_of_not (ok := b) h

/-- Check (4) of R104. -/
theorem exec_oprange {i : Instr} {s : State} (hi : i.wellFormed s.par = false)
    (hs : i.opcode ∈ neverBusy ∨ s.state ≠ .run) : exec i s = .next (rejected 3 s) := by
  cases i with
  | setdst _ | setsrc _ | setvlan _ _ | tcpush _ _ | build _ _ => cases hi
  | stop _ | rd _ _ | rdfb _ _ _ => exact check_of_not hi
  | setprof _ _ | tcclr _ | setdur _ _ | start _ =>
    have hs : s.state ≠ .run := hs.resolve_left (by simp [Instr.opcode, neverBusy])
    exact (unlessBusy_free hs).trans (check_of_not hi)
  | setpsize _ _ | setpps _ _ =>
    have hs : s.state ≠ .run := hs.resolve_left (by simp [Instr.opcode, neverBusy])
    exact (unlessBusy_free hs).trans (check_check_of_not hi)

/-- Settles O37: the step runs the word, and each check of R104 has its lemma. -/
theorem decodeOrder : Obligations.DecodeOrder := by
  intro w s rest hq
  rw [step_word hq]
  refine ⟨fun h => runWord_illop h _, fun h hr => runWord_rsvbits h hr _, fun h hr hb hs => ?busy, fun h hr hb => ?runs⟩
  case busy =>
    obtain ⟨i, hi, hop⟩ := exists_decode h hr
    rw [runWord_instr hi]
    exact exec_busy (hop ▸ hb) hs
  case runs =>
    obtain ⟨i, hi, hop⟩ := exists_decode h hr
    rw [runWord_instr hi]
    exact ⟨i, hi, fun hw => exec_oprange hw (hop ▸ hb), fun _ => rfl⟩

/-- Settles O38: `runWord_illop` and `runWord_rsvbits`; neither 0 nor 0xFF is an opcode. -/
theorem illegalWordsRejected : Obligations.IllegalWordsRejected :=
  ⟨fun _ s h => runWord_illop h s, fun _ s h hr => runWord_rsvbits h hr s,
    fun s => ⟨runWord_illop (by decide) s, runWord_illop (by decide) s⟩⟩

end Sys2Proof.Machine
end

section
/-!
SUPPORT. The bytes of a built frame: the two profiles as a header, the payload and the padding (30_encoding.md R80 to R87,
R92 to R95), and numbers read back from two or four bytes.
-/

namespace Sys2Proof.Machine

open Sys2Proof.Claims

/-! ### The two profiles in parts -/

/-- The payload and the zero bytes that follow it in a frame whose headers have `k` bytes (R82, R87). -/
def paddedPayload (k n : Nat) : List Byte := payload n ++ List.replicate (60 - (k + n)) 0

theorem build_minimal (p : Params) (dst src : Mac) (vid : Vid) (pcp : Pcp) (n : Nat) :
    build p dst src vid pcp 0 n = ethHeader dst src vid pcp ++ paddedPayload 18 n := by
  simp [build, padFrame, paddedPayload]

theorem build_udp (p : Params) (dst src : Mac) (vid : Vid) (pcp : Pcp) (n : Nat) :
    build p dst src vid pcp 1 n =
      ethHeader dst src vid pcp ++ ipv4Header p pcp n ++ udpHeader p pcp n ++ paddedPayload 46 n := by
  have h : 18 + (20 + (8 + n)) = 46 + n := by omega
  simp [build, padFrame, paddedPayload, h]

theorem paddedPayload_payload {n i : Nat} (k : Nat) (h : i < n) :
    (paddedPayload k n)[i]? = some (BitVec.ofNat 8 (i % 256)) := by
  rw [paddedPayload, List.getElem?_append_left (by simpa using h)]
  simp [payload, h, ← BitVec.toNat_inj]

theorem paddedPayload_padding {k n i : Nat} (h : n ≤ i) (hi : k + i < 60) : (paddedPayload k n)[i]? = some 0 := by
  rw [paddedPayload, List.getElem?_append_right (by simpa using h), List.getElem?_replicate_of_lt]
  simp only [payload_length]
  omega

/-- What follows a header of `k` bytes: the payload from offset `k`, and zeros up to 60 bytes (R82, R87). -/
theorem payload_and_padding {f hdr : List Byte} {k n : Nat} (hf : f = hdr ++ paddedPayload k n) (hk : hdr.length = k) :
    (∀ i, i < n → f[k + i]? = some (BitVec.ofNat 8 (i % 256))) ∧ ∀ j, k + n ≤ j → j < 60 → f[j]? = some 0 := by
  subst hf hk
  refine ⟨fun i hi => ?_, fun j hn hj => ?_⟩
  · rw [List.getElem?_append_right (by omega), Nat.add_sub_cancel_left]
    exact paddedPayload_payload _ hi
  · rw [List.getElem?_append_right (by omega)]
    exact paddedPayload_padding (by omega) (by omega)

/-- The bytes of a frame before the padding (R81, R84). -/
def unpaddedFrame (p : Params) (dst src : Mac) (vid : Vid) (pcp : Pcp) (prof : BitVec 1) (n : Nat) : List Byte :=
  ethHeader dst src vid pcp ++
    (if prof = 0 then payload n else ipv4Header p pcp n ++ udpHeader p pcp n ++ payload n)

theorem build_eq_padFrame (p : Params) (dst src : Mac) (vid : Vid) (pcp : Pcp) (prof : BitVec 1) (n : Nat) :
    build p dst src vid pcp prof n = padFrame (unpaddedFrame p dst src vid pcp prof n) := rfl

theorem unpaddedFrame_length (p : Params) (dst src : Mac) (vid : Vid) (pcp : Pcp) (prof : BitVec 1) (n : Nat) :
    (unpaddedFrame p dst src vid pcp prof n).length = if prof = 0 then 18 + n else 46 + n := by
  rw [unpaddedFrame, List.length_append, ethHeader_length]
  split
  case isTrue => rw [payload_length]
  case isFalse =>
    simp only [List.length_append, ipv4Header_length, udpHeader_length, payload_length]
    omega

theorem build_length (p : Params) (dst src : Mac) (vid : Vid) (pcp : Pcp) (prof : BitVec 1) (n : Nat) :
    (build p dst src vid pcp prof n).length = max 60 (if prof = 0 then 18 + n else 46 + n) := by
  rw [build_eq_padFrame, padFrame_length, unpaddedFrame_length]

/-- Settles O15: the unpadded bytes are what `padFrame` gets, and PAYLOAD_MAX is at most 2001 = 2047 - 46. -/
theorem frameLengthAndPadding : Obligations.FrameLengthAndPadding := by
  intro p dst src vid pcp prof n hp hn
  have hmax : p.payloadMax.toNat ≤ 2001 := by
    simp only [Params.ok, Bool.and_eq_true, decide_eq_true_eq] at hp
    exact hp.2
  refine ⟨unpaddedFrame p dst src vid pcp prof n, unpaddedFrame_length .., rfl, padFrame_length _, ?_⟩
  rw [build_length]
  split <;> omega

/-! ### The Ethernet header -/

/-- R83: the TCI is PCP, a zero bit, the VLAN id. -/
theorem tci_eq_append (pcp : Pcp) (vid : Vid) : tci pcp vid = pcp ++ 0#1 ++ vid := by
  have hpcp : pcp.toNat <<< 13 < 2 ^ 16 := Nat.shiftLeft_lt (n := 3) pcp.isLt
  apply BitVec.eq_of_toNat_eq
  calc (tci pcp vid).toNat = pcp.toNat <<< 13 ||| vid.toNat := by
        rw [tci, BitVec.toNat_or, BitVec.toNat_shiftLeft, BitVec.toNat_setWidth_of_le (by decide),
          BitVec.toNat_setWidth_of_le (by decide), Nat.mod_eq_of_lt hpcp]
    _ = (pcp.toNat <<< 1 ||| 0) <<< 12 ||| vid.toNat := by rw [Nat.or_zero, ← Nat.shiftLeft_add]
    _ = ((pcp ++ 0#1).toNat <<< 12) ||| vid.toNat := by rw [BitVec.toNat_append]; rfl
    _ = (pcp ++ 0#1 ++ vid).toNat := (BitVec.toNat_append ..).symm

theorem build_take_header (p : Params) (dst src : Mac) (vid : Vid) (pcp : Pcp) (prof : BitVec 1) (n : Nat) :
    (build p dst src vid pcp prof n).take 18 = ethHeader dst src vid pcp := by
  rw [build, padFrame, List.append_assoc, List.take_left' (ethHeader_length ..)]

/-- Settles O16: the first 18 bytes are `ethHeader`, whose TCI is PCP, a zero bit and the VLAN id. -/
theorem ethernetHeaderBytes : Obligations.EthernetHeaderBytes := by
  intro p dst src vid pcp prof n
  rw [build_take_header, ← tci_eq_append]
  rfl

/-- Settles O18: in both profiles the payload and the padding follow the headers, of 18 and of 46 bytes. -/
theorem minimalLayoutAndPayload : Obligations.MinimalLayoutAndPayload := by
  intro p dst src vid pcp n
  obtain ⟨hmin, hpad⟩ := payload_and_padding (build_minimal p dst src vid pcp n) (ethHeader_length ..)
  obtain ⟨hudp, -⟩ := payload_and_padding (build_udp p dst src vid pcp n) (by simp)
  exact ⟨build_length .., by rw [build_take_header, build_take_header], hpad, fun i hi => ⟨hmin i hi, hudp i hi⟩⟩

/-! ### The UDP profile -/

theorem half_of_bytes {f : List Byte} {j : Nat} {w : BitVec 16} {v : Nat} (hv : w.toNat = v)
    (hhi : f[j]? = some (w.extractLsb' 8 8)) (hlo : f[j + 1]? = some (w.extractLsb' 0 8)) : half f j v := by
  subst hv
  refine ⟨w.isLt, hhi.trans (congrArg some ?_), hlo.trans (congrArg some ?_)⟩
  · rw [BitVec.extractLsb', Nat.shiftRight_eq_div_pow]
  · exact BitVec.eq_of_toNat_eq (by simp)

/-- A byte of a field is a byte of the word. -/
theorem extractLsb'_halfword {n : Nat} (w : BitVec n) (a b : Nat) (hb : b + 8 ≤ 16) :
    (w.extractLsb' a 16).extractLsb' b 8 = w.extractLsb' (a + b) 8 := by
  ext i hi
  simp [Nat.add_assoc, show b + i < 16 by omega]

theorem high_half_of_bytes {f : List Byte} {j : Nat} {w : BitVec 32} (h0 : f[j]? = some (w.extractLsb' 24 8))
    (h1 : f[j + 1]? = some (w.extractLsb' 16 8)) : half f j (w.toNat / 65536) := by
  have hw : (w.extractLsb' 16 16).toNat = w.toNat / 65536 := by
    simp [Nat.shiftRight_eq_div_pow]
    omega
  refine half_of_bytes hw ?_ ?_ <;> rwa [extractLsb'_halfword _ _ _ (by omega)]

theorem low_half_of_bytes {f : List Byte} {j : Nat} {w : BitVec 32} (h0 : f[j]? = some (w.extractLsb' 8 8))
    (h1 : f[j + 1]? = some (w.extractLsb' 0 8)) : half f j (w.toNat % 65536) := by
  have hw : (w.extractLsb' 0 16).toNat = w.toNat % 65536 := by simp
  refine half_of_bytes hw ?_ ?_ <;> rwa [extractLsb'_halfword _ _ _ (by omega)]

theorem tos_eq (pcp : Pcp) : tos pcp = BitVec.ofNat 8 (pcp.toNat * 32) := by
  apply BitVec.eq_of_toNat_eq
  simp [tos, Nat.shiftLeft_eq]

theorem port_toNat (base : BitVec 16) (pcp : Pcp) :
    (base + pcp.setWidth 16).toNat = (base.toNat + pcp.toNat) % 65536 := by
  simp

/-- A field of what is left of a frame after `k` bytes. -/
theorem half_drop (f : List Byte) (k j v : Nat) : half (f.drop k) j v ↔ half f (k + j) v := by
  simp only [half, List.getElem?_drop, Nat.add_assoc]

/-- The IPv4 header byte by byte (R85), followed by `rest`. -/
theorem ipv4Header_append (p : Params) (pcp : Pcp) (n : Nat) (rest : List Byte) :
    ipv4Header p pcp n ++ rest =
      [0x45, tos pcp] ++ be16 (BitVec.ofNat 16 (28 + n)) ++ [0x00, 0x00] ++ [0x00, 0x00] ++ [0x40, 0x11] ++
        be16 (cksum (ipv4HeaderZero p pcp n)) ++ be32 p.srcIp ++ be32 p.dstIp ++ rest := by
  unfold ipv4Header
  generalize cksum (ipv4HeaderZero p pcp n) = c
  rfl

/-- The fields of the IPv4 header at the offsets of R85, with the values of R92, R93 and R95. -/
theorem ipv4Header_fields {p : Params} {pcp : Pcp} {n : Nat} {g rest : List Byte} (hn : 28 + n < 65536)
    (hg : g = ipv4Header p pcp n ++ rest) :
    g[0]? = some 0x45 ∧ g[1]? = some (BitVec.ofNat 8 (pcp.toNat * 32)) ∧
    half g 2 (28 + n) ∧ half g 4 0 ∧ half g 6 0 ∧ g[8]? = some 64 ∧ g[9]? = some 17 ∧
    half g 10 (cksum (g.take 10 ++ [0, 0] ++ (g.drop 12).take 8)).toNat ∧
    half g 12 (p.srcIp.toNat / 65536) ∧ half g 14 (p.srcIp.toNat % 65536) ∧
    half g 16 (p.dstIp.toNat / 65536) ∧ half g 18 (p.dstIp.toNat % 65536) := by
  have hzero : g.take 10 ++ [0, 0] ++ (g.drop 12).take 8 = ipv4HeaderZero p pcp n := by
    simp [hg, ipv4Header_append, ipv4HeaderZero, be16, be32]
  rw [hzero]
  simp only [ipv4Header_append, be16, be32, List.cons_append, List.nil_append, tos_eq] at hg
  subst hg
  exact ⟨rfl, rfl, half_of_bytes (w := BitVec.ofNat 16 (28 + n)) (Nat.mod_eq_of_lt hn) rfl rfl,
    half_of_bytes (w := 0) rfl rfl rfl, half_of_bytes (w := 0) rfl rfl rfl, rfl, rfl, half_of_bytes rfl rfl rfl,
    high_half_of_bytes rfl rfl, low_half_of_bytes rfl rfl, high_half_of_bytes rfl rfl, low_half_of_bytes rfl rfl⟩

/-- The fields of the UDP header at the offsets of R86, with the values of R93 and R94. -/
theorem udpHeader_fields {p : Params} {pcp : Pcp} {n : Nat} {g rest : List Byte} (hn : 8 + n < 65536)
    (hg : g = udpHeader p pcp n ++ rest) :
    half g 0 ((p.sportBase.toNat + pcp.toNat) % 65536) ∧ half g 2 ((p.dportBase.toNat + pcp.toNat) % 65536) ∧
    half g 4 (8 + n) ∧ half g 6 0 := by
  simp only [udpHeader, be16, List.cons_append, List.nil_append] at hg
  subst hg
  exact ⟨half_of_bytes (port_toNat ..) rfl rfl, half_of_bytes (port_toNat ..) rfl rfl,
    half_of_bytes (w := BitVec.ofNat 16 (8 + n)) (Nat.mod_eq_of_lt hn) rfl rfl, half_of_bytes (w := 0) rfl rfl rfl⟩

/-- Settles O19: the two headers stand at offsets 18 and 38, and what follows them is `paddedPayload`. -/
theorem udpFrameLayout : Obligations.UdpFrameLayout := by
  intro p dst src vid pcp n f hp hn hf
  simp only [Params.ok, Bool.and_eq_true, decide_eq_true_eq] at hp
  have hlen : f.length = max 60 (46 + n) := hf ▸ build_length p dst src vid pcp 1 n
  rw [build_udp] at hf
  obtain ⟨hpayload, hpadding⟩ := payload_and_padding hf (by simp)
  have hip : f.drop 18 = ipv4Header p pcp n ++ (udpHeader p pcp n ++ paddedPayload 46 n) := by
    rw [hf, List.append_assoc, List.append_assoc, List.drop_left' (ethHeader_length ..)]
  have hudp : f.drop 38 = udpHeader p pcp n ++ paddedPayload 46 n := by
    rw [hf, List.append_assoc, List.drop_left' (by simp)]
  obtain ⟨hversion, htos, htotal, hid, hfragment, httl, hprotocol, hcksum, hsrc, hsrc', hdst, hdst'⟩ :=
    ipv4Header_fields (by omega) hip
  obtain ⟨hsport, hdport, hudplen, hudpck⟩ := udpHeader_fields (by omega) hudp
  simp only [half_drop, List.getElem?_drop, List.drop_drop, Nat.reduceAdd] at *
  exact ⟨hlen, hversion, htos, htotal, hid, hfragment, httl, hprotocol, hcksum, hsrc, hsrc', hdst, hdst', hsport, hdport,
    hudplen, hudpck, hpayload, hpadding⟩

end Sys2Proof.Machine
end

section
/-!
SUPPORT. The text of a MAC address (30_encoding.md R111): hexadecimal digits, groups of two of them with one separator, and
the 48-bit value of six groups.
-/

namespace Sys2Proof.Machine

open Sys2Proof.Claims

/-! ### Digits -/

theorem char_eq_ofNat_sub_add {c : Char} {k : Nat} (h : k ≤ c.toNat) : Char.ofNat (c.toNat - k + k) = c := by
  rw [Nat.sub_add_cancel h, Char.ofNat_toNat]

theorem hexDigit_of_isHex {c : Char} {v : Nat} (h : isHex c v) : hexDigit c = some v := by
  obtain ⟨hv, h⟩ := h
  interval_cases v <;> obtain h | h := h <;> cases h <;> rfl

theorem isHex_of_hexDigit {c : Char} {v : Nat} (h : hexDigit c = some v) : isHex c v := by
  have lower : ∀ v < 16, 10 ≤ v → "0123456789abcdef".toList[v]? = some (Char.ofNat (v + 87)) := by decide
  have upper : ∀ v < 16, 10 ≤ v → "0123456789ABCDEF".toList[v]? = some (Char.ofNat (v + 55)) := by decide
  have decimal : ∀ v < 10, "0123456789abcdef".toList[v]? = some (Char.ofNat (v + 48)) := by decide
  unfold hexDigit decDigit at h
  split at h
  · cases h
    exact ⟨by omega, .inl ((lower _ (by omega) (by omega)).trans (congrArg some (char_eq_ofNat_sub_add (by omega))))⟩
  split at h
  · cases h
    exact ⟨by omega, .inr ((upper _ (by omega) (by omega)).trans (congrArg some (char_eq_ofNat_sub_add (by omega))))⟩
  split at h
  · cases h
    exact ⟨by omega, .inl ((decimal _ (by omega)).trans (congrArg some (char_eq_ofNat_sub_add (by omega))))⟩
  · cases h

/-- A digit of a MAC text is one of the sixteen, in either case. -/
theorem hexDigit_eq_some_iff (c : Char) (v : Nat) : hexDigit c = some v ↔ isHex c v :=
  ⟨isHex_of_hexDigit, hexDigit_of_isHex⟩

/-! ### Groups -/

/-- The two characters of a group with its value. -/
def isGroup (p : Char × Char) (g : Nat) : Prop := ∃ x y, isHex p.1 x ∧ isHex p.2 y ∧ g = x * 16 + y

theorem groups_lt {ps : List (Char × Char)} {gs : List Nat} (h : List.Forall₂ isGroup ps gs) : ∀ g ∈ gs, g < 256 := by
  induction h with
  | nil => exact nofun
  | cons hp _ ih =>
    obtain ⟨x, y, ⟨hx, -⟩, ⟨hy, -⟩, rfl⟩ := hp
    exact List.forall_mem_cons.2 ⟨by omega, ih⟩

theorem macText_of_macGroups {sep : Char} {text : List Char} {gs : List Nat} (h : macGroups sep text = some gs) :
    ∃ ps, ps ≠ [] ∧ text = macText sep ps ∧ List.Forall₂ isGroup ps gs := by
  fun_induction macGroups sep text generalizing gs with
  | case1 a b x y hy hx =>
    cases h
    exact ⟨[(a, b)], List.cons_ne_nil _ _, rfl, .cons ⟨x, y, isHex_of_hexDigit hx, isHex_of_hexDigit hy, rfl⟩ .nil⟩
  | case3 a b rest x y gs' hgs' hy hx ih =>
    cases h
    obtain ⟨ps, hne, rfl, hps⟩ := ih hgs'
    obtain ⟨q, ps, rfl⟩ := List.exists_cons_of_ne_nil hne
    exact ⟨(a, b) :: q :: ps, List.cons_ne_nil _ _, rfl,
      .cons ⟨x, y, isHex_of_hexDigit hx, isHex_of_hexDigit hy, rfl⟩ hps⟩
  | case2 | case4 | case5 | case6 => cases h

theorem macGroups_macText {sep : Char} {ps : List (Char × Char)} {gs : List Nat} (hne : ps ≠ [])
    (h : List.Forall₂ isGroup ps gs) : macGroups sep (macText sep ps) = some gs := by
  induction h with
  | nil => exact absurd rfl hne
  | @cons p g ps gs hp hps ih =>
    obtain ⟨x, y, hx, hy, rfl⟩ := hp
    cases ps with
    | nil =>
      cases hps
      simp [macText, macGroups, hexDigit_of_isHex hx, hexDigit_of_isHex hy]
    | cons q ps => simp [macText, macGroups, hexDigit_of_isHex hx, hexDigit_of_isHex hy, ih]

/-- The texts that are groups with one separator, and the values of the groups. -/
theorem macGroups_eq_some_iff {sep : Char} {text : List Char} {gs : List Nat} :
    macGroups sep text = some gs ↔ ∃ ps, ps ≠ [] ∧ text = macText sep ps ∧ List.Forall₂ isGroup ps gs :=
  ⟨macText_of_macGroups, fun ⟨_, hne, ht, hps⟩ => ht ▸ macGroups_macText hne hps⟩

/-- What `parse_mac` accepts, in terms of `macGroups`: the separator is the text's third character. -/
theorem parseMac_eq_some_iff {text : List Char} {m : Mac} :
    parseMac text = some m ↔ ∃ sep gs, (sep = ':' ∨ sep = '-') ∧ macGroups sep text = some gs ∧ gs.length = 6 ∧
      BitVec.ofNat 48 (ofDigits 256 gs) = m := by
  constructor
  · intro h
    unfold parseMac at h
    split at h
    case h_2 => cases h
    rename_i sep _
    split at h
    case isFalse => cases h
    rename_i hsep
    split at h
    case h_2 => cases h
    rename_i gs hgs
    split at h
    case isFalse => cases h
    rename_i hlen
    cases h
    exact ⟨sep, gs, hsep, hgs, hlen, rfl⟩
  · rintro ⟨sep, gs, hsep, hgs, hlen, rfl⟩
    obtain ⟨ps, -, rfl, hps⟩ := macGroups_eq_some_iff.1 hgs
    match ps, hps.length_eq.trans hlen with
    | (a, b) :: q :: ps, _ =>
      rw [macText] at hgs
      simp [parseMac, macText, hsep, hgs, hlen]

/-- The value of six groups, byte by byte (R111, 20_memory.md R64). -/
theorem mac_eq_iff (m : Mac) {a b c d e f : Nat} (h : ∀ g ∈ [a, b, c, d, e, f], g < 256) :
    BitVec.ofNat 48 (ofDigits 256 [a, b, c, d, e, f]) = m ↔
      m.extractLsb' 40 8 = BitVec.ofNat 8 a ∧ m.extractLsb' 32 8 = BitVec.ofNat 8 b ∧
      m.extractLsb' 24 8 = BitVec.ofNat 8 c ∧ m.extractLsb' 16 8 = BitVec.ofNat 8 d ∧
      m.extractLsb' 8 8 = BitVec.ofNat 8 e ∧ m.extractLsb' 0 8 = BitVec.ofNat 8 f := by
  have hm := m.isLt
  simp only [List.forall_mem_cons] at h
  simp only [← BitVec.toNat_inj, BitVec.extractLsb'_toNat, BitVec.toNat_ofNat, Nat.shiftRight_eq_div_pow, ofDigits,
    List.foldl_cons, List.foldl_nil]
  omega

/-- Settles O56: an accepted text is six groups with one separator, and the value is that of their digits. -/
theorem parseMacGrammar : Obligations.ParseMacGrammar := by
  refine ⟨hexDigit_eq_some_iff, fun text m => parseMac_eq_some_iff.trans ⟨?accepted, ?grammar⟩⟩
  case accepted =>
    rintro ⟨sep, gs, hsep, hgs, hlen, hm⟩
    obtain ⟨ps, -, rfl, hps⟩ := macGroups_eq_some_iff.1 hgs
    match gs, hlen with
    | [_, _, _, _, _, _], _ =>
      rw [mac_eq_iff m (groups_lt hps)] at hm
      match ps, hps with
      | _, .cons ⟨x0, y0, hx0, hy0, e0⟩ (.cons ⟨x1, y1, hx1, hy1, e1⟩ (.cons ⟨x2, y2, hx2, hy2, e2⟩
          (.cons ⟨x3, y3, hx3, hy3, e3⟩ (.cons ⟨x4, y4, hx4, hy4, e4⟩ (.cons ⟨x5, y5, hx5, hy5, e5⟩ .nil))))) =>
        subst e0 e1 e2 e3 e4 e5
        exact ⟨sep, _, _, _, _, _, _, ![x0, x1, x2, x3, x4, x5], ![y0, y1, y2, y3, y4, y5], hsep, rfl,
          ⟨hx0, hy0, hx1, hy1, hx2, hy2, hx3, hy3, hx4, hy4, hx5, hy5⟩, hm⟩
  case grammar =>
    rintro ⟨sep, a, b, c, d, e, f, x, y, hsep, rfl,
      ⟨hx0, hy0, hx1, hy1, hx2, hy2, hx3, hy3, hx4, hy4, hx5, hy5⟩, hm⟩
    have hps : List.Forall₂ isGroup [a, b, c, d, e, f] [x 0 * 16 + y 0, x 1 * 16 + y 1, x 2 * 16 + y 2,
        x 3 * 16 + y 3, x 4 * 16 + y 4, x 5 * 16 + y 5] :=
      .cons ⟨_, _, hx0, hy0, rfl⟩ <| .cons ⟨_, _, hx1, hy1, rfl⟩ <| .cons ⟨_, _, hx2, hy2, rfl⟩ <|
      .cons ⟨_, _, hx3, hy3, rfl⟩ <| .cons ⟨_, _, hx4, hy4, rfl⟩ <| .cons ⟨_, _, hx5, hy5, rfl⟩ .nil
    exact ⟨sep, _, hsep, macGroups_macText (List.cons_ne_nil _ _) hps, rfl, (mac_eq_iff m (groups_lt hps)).2 hm⟩

end Sys2Proof.Machine
end

section
/-!
SUPPORT. The Host's acts that come from the invocation surface (30_encoding.md R112, R114; 60_exceptions.md R191): how an
invocation is expanded, what a rejected word drops, and the polling that ends in the report.
-/

namespace Sys2Proof.Machine

open Sys2Proof.Claims

/-! ### The expansion -/

theorem step_txgen_ok {s : State} {udp : Bool} {args : List (List Char)} {rest : List HostAct} {ws : List Word64}
    (hq : s.hostq = .txgen udp args :: rest) (h : expandInvocation udp args = .ok ws) :
    step s = .next { s with hostq := ws.map .invoked ++ .await :: rest } := by
  rw [step_cons hq, hostAct, h]

theorem step_txgen_error {s : State} {udp : Bool} {args : List (List Char)} {rest : List HostAct} {e : HostOutcome}
    (hq : s.hostq = .txgen udp args :: rest) (h : expandInvocation udp args = .error e) :
    step s = .next { s with hostq := rest, hostOut := some e } := by
  rw [step_cons hq, hostAct, h]

theorem expandInvocation_few {udp : Bool} {args : List (List Char)} (h : args.length < 7) :
    expandInvocation udp args = .error .usage := by
  unfold expandInvocation
  split
  case h_3 => rfl
  all_goals simp at h

/-- Seven operands, or eight with the payload size, are the ones that are read. -/
theorem expandInvocation_operands (udp : Bool) (iface dst src vlan classes pps duration : List Char)
    {more : List (List Char)} (h : more.length ≤ 1) :
    expandInvocation udp (iface :: dst :: src :: vlan :: classes :: pps :: duration :: more) =
      readInvocation udp dst src vlan classes pps duration more.head? := by
  match more, h with
  | [], _ => rfl
  | [_], _ => rfl

theorem readInvocation_badMac {dst src : List Char} (h : parseMac dst = none ∨ parseMac src = none) (udp : Bool)
    (vlan classes pps duration : List Char) (psize : Option (List Char)) :
    readInvocation udp dst src vlan classes pps duration psize = .error .construction := by
  unfold readInvocation
  obtain h | h := h
  · rw [h]
  · rw [h]
    cases parseMac dst <;> rfl

theorem expansion_eq_invocationWords (udp : Bool) (dst src : Mac) (vlan : BitVec 48) (psize : Option (BitVec 48))
    (classes : List (BitVec 48)) (pps duration : BitVec 48) :
    expansion udp dst src vlan psize classes pps duration = invocationWords udp dst src vlan psize classes pps duration := by
  cases psize <;> rfl

theorem readInvocation_ok {udp : Bool} {dst src vlan classes pps duration : List Char} {psize : Option (List Char)}
    {d c : Mac} {v p t : BitVec 48} {cs : List (BitVec 48)} {n : Option (BitVec 48)}
    (hd : parseMac dst = some d) (hc : parseMac src = some c) (hv : parseArg vlan = some v)
    (hcs : parseClasses classes = some cs) (hp : parseArg pps = some p) (ht : parseArg duration = some t)
    (hn : psize.map parseArg = n.map some) :
    readInvocation udp dst src vlan classes pps duration psize = .ok (invocationWords udp d c v n cs p t) := by
  rw [← expansion_eq_invocationWords, readInvocation, hd, hc, hv, hcs, hp, ht, hn]
  cases n <;> rfl

/-- Settles O57: each kind of invocation has its lemma about `expandInvocation`, and the step issues what that answers. -/
theorem invocationExpands : Obligations.InvocationExpands := by
  intro udp s rest args hq
  refine ⟨fun h => step_txgen_error hq (expandInvocation_few h), ?_⟩
  rintro iface dst src vlan classes pps duration more rfl hmore
  have hexpand := expandInvocation_operands udp iface dst src vlan classes pps duration hmore
  refine ⟨fun h => step_txgen_error hq (hexpand.trans (readInvocation_badMac h ..)), ?_⟩
  intro d c v cs p t psize hd hc hv hcs hp ht hpsize
  have hn : more.head?.map parseArg = psize.map some := by
    obtain ⟨rfl, rfl⟩ | ⟨n, hn, rfl⟩ := hpsize
    · rfl
    · rw [← List.head?_map, hn]
      rfl
  exact step_txgen_ok hq (hexpand.trans (readInvocation_ok hd hc hv hcs hp ht hn))

/-! ### The end of an invocation -/

theorem dropInvocation_append (ws : List Word64) (rest : List HostAct) :
    dropInvocation (ws.map .invoked ++ .await :: rest) = rest := by
  induction ws with
  | nil => rfl
  | cons w ws ih => exact ih

theorem afterInvoked_rejected (code : BitVec 8) (s : State) :
    afterInvoked (rejected code s) =
      rejected code { s with hostq := dropInvocation s.hostq, hostOut := some (.rejected code) } := rfl

theorem step_invoked_rejected {s : State} {w : Word64} {q : List HostAct} {code : BitVec 8}
    (hq : s.hostq = .invoked w :: q)
    (h : runWord w { s with hostq := q } = .next (rejected code { s with hostq := q })) :
    step s = .next (rejected code { s with hostq := dropInvocation q, hostOut := some (.rejected code) }) := by
  rw [step_cons hq, hostAct, h]
  exact congrArg _ (afterInvoked_rejected code _)

/-- `RD STATUS`, the poll of R112. -/
theorem runWord_rdStatus (s : State) : runWord (commandWord 0x20 0) s = .next (answered (statusWord s) s) :=
  (runWord_instr (decode_word_rd 0 0)).trans (exec_rd_value rfl rfl)

theorem step_await_done {s : State} {rest : List HostAct} (hq : s.hostq = .await :: rest) (hs : s.state = .done) :
    step s = .next (answered (statusWord s) { s with hostq := rest, hostOut := some (.report (reportOf s)) }) := by
  rw [step_cons hq, hostAct, if_pos hs, runWord_rdStatus]
  rfl

theorem step_await_wait {s : State} {rest : List HostAct} (hq : s.hostq = .await :: rest) (hs : s.state ≠ .done) :
    step s = advance s := by
  rw [step_cons hq, hostAct, if_neg hs, ← hq]

/-- Settles O58: a reject drops the invocation up to its polling act; in DONE that act reads STATUS and takes the report. -/
theorem hostStopsOnReject : Obligations.HostStopsOnReject := by
  refine ⟨fun s w ws rest code hq h => ?rejects, fun s rest hq hs => ?reports, fun s rest => step_await_wait⟩
  case rejects => rw [step_invoked_rejected hq h, dropInvocation_append]
  case reports =>
    exact ⟨reportOf s, step_await_done hq hs, rfl, rfl, rfl, rfl, rfl, rfl, exec_rd_value rfl rfl⟩

end Sys2Proof.Machine
end

section
/-!
SUPPORT. The configuration commands and RDFB (40_config_commands.md R120 to R128, R131). Each command's word decodes to it; its
checks (30_encoding.md R104) come first, and what passes them is answered.
-/

namespace Sys2Proof.Machine

open Sys2Proof.Claims

/-! ### Registers written outside RUN (R120 to R125, R127, R128) -/

/-- A command outside RUN whose operand is in range goes on to its effect. -/
theorem unlessBusy_check_of {s : State} {ok : Bool} {r : Reason} {f : Result} (hs : s.state ≠ .run) (h : ok = true) :
    unlessBusy s (check ok r s f) = f :=
  (unlessBusy_free hs).trans (check_of h)

/-- Settles O1: SETDST has no check but BUSY. -/
theorem setdstStoresMac : Obligations.SetdstStoresMac :=
  fun mac _ => ⟨decodeOfEncode (.setdst mac), unlessBusy_free, unlessBusy_run⟩

/-- Settles O2: SETSRC has no check but BUSY. -/
theorem setsrcStoresMac : Obligations.SetsrcStoresMac :=
  fun mac _ => ⟨decodeOfEncode (.setsrc mac), unlessBusy_free, unlessBusy_run⟩

/-- Settles O3: SETVLAN has no check but BUSY; the decoder splits the operand into the bits kept and the bits dropped. -/
theorem setvlanKeepsTwelveBits : Obligations.SetvlanKeepsTwelveBits :=
  fun hi vid _ => ⟨decodeOfEncode (.setvlan hi vid), unlessBusy_free, unlessBusy_run⟩

/-- Settles O4: the one operand check is on the bits above bit 0. -/
theorem setprofStoresProfile : Obligations.SetprofStoresProfile := by
  refine fun mbz prof s => ⟨decodeOfEncode (.setprof mbz prof), fun hs h => ?stores, fun hs h => ?rejects, unlessBusy_run⟩
  case stores => exact unlessBusy_check_of hs (beq_iff_eq.2 h)
  case rejects => exact exec_oprange (beq_eq_false_iff_ne.2 h) (.inr hs)

/-- Settles O5: the higher operand bits are checked first, then the size against PAYLOAD_MAX. -/
theorem setpsizeStoresSize : Obligations.SetpsizeStoresSize := by
  refine fun mbz n s => ⟨decodeOfEncode (.setpsize mbz n), fun hs h hn => ?stores, fun hs h => ?rejects, unlessBusy_run⟩
  case stores => exact (unlessBusy_check_of hs (beq_iff_eq.2 h)).trans (check_of (decide_eq_true hn))
  case rejects =>
    have hbad : (Instr.setpsize mbz n).wellFormed s.par = false := by
      simpa [Instr.wellFormed, imp_iff_not_or] using h
    exact exec_oprange hbad (.inr hs)

/-- Settles O6: the operand must be 0, and only TCCNT is written. -/
theorem tcclrEmptiesList : Obligations.TcclrEmptiesList := by
  refine fun mbz s => ⟨decodeOfEncode (.tcclr mbz), fun hs h => ?clears, fun hs h => ?rejects, unlessBusy_run⟩
  case clears => exact unlessBusy_check_of hs (beq_iff_eq.2 h)
  case rejects => exact exec_oprange (beq_eq_false_iff_ne.2 h) (.inr hs)

/-- Settles O8: the higher operand bits are checked first, then the rate against 0. -/
theorem setppsStoresRate : Obligations.SetppsStoresRate := by
  refine fun mbz rate s => ⟨decodeOfEncode (.setpps mbz rate), fun hs h hr => ?stores, fun hs h => ?rejects, unlessBusy_run⟩
  case stores => exact (unlessBusy_check_of hs (beq_iff_eq.2 h)).trans (check_of (bne_iff_ne.2 hr))
  case rejects =>
    have hbad : (Instr.setpps mbz rate).wellFormed s.par = false := by
      simpa [Instr.wellFormed, imp_iff_not_or] using h
    exact exec_oprange hbad (.inr hs)

/-- Settles O9: the one operand check is on the bits above bit 31; every duration passes. -/
theorem setdurStoresDuration : Obligations.SetdurStoresDuration := by
  refine fun mbz seconds s =>
    ⟨decodeOfEncode (.setdur mbz seconds), fun hs h => ?stores, fun hs h => ?rejects, unlessBusy_run⟩
  case stores => exact unlessBusy_check_of hs (beq_iff_eq.2 h)
  case rejects => exact exec_oprange (beq_eq_false_iff_ne.2 h) (.inr hs)

/-! ### TCPUSH (R126) -/

theorem ConfigOk.classList_length {s : State} (h : ConfigOk s) : (classList s).length = s.tccnt.toNat := by
  rw [classList, List.length_take, Vector.length_toList, Nat.min_eq_left h.tccnt]

/-- Of the eight classes one is missing from the list, so the list of distinct classes has at most seven. -/
theorem ConfigOk.tccnt_lt_of_not_mem {s : State} (h : ConfigOk s) {c : Pcp} (hc : c ∉ classList s) : s.tccnt.toNat < 8 := by
  have hnodup : ((c :: classList s).map BitVec.toFin).Nodup :=
    (List.nodup_cons.2 ⟨hc, h.distinct⟩).map fun _ _ => BitVec.eq_of_toFin_eq
  have hcard := hnodup.length_le_card
  rwa [List.length_map, List.length_cons, h.classList_length, Fintype.card_fin] at hcard

theorem exec_tcpush_append {s : State} {c : Pcp} (hs : s.state ≠ .run) (hc : c ∉ classList s) (hn : s.tccnt.toNat < 8)
    (hi : BitVec 45) :
    exec (.tcpush hi c) s = .next (respond 0 (noteTrunc (hi != 0)
      { s with tclist := s.tclist.setIfInBounds s.tccnt.toNat c, tccnt := s.tccnt + 1 })) :=
  (unlessBusy_check_of hs (by simpa using hc)).trans (if_pos hn)

theorem exec_tcpush_duplicate {s : State} {c : Pcp} (hs : s.state ≠ .run) (hc : c ∈ classList s) (hi : BitVec 45) :
    exec (.tcpush hi c) s = .next (rejected 7 s) :=
  (unlessBusy_free hs).trans (check_of_not (by simpa using hc))

/-- Settles O7: a class outside a list of distinct classes finds room, and the push makes it the last entry. -/
theorem tcpushAppendsClass : Obligations.TcpushAppendsClass := by
  refine fun hi c s h => ⟨decodeOfEncode (.tcpush hi c), fun hs hc => ?appends,
    fun hs hc => exec_tcpush_duplicate hs hc hi, fun hfull => ?full, unlessBusy_run⟩
  case appends =>
    have hroom := h.tccnt_lt_of_not_mem hc
    have hcount : (s.tccnt + 1).toNat = s.tccnt.toNat + 1 := toNat_succ (by decide) (by omega)
    exact ⟨_, exec_tcpush_append hs hc hroom hi, classList_push hroom c, hcount, hcount.trans_le hroom, rfl, rfl⟩
  case full =>
    by_contra hc
    have hroom := h.tccnt_lt_of_not_mem hc
    rw [hfull] at hroom
    exact absurd hroom (by decide)

/-! ### RDFB (R131) -/

/-- One byte of a valid frame, as MemRead reads it (20_memory.md R61). -/
theorem memRead_one {s : State} {c : Pcp} {o : Nat} {v : Byte} (f : List Byte → Result) (hv : at8 s.fvalid c = true)
    (ho : o < (at8 s.flen c).toNat) (hb : s.fs.byte (slotBase c + o) = some v) :
    memRead s (slotBase c + o) 1 f = f [v] := by
  have hlen : (at8 s.flen c).toNat < 2048 := (at8 s.flen c).isLt
  have hslot := slotBase_lt c
  have hfits : slotBase c + o + 1 ≤ 16384 := by omega
  have hread : memReadable s (slotBase c + o) 1 = true := by
    simp [memReadable_slot s c o 1 (by omega), hfits, hv, Nat.succ_le_of_lt ho]
  have hbytes : s.fs.bytes (slotBase c + o) 1 = some [v] := by simp [Memory.bytes, hb]
  simp [memRead, hread, hbytes]

/-- An offset outside the slot's valid frame is refused by one of two checks. -/
theorem exec_rdfb_noframe {s : State} {c : Pcp} {off : BitVec 11}
    (h : at8 s.fvalid c = false ∨ (at8 s.flen c).toNat ≤ off.toNat) :
    exec (.rdfb 0 c off) s = .next (rejected 9 s) := by
  have hbad : (at8 s.fvalid c && decide (off.toNat < (at8 s.flen c).toNat)) = false := by
    simpa [imp_iff_not_or] using h
  exact check_check_of_not (r := .noframe) hbad

theorem exec_rdfb_byte {s : State} {c : Pcp} {off : BitVec 11} {v : Byte} (hv : at8 s.fvalid c = true)
    (ho : off.toNat < (at8 s.flen c).toNat) (hb : s.fs.byte (slotBase c + off.toNat) = some v) :
    exec (.rdfb 0 c off) s = .next (answered (v.setWidth 64) s) :=
  calc exec (.rdfb 0 c off) s = memRead s (slotBase c + off.toNat) 1 _ :=
        (check_of hv).trans (check_of (decide_eq_true ho))
    _ = .next (answered (v.setWidth 64) s) := memRead_one _ hv ho hb

/-- Settles O13: every byte of a valid frame holds a value, since the invariant has the frame whole. -/
theorem rdfbAnswersByte : Obligations.RdfbAnswersByte := by
  refine fun mbz c off s h => ⟨decodeOfEncode (.rdfb mbz c off), fun hm => ?oprange, ?noframe, ?byte⟩
  case oprange => exact exec_oprange (beq_eq_false_iff_ne.2 hm) (.inl (by simp [Instr.opcode, neverBusy]))
  case noframe =>
    rintro rfl hout
    exact exec_rdfb_noframe hout
  case byte =>
    rintro rfl hv ho
    obtain ⟨v, hb⟩ := Memory.byte_isSome_of_bytes (h.whole c hv) ho
    exact ⟨v, hb, exec_rdfb_byte hv ho hb⟩

end Sys2Proof.Machine
end

section
/-!
SUPPORT. The Internet checksum (41_framebuilder.md R140 to R143): the word sum of a buffer in parts, what a fold keeps of a
number, and why a buffer that holds its own checksum sums to 0. Then what a receiver reads back from a built frame (R146,
R148), and BUILD (R150).
-/

namespace Sys2Proof.Machine

open Sys2Proof.Claims

/-! ### The word sum -/

theorem wordSum_append {a : List Byte} (ha : a.length % 2 = 0) (b : List Byte) :
    wordSum (a ++ b) = wordSum a + wordSum b := by
  induction a using wordSum.induct with
  | case1 => simp [wordSum]
  | case2 x => simp at ha
  | case3 x y rest ih =>
    have hrest : rest.length % 2 = 0 := by
      simp only [List.length_cons] at ha
      omega
    simp [wordSum, ih hrest, Nat.add_assoc]

/-- Each word is at most 0xFFFF. -/
theorem wordSum_le (b : List Byte) : wordSum b ≤ 65535 * ((b.length + 1) / 2) := by
  induction b using wordSum.induct with
  | case1 => simp [wordSum]
  | case2 x => simp only [wordSum, List.length_singleton]; omega
  | case3 x y rest ih => simp only [wordSum, List.length_cons]; omega

/-- R141: 65537 words of at most 0xFFFF sum to at most 2^32 - 1. -/
theorem wordSum_lt {b : List Byte} (h : (b.length + 1) / 2 ≤ 65537) : wordSum b < 2 ^ 32 := by
  have hle := wordSum_le b
  omega

/-- A half word adds its value. -/
theorem wordSum_be16 (c : BitVec 16) : wordSum (be16 c) = c.toNat := by
  simp only [wordSum, be16, BitVec.extractLsb'_toNat, Nat.shiftRight_eq_div_pow]
  omega

/-! ### Folding -/

/-- A fold replaces 65536 by 1, so it keeps the number modulo 65535. -/
theorem foldCarry_modEq (n : Nat) : foldCarry n ≡ n [MOD 65535] := by
  unfold foldCarry Nat.ModEq
  omega

theorem foldCarry_pos {n : Nat} (h : 0 < n) : 0 < foldCarry n := by
  unfold foldCarry
  omega

theorem foldCarry_le_of_lt {n : Nat} (h : n < 2 ^ 32) : foldCarry n ≤ 131070 := by
  unfold foldCarry
  omega

/-- The second fold leaves no carry (R141). -/
theorem foldCarry_foldCarry_le {n : Nat} (h : n < 2 ^ 32) : foldCarry (foldCarry n) ≤ 65535 := by
  have h1 := foldCarry_le_of_lt h
  rw [foldCarry]
  omega

theorem foldCarry_foldCarry_modEq (n : Nat) : foldCarry (foldCarry n) ≡ n [MOD 65535] :=
  (foldCarry_modEq _).trans (foldCarry_modEq n)

/-! ### The checksum -/

theorem cksum_congr {a b : List Byte} (h : wordSum a = wordSum b) : cksum a = cksum b := by
  rw [cksum, cksum, h]

theorem cksum_toNat {b : List Byte} (h : wordSum b < 2 ^ 32) :
    (cksum b).toNat = 65535 - foldCarry (foldCarry (wordSum b)) := by
  have h2 := foldCarry_foldCarry_le h
  rw [cksum, BitVec.toNat_ofNat]
  omega

/-- Settles O21: the bound on the sum gives the bound after each fold, and 20 bytes are ten words. -/
theorem checksumTwoFoldsEnough : Obligations.ChecksumTwoFoldsEnough := by
  refine ⟨fun b hb => ?_, fun b hb => (wordSum_le b).trans (by omega)⟩
  have hsum := wordSum_lt hb
  exact ⟨hsum, foldCarry_le_of_lt hsum, foldCarry_foldCarry_le hsum, cksum_toNat hsum⟩

/-- A sum that is a positive multiple of 65535 folds to 65535, whose complement is 0. -/
theorem cksum_eq_zero {b : List Byte} (h : wordSum b < 2 ^ 32) (hpos : 0 < wordSum b) (hdvd : 65535 ∣ wordSum b) :
    cksum b = 0 := by
  have hle := foldCarry_foldCarry_le h
  have hge : 0 < foldCarry (foldCarry (wordSum b)) := foldCarry_pos (foldCarry_pos hpos)
  have hmod : 65535 ∣ foldCarry (foldCarry (wordSum b)) := ((foldCarry_foldCarry_modEq _).dvd_iff dvd_rfl).2 hdvd
  have hfull : foldCarry (foldCarry (wordSum b)) = 65535 := by omega
  apply BitVec.eq_of_toNat_eq
  rw [cksum_toNat h, hfull]
  rfl

/-- The checksum completes the sum to a positive multiple of 65535. -/
theorem wordSum_add_cksum {b : List Byte} (h : wordSum b < 2 ^ 32) :
    0 < wordSum b + (cksum b).toNat ∧ 65535 ∣ wordSum b + (cksum b).toNat := by
  have hle := foldCarry_foldCarry_le h
  have hmod : foldCarry (foldCarry (wordSum b)) % 65535 = wordSum b % 65535 := foldCarry_foldCarry_modEq _
  have hzero : wordSum b = 0 → foldCarry (foldCarry (wordSum b)) = 0 := fun h0 => by rw [h0]; rfl
  rw [cksum_toNat h]
  omega

/-- A half word put at an even offset in place of zeros adds its value. -/
theorem wordSum_halfword {pre : List Byte} (hpre : pre.length % 2 = 0) (c : BitVec 16) (post : List Byte) :
    wordSum (pre ++ be16 c ++ post) = wordSum (pre ++ [0, 0] ++ post) + c.toNat := by
  have hzero : wordSum ([0, 0] ++ post) = wordSum post := by simp [wordSum]
  rw [List.append_assoc, List.append_assoc, wordSum_append hpre, wordSum_append hpre, hzero,
    wordSum_append (by simp), wordSum_be16]
  omega

/-- R143 (a): a zero half word at an even offset is filled with the checksum of the buffer. -/
theorem cksum_filled {pre post : List Byte} (hpre : pre.length % 2 = 0)
    (hlen : pre.length + 2 + post.length ≤ 131074) :
    cksum (pre ++ be16 (cksum (pre ++ [0, 0] ++ post)) ++ post) = 0 := by
  have hzero : wordSum (pre ++ [0, 0] ++ post) < 2 ^ 32 := by
    apply wordSum_lt
    simp only [List.length_append, List.length_cons, List.length_nil]
    omega
  have hfilled : wordSum (pre ++ be16 (cksum (pre ++ [0, 0] ++ post)) ++ post) < 2 ^ 32 := by
    apply wordSum_lt
    simp only [List.length_append, be16_length]
    omega
  obtain ⟨hpos, hdvd⟩ := wordSum_add_cksum hzero
  rw [← wordSum_halfword hpre] at hpos hdvd
  exact cksum_eq_zero hfilled hpos hdvd

/-- Settles O20: `cksum_filled`, six sums, and a zero word that adds 0. -/
theorem checksumLaws : Obligations.ChecksumLaws := by
  refine ⟨fun pre post hpre _ hlen => cksum_filled hpre hlen, by decide, fun b hb => cksum_congr ?_⟩
  rw [wordSum_append hb]
  rfl

/-! ### The built frame -/

/-- R146: the IPv4 header is filled in at offset 10. -/
theorem cksum_ipv4Header (p : Params) (pcp : Pcp) (n : Nat) : cksum (ipv4Header p pcp n) = 0 :=
  cksum_filled (pre := (ipv4HeaderZero p pcp n).take 10) (post := (ipv4HeaderZero p pcp n).drop 12) (by simp) (by simp)

theorem build_udp_drop_take (p : Params) (dst src : Mac) (vid : Vid) (pcp : Pcp) (n : Nat) :
    ((build p dst src vid pcp 1 n).drop 18).take 20 = ipv4Header p pcp n := by
  rw [build_udp, List.append_assoc, List.append_assoc, List.drop_left' (ethHeader_length ..),
    List.take_left' (ipv4Header_length ..)]

theorem build_getElem?_header (p : Params) (dst src : Mac) (vid : Vid) (pcp : Pcp) (prof : BitVec 1) (n : Nat) {i : Nat}
    (h : i < 18) : (build p dst src vid pcp prof n)[i]? = (ethHeader dst src vid pcp)[i]? := by
  rw [← build_take_header p dst src vid pcp prof n, List.getElem?_take_of_lt h]

theorem tci_toNat (pcp : Pcp) (vid : Vid) : (tci pcp vid).toNat = pcp.toNat * 8192 + vid.toNat := by
  rw [tci_eq_append, BitVec.toNat_append, ← Nat.shiftLeft_add_eq_or_of_lt vid.isLt, BitVec.toNat_append]
  simp only [Nat.shiftLeft_eq, BitVec.toNat_ofNat, Nat.zero_mod, Nat.or_zero]
  omega

/-- The two bytes of the TCI give back its parts (R148); bit 4 of the first is the zero bit of R83. -/
theorem tci_decodes (pcp : Pcp) (vid : Vid) :
    ((tci pcp vid).extractLsb' 8 8).toNat / 32 = pcp.toNat ∧
    ((tci pcp vid).extractLsb' 8 8).toNat % 16 * 256 + ((tci pcp vid).extractLsb' 0 8).toNat = vid.toNat ∧
    ((tci pcp vid).extractLsb' 8 8).getLsbD 4 = false := by
  have hpcp := pcp.isLt
  have hvid := vid.isLt
  have hhigh : ((tci pcp vid).extractLsb' 8 8).toNat = pcp.toNat * 32 + vid.toNat / 256 := by
    simp only [BitVec.extractLsb'_toNat, tci_toNat, Nat.shiftRight_eq_div_pow]
    omega
  have hlow : ((tci pcp vid).extractLsb' 0 8).toNat = vid.toNat % 256 := by
    simp only [BitVec.extractLsb'_toNat, tci_toNat, Nat.shiftRight_zero]
    omega
  rw [BitVec.getLsbD, Nat.testBit_eq_decide_div_mod_eq, decide_eq_false_iff_not, hhigh, hlow]
  omega

/-- Settles O17: the TCI stands in the first 18 bytes and the filled-in IPv4 header in the next 20. -/
theorem builtFrameDecodesBack : Obligations.BuiltFrameDecodesBack := by
  refine ⟨fun p dst src vid pcp prof n => ⟨?length, ⟨_, _, ?high, ?low, tci_decodes pcp vid⟩, ?checksum⟩, ?scenario⟩
  case length => rw [build_length]; omega
  case high => exact build_getElem?_header p dst src vid pcp prof n (by decide)
  case low => exact build_getElem?_header p dst src vid pcp prof n (by decide)
  case checksum =>
    rintro rfl
    rw [build_udp_drop_take, cksum_ipv4Header]
  case scenario =>
    intro p
    rw [build_minimal]
    decide

/-! ### BUILD (R150) -/

theorem frameWritten_iff (s : State) : frameWritten s ↔ cfgFrameOk s = true := by
  simp [frameWritten, cfgFrameOk, and_assoc]

theorem flen_toNat_installFrame {c : Pcp} {f : List Byte} (s : State) (h : f.length ≤ frameLenMax) :
    (at8 (installFrame c f s).flen c).toNat = f.length := by
  have hlt : f.length < 2 ^ 11 := Nat.lt_succ_of_le h
  rw [at8_flen_installFrame, if_pos rfl, BitVec.toNat_ofNat, Nat.mod_eq_of_lt hlt]

theorem byte_installFrame_outside {c : Pcp} {f : List Byte} (s : State) {a : Nat}
    (h : a < slotBase c ∨ slotBase c + f.length ≤ a) : (installFrame c f s).fs.byte a = s.fs.byte a := by
  rw [installFrame_fs, Memory.byte_setBytes, if_neg (by omega)]

theorem installFrame_other_slot {c d : Pcp} (f : List Byte) (s : State) (h : d ≠ c) :
    at8 (installFrame c f s).fvalid d = at8 s.fvalid d ∧ at8 (installFrame c f s).flen d = at8 s.flen d :=
  ⟨at8_set8_ne _ _ h.symm, at8_set8_ne _ _ h.symm⟩

/-- Settles O22: the configuration invariant makes the frame fit its slot, so BUILD is `installFrame`. -/
theorem buildInstallsFrame : Obligations.BuildInstallsFrame := by
  refine fun hi c s h => ⟨decodeOfEncode (.build hi c), fun hs hw => ?builds, fun hs hw => ?unset, unlessBusy_run⟩
  case builds =>
    obtain ⟨-, hfit, -⟩ := frameFor_length_ok h c
    have hexec : exec (.build hi c) s = .next (respond _ (noteTrunc (hi != 0) (installFrame c (frameFor s c) s))) :=
      execBuild_eq hs ((frameWritten_iff s).1 hw) hfit
    rw [hexec, show builtFor s c = frameFor s c from rfl]
    generalize frameFor s c = f at hfit
    exact ⟨_, rfl, Memory.bytes_setBytes_same .., fun a => byte_installFrame_outside s, at8_set8_same ..,
      flen_toNat_installFrame s hfit, fun d => installFrame_other_slot f s, rfl, rfl⟩
  case unset =>
    exact (unlessBusy_free hs).trans (check_of_not (Bool.eq_false_iff.2 (mt (frameWritten_iff s).2 hw)))

end Sys2Proof.Machine
end

section
/-!
SUPPORT. The end of a session, STOP, LoopTop and Tick (42_pacedsender.md R165, R168 to R170), and that no command moves NOW.
-/

namespace Sys2Proof.Machine

open Sys2Proof.Claims

/-! ### Finish, STOP, LoopTop -/

/-- Settles O31: each kind of `finish` unfolds to its outcome. -/
theorem finishWritesOutcome : Obligations.FinishWritesOutcome :=
  fun _ => ⟨rfl, rfl, rfl⟩

/-- Settles O32: the operand is the one check of STOP, and STATE decides what an accepted STOP does. -/
theorem stopEndsRunningSession : Obligations.StopEndsRunningSession := by
  refine fun mbz s => ⟨decodeOfEncode (.stop mbz), fun h => ?oprange, fun h hs => ?running, fun h hs => ?idle⟩
  case oprange => exact exec_oprange (beq_eq_false_iff_ne.2 h) (.inl (by simp [Instr.opcode, neverBusy]))
  case running =>
    refine (check_of (beq_iff_eq.2 h)).trans ?_
    rw [if_pos hs]
    rfl
  case idle =>
    refine (check_of (beq_iff_eq.2 h)).trans ?_
    rw [if_neg hs]
    rfl

/-- The duration test of LoopTop in the words of the statements (R165). -/
theorem durationReached_iff (s : State) : durationReached s ↔ durationOver s = true :=
  (decide_eq_true_iff (p := _ ≤ sinceStart s)).symm

/-- Settles O28: in RUN/TOP the framer's step is LoopTop, which tests the duration. -/
theorem loopTopChecksDuration : Obligations.LoopTopChecksDuration := by
  intro s hr hp
  rw [advance_top hr hp, durationReached_iff]
  unfold loopTop
  refine ⟨fun h => ?ends, fun h => ?waits⟩
  case ends =>
    rw [if_pos h]
    rfl
  case waits =>
    rw [if_neg h]
    rfl

/-! ### What moves NOW (R170) -/

theorem loopTop_now (s : State) : (loopTop s).now = s.now := by
  unfold loopTop
  split
  · exact finish_now .normal s
  · rfl

theorem settleAttempt_now (c : Pcp) (r : SendAns) (s : State) : (settleAttempt c r s).now = s.now := by
  cases r <;> rfl

theorem execStart_now {mbz : BitVec 48} {s t : State} (h : execStart mbz s = .next t) : t.now = s.now := by
  obtain ⟨r, rfl⟩ | ⟨-, -, -, -, ⟨-, rfl⟩ | ⟨-, -, rfl⟩⟩ := execStart_next h
  · rfl
  · rfl
  · rw [enterLoop_eq]
    rfl

/-- No command moves NOW: each is a reject or an update of other registers. -/
theorem exec_now {i : Instr} {s t : State} (h : exec i s = .next t) : t.now = s.now := by
  cases i with
  | setdst mac => obtain ⟨r, rfl⟩ | ⟨-, rfl⟩ := execSetdst_next h <;> rfl
  | setsrc mac => obtain ⟨r, rfl⟩ | ⟨-, rfl⟩ := execSetsrc_next h <;> rfl
  | setvlan hi vid => obtain ⟨r, rfl⟩ | ⟨-, rfl⟩ := execSetvlan_next h <;> rfl
  | setprof mbz prof => obtain ⟨r, rfl⟩ | ⟨-, rfl⟩ := execSetprof_next h <;> rfl
  | setpsize mbz n => obtain ⟨r, rfl⟩ | ⟨-, -, rfl⟩ := execSetpsize_next h <;> rfl
  | tcclr mbz => obtain ⟨r, rfl⟩ | ⟨-, rfl⟩ := execTcclr_next h <;> rfl
  | tcpush hi pcp => obtain ⟨r, rfl⟩ | ⟨-, -, -, rfl⟩ := execTcpush_next h <;> rfl
  | setpps mbz rate => obtain ⟨r, rfl⟩ | ⟨-, -, rfl⟩ := execSetpps_next h <;> rfl
  | setdur mbz seconds => obtain ⟨r, rfl⟩ | ⟨-, rfl⟩ := execSetdur_next h <;> rfl
  | build hi pcp => obtain ⟨r, rfl⟩ | ⟨-, -, -, rfl⟩ := execBuild_next h <;> rfl
  | start mbz => exact execStart_now h
  | stop mbz => obtain ⟨r, rfl⟩ | ⟨-, rfl⟩ | ⟨-, rfl⟩ := execStop_next h <;> rfl
  | rd mbz reg => obtain ⟨r, rfl⟩ | ⟨-, d, -, -, rfl⟩ := execRd_next h <;> rfl
  | rdfb mbz slot off => obtain ⟨r, rfl⟩ | ⟨d, rfl⟩ := execRdfb_next h <;> rfl

/-- Settles O33: with no Sender step enabled the framer ticks; LoopTop, Attempt and the commands leave NOW. -/
theorem tickOnlyWhenSenderIdle : Obligations.TickOnlyWhenSenderIdle := by
  refine fun s => ⟨fun h => ?ticks, fun hr h t ht => ?sender, fun _ _ => exec_now⟩
  case ticks =>
    rw [attemptDue_iff] at h
    exact advance_tick h
  case sender =>
    rw [attemptDue_iff] at h
    obtain ⟨-, -, rfl⟩ | ⟨-, -, -, ha⟩ | ⟨-, hw, hd, -⟩ | ⟨hstop, -⟩ := advance_next ht
    · exact loopTop_now s
    · obtain ⟨c, f, -, -, -, rfl⟩ := attempt_next ha
      exact settleAttempt_now ..
    · simp [hw, hd] at h
    · exact absurd hr hstop

end Sys2Proof.Machine
end

section
/-!
SUPPORT. START (42_pacedsender.md R160 to R163, 60_exceptions.md R192): its checks in their order, the state it leaves when
the sink opens and when it does not, and the frame cache it builds.
-/

namespace Sys2Proof.Machine

open Sys2Proof.Claims

/-! ### The checks (R160) -/

theorem allWritten_iff (s : State) : allWritten s ↔ cfgRunOk s = true := by
  simp [allWritten, frameWritten_iff, cfgRunOk, and_assoc]

theorem exec_start_unset {s : State} (hs : s.state ≠ .run) (hw : ¬allWritten s) :
    exec (.start 0) s = .next (rejected 5 s) :=
  (unlessBusy_check_of hs rfl).trans (check_of_not (Bool.eq_false_iff.2 (mt (allWritten_iff s).2 hw)))

theorem exec_start_tcempty {s : State} (hs : s.state ≠ .run) (hw : allWritten s) (hn : s.tccnt = 0) :
    exec (.start 0) s = .next (rejected 6 s) :=
  (unlessBusy_check_of hs rfl).trans <| (check_of ((allWritten_iff s).1 hw)).trans (check_of_not (by simp [hn]))

theorem exec_start_timerange {s : State} (hs : s.state ≠ .run) (hw : allWritten s) (hn : s.tccnt ≠ 0)
    (he : 2 ^ 64 ≤ sessionEnd s) : exec (.start 0) s = .next (rejected 10 s) :=
  (unlessBusy_check_of hs rfl).trans <| (check_of ((allWritten_iff s).1 hw)).trans <|
    (check_of (by simpa using hn)).trans (check_of_not (decide_eq_false (Nat.not_lt.2 he)))

/-- A START that passes its checks, where the sink does not open. -/
theorem exec_start_fail {s : State} (h : startable s) (ho : openAnswer s = .fail) :
    exec (.start 0) s = .next (raise .handleAcquisition (openSink (clearResult s))) := by
  obtain ⟨hs, hw, hn, he⟩ := h
  exact execStart_fail hs ((allWritten_iff s).1 hw) hn he ho

/-- A START that passes its checks, where the sink opens. -/
theorem exec_start_ok {s : State} (h : startable s) (hc : ConfigOk s) (ho : openAnswer s = .ok) :
    exec (.start 0) s = .next (enterLoop (openSink (clearResult s))) := by
  obtain ⟨hs, hw, hn, he⟩ := h
  exact execStart_ok hs ((allWritten_iff s).1 hw) hn he (fun c => (frameFor_length_ok hc c).2.1) ho

/-! ### The state it leaves (R161, R163, R192) -/

theorem enterLoop_start_keeps (s : State) : startKeeps s (enterLoop (openSink (clearResult s))) := by
  rw [enterLoop_eq]
  rfl

theorem enterLoop_start_begun (s : State) : sessionBegun s (enterLoop (openSink (clearResult s))) := by
  rw [enterLoop_eq]
  exact ⟨rfl, rfl, rfl, rfl, rfl, at8_replicate 0, rfl, rfl, rfl, rfl, rfl, rfl, rfl, rfl, rfl⟩

/-- The handle is owned, and no exception is recorded. -/
theorem enterLoop_start_handle (s : State) :
    (enterLoop (openSink (clearResult s))).hopen = true ∧ (enterLoop (openSink (clearResult s))).err = 0 := by
  rw [enterLoop_eq]
  exact ⟨rfl, rfl⟩

theorem raise_start_keeps (s : State) : startKeeps s (raise .handleAcquisition (openSink (clearResult s))) := rfl

theorem raise_start_begun (s : State) : sessionBegun s (raise .handleAcquisition (openSink (clearResult s))) :=
  ⟨rfl, rfl, rfl, rfl, rfl, at8_replicate 0, rfl, rfl, rfl, rfl, rfl, rfl, rfl, rfl, rfl⟩

/-- A START that passes its checks begins a session, whatever the sink answers. -/
theorem exec_start_begins {s : State} (h : startable s) (hc : ConfigOk s) :
    ∃ t, exec (.start 0) s = .next t ∧ sessionBegun s t := by
  cases ho : openAnswer s with
  | ok => exact ⟨_, exec_start_ok h hc ho, enterLoop_start_begun s⟩
  | fail => exact ⟨_, exec_start_fail h ho, raise_start_begun s⟩

/-- Settles O23: each check of the chain has its lemma, and what passes them all begins a session. -/
theorem startChecksInOrder : Obligations.StartChecksInOrder := by
  refine fun mbz s => ⟨decodeOfEncode (.start mbz), unlessBusy_run, fun hs h => ?oprange, ?unset, ?tcempty, ?timerange,
    ?answers⟩
  case oprange => exact exec_oprange (beq_eq_false_iff_ne.2 h) (.inr hs)
  case unset =>
    rintro hs rfl hw
    exact exec_start_unset hs hw
  case tcempty =>
    rintro hs rfl hw hn
    exact exec_start_tcempty hs hw hn
  case timerange =>
    rintro hs rfl hw hn he
    exact exec_start_timerange hs hw hn he
  case answers =>
    rintro h rfl hc
    obtain ⟨t, ht, hbegun⟩ := exec_start_begins h hc
    obtain ⟨-, -, -, -, -, -, -, -, -, -, -, -, -, -, hlog⟩ := hbegun
    exact ⟨t, ht, hlog⟩

/-- Settles O25: the sink's answer decides between the loop and the raise procedure, after the same clearing and copying. -/
theorem startClearsAndCopies : Obligations.StartClearsAndCopies := by
  intro s h hc
  cases ho : openAnswer s with
  | ok =>
    exact ⟨_, exec_start_ok h hc ho, enterLoop_start_keeps s, enterLoop_start_begun s, fun _ => enterLoop_start_handle s,
      nofun⟩
  | fail =>
    exact ⟨_, exec_start_fail h ho, raise_start_keeps s, raise_start_begun s, nofun,
      fun _ => ⟨rfl, rfl, rfl, rfl, rfl, rfl, rfl, rfl, rfl⟩⟩

/-- Settles O27: the state of `enterLoop_eq` is RUN/TOP on the same tick; in RUN there is the BUSY check. -/
theorem startEntersLoop : Obligations.StartEntersLoop := by
  refine fun s => ⟨fun h hc ho => ⟨_, exec_start_ok h hc ho, enterLoop_start_keeps s, ?_⟩, unlessBusy_run⟩
  rw [enterLoop_eq]
  exact ⟨rfl, rfl, rfl, rfl, rfl, rfl, rfl, rfl, rfl⟩

/-! ### The frame cache (R162) -/

theorem enterLoop_start_fvalid (s : State) (c : Pcp) :
    at8 (enterLoop (openSink (clearResult s))).fvalid c = true ↔ c ∈ classList s := by
  rw [enterLoop_start]
  simp [installFrames_fvalid, startBase]

theorem enterLoop_start_built {s : State} (hc : ConfigOk s) {c : Pcp} (hm : c ∈ classList s) :
    (at8 (enterLoop (openSink (clearResult s))).flen c).toNat = (frameFor s c).length ∧
    (enterLoop (openSink (clearResult s))).fs.bytes (slotBase c) (frameFor s c).length = some (frameFor s c) := by
  rw [enterLoop_start]
  exact (installFrames_built (fun d => (frameFor_length_ok hc d).2.1) (classList s) (startBase s) c).1 hm

theorem enterLoop_start_flen_other {s : State} (hc : ConfigOk s) {c : Pcp} (hm : c ∉ classList s) :
    at8 (enterLoop (openSink (clearResult s))).flen c = at8 s.flen c := by
  rw [enterLoop_start]
  exact ((installFrames_built (fun d => (frameFor_length_ok hc d).2.1) (classList s) (startBase s) c).2 hm).1

theorem enterLoop_start_byte_outside {s : State} {a : Nat}
    (h : ∀ c ∈ classList s, a < slotBase c ∨ slotBase c + (frameFor s c).length ≤ a) :
    (enterLoop (openSink (clearResult s))).fs.byte a = s.fs.byte a := by
  rw [enterLoop_start]
  exact installFrames_byte (classList s) h

/-- All frames of one configuration have the same length: the class is in no length. -/
theorem frameFor_length_eq (s : State) (c d : Pcp) : (frameFor s c).length = (frameFor s d).length :=
  (build_length ..).trans (build_length ..).symm

/-- Settles O26: a run of installs over the class list, from a frame cache with no valid slot. -/
theorem startBuildsOneFramePerClass : Obligations.StartBuildsOneFramePerClass := by
  refine fun s h hc ho => ⟨_, exec_start_ok h hc ho, enterLoop_start_fvalid s, fun c => enterLoop_start_built hc,
    fun c hm d hm' => ?oneLength, fun c => enterLoop_start_flen_other hc, fun a => enterLoop_start_byte_outside⟩
  obtain ⟨hlen, -⟩ := enterLoop_start_built hc hm
  obtain ⟨hlen', -⟩ := enterLoop_start_built hc hm'
  exact BitVec.eq_of_toNat_eq (by rw [hlen, hlen', frameFor_length_eq s c d])

end Sys2Proof.Machine
end

section
/-!
SUPPORT. The attempts of a session: the class and the frame of the next one (42_pacedsender.md R167), and the tick at which
each is made (R164, R166).
-/

namespace Sys2Proof.Machine

open Sys2Proof.Claims

/-! ### Attempt (R167, 60_exceptions.md R193) -/

theorem SessionOk.sessionClasses_length {s : State} (h : SessionOk s) : (sessionClasses s).length = s.sN.toNat := by
  rw [sessionClasses, List.length_take, Vector.length_toList, Nat.min_eq_left h.count]

theorem SessionOk.exists_attemptClass {s : State} (h : SessionOk s) (hr : s.state = .run) :
    ∃ c, attemptClass s = some c := by
  have hlt : s.k.toNat % s.sN.toNat < (sessionClasses s).length := by
    rw [h.sessionClasses_length]
    exact Nat.mod_lt _ (h.nonempty hr)
  exact ⟨_, List.getElem?_eq_getElem hlt⟩

/-- A due attempt finds its class and that class's frame, and settles the sink's answer. -/
theorem advance_attempt {s : State} (hS : SessionOk s) (hF : FramesOk s) (hr : s.state = .run) (hw : s.phase = .wait)
    (hd : due s s.k.toNat = true) :
    ∃ c, attemptClass s = some c ∧ s.fs.bytes (slotBase c) (at8 s.flen c).toNat = some (frameFor s c) ∧
      advance s = .next (settleAttempt c (sendAnswer s) (sendSink c (frameFor s c) s)) := by
  obtain ⟨c, hc⟩ := hS.exists_attemptClass hr
  obtain ⟨hv, hb⟩ := hF.built hr c (List.mem_of_getElem? hc)
  exact ⟨c, hc, hb, (advance_due hr hw hd).trans (attempt_eq hc hv hb)⟩

/-- The sink asked, with its answer written out. -/
theorem sendSink_of_answer {s : State} {r : SendAns} (h : sendAnswer s = r) (c : Pcp) (f : List Byte) :
    sendSink c f s = { s with
      txlog := s.txlog ++ [sendEvent s c f r], sendQ := s.sendQ.tail
      draws := if s.sendQ.isEmpty then s.draws + 1 else s.draws } := by
  rw [← h]
  rfl

theorem at8_cnt_countSuccess (c d : Pcp) (s : State) :
    at8 (countSuccess c s).cnt d = if d = c then at8 s.cnt d + 1 else at8 s.cnt d := by
  by_cases hcd : d = c
  · subst hcd; simp
  · simp [hcd, at8_set8_ne _ _ (Ne.symm hcd)]

/-- Settles O29: the attempt is `settleAttempt` after `sendSink`, and each answer has its case. -/
theorem attemptSendsNextClass : Obligations.AttemptSendsNextClass := by
  intro s hS hF hr hw hd
  obtain ⟨c, hc, hb, hadv⟩ := advance_attempt hS hF hr hw ((attemptDue_iff s).1 hd)
  refine ⟨c, frameFor s c, _, hc, hb, rfl, hadv, fun ha => ?success, fun ha => ?wouldBlock, fun ha => ?error⟩
  case success =>
    rw [ha, sendSink_of_answer ha]
    exact ⟨fun d => at8_cnt_countSuccess c d _, rfl⟩
  case wouldBlock =>
    rw [ha, sendSink_of_answer ha]
    rfl
  case error =>
    rw [List.append_cons, ha, sendSink_of_answer ha]
    rfl

/-! ### The tick of an attempt (R164, R166) -/

theorem ceilDiv_le_iff {m n p : Nat} (hp : 1 ≤ p) : ceilDiv m p ≤ n ↔ m ≤ n * p := by
  rw [ceilDiv, ← Nat.ceilDiv_eq_add_pred_div, Nat.mul_comm]
  exact ceilDiv_le_iff_le_mul hp

/-- The first number of ticks `a` at which `a × p` reaches `m`; with `p = 0` both sides are 0. -/
theorem eq_ceilDiv {a m p : Nat} (hreach : m ≤ a * p) (hfirst : a = 0 ∨ (a - 1) * p < m) : a = ceilDiv m p := by
  obtain rfl | hp := Nat.eq_zero_or_pos p
  · have ha : a = 0 := by omega
    rw [ha, ceilDiv, Nat.div_zero]
  · refine Nat.le_antisymm ?_ ((ceilDiv_le_iff hp).2 hreach)
    obtain rfl | hlt := hfirst
    · exact Nat.zero_le _
    · have : ¬ceilDiv m p ≤ a - 1 := fun h => Nat.not_le.2 hlt ((ceilDiv_le_iff hp).1 h)
      omega

/-- In RUN/WAIT a due attempt has just become due: NOW is its tick. -/
theorem FramerInv.now_of_due {s : State} (h : FramerInv s) (hr : s.state = .run) (hw : s.phase = .wait)
    (hd : due s s.k.toNat = true) :
    s.now.toNat = s.startT.toNat + ceilDiv (s.k.toNat * s.par.tickHz.toNat) s.sPps.toNat := by
  obtain ⟨-, hfirst⟩ := h.pace.waiting hr hw
  rw [← eq_ceilDiv ((due_eq_true_iff ..).1 hd) hfirst]
  exact (Nat.add_sub_of_le (h.pace.started hr)).symm

/-- Settles O34: `due` in two forms, and the pacing invariant says that the tick before was too early. -/
theorem attemptOnItsTick : Obligations.AttemptOnItsTick := by
  refine ⟨fun k t p n hp => (ceilDiv_le_iff hp).symm, fun s h hr hw => ⟨fun hd => ?waits, fun hd => ?attempts⟩⟩
  case waits =>
    rw [attemptDue_iff] at hd
    exact advance_tick (by simp [hw, hd])
  case attempts =>
    rw [attemptDue_iff] at hd
    exact ⟨advance_due hr hw hd, h.now_of_due hr hw hd⟩

end Sys2Proof.Machine
end

section
/-!
SUPPORT. What the log of a session says of its result: the counts and the rate of one that ended by its duration
(42_pacedsender.md R172, 10_state.md R40), and the round robin (R173).
-/

namespace Sys2Proof.Machine

/-! ### The result of a session that ended by its duration (R172) -/

theorem LogOk.total_of_noDrop {s : State} (h : LogOk s)
    (hd : (sessionEvents s.txlog).countP (isAnswer .wouldBlock) = 0) : s.total.toNat = s.k.toNat := by
  rw [h.total, h.index, hd, Nat.add_zero]

/-- `ACH_PPS` of `n` successes in `d` seconds: the ticks of a second cancel (R40). -/
theorem achPps_of_elapsed {s : State} (h : FramerInv s) {d : Nat} (hd : 1 ≤ d)
    (he : s.elapsed.toNat = d * s.par.tickHz.toNat) : (achPps s).toNat = s.total.toNat / d := by
  have hT := h.config.tickHz_pos
  have hne : s.elapsed ≠ 0 := by
    intro h0
    rw [h0] at he
    exact absurd he (Nat.mul_pos hd hT).ne
  rw [(achPps_spec h).1, if_neg hne, he, Nat.mul_div_mul_right _ _ hT]

/-- Settles O35: K and ELAPSED are in the invariant, the ticks and TOTAL follow from the log, and the rate is a quotient. -/
theorem normalEndCounts : Obligations.NormalEndCounts := by
  intro s h hs hsuccess hstopped hPT hD
  obtain ⟨helapsed, hattempts⟩ := h.normalEnd hs hsuccess hstopped
  have hk : s.k.toNat = s.sPps.toNat * s.sDur.toNat + 1 := hattempts hPT hD
  refine ⟨hk, helapsed, fun t k c f r hm => ?ticks, fun hdrop => ?rate⟩
  case ticks =>
    obtain ⟨-, hreach, hfirst⟩ := h.log.schedule t k c f r hm
    exact eq_ceilDiv hreach hfirst
  case rate =>
    have htotal : s.total.toNat = s.sPps.toNat * s.sDur.toNat + 1 := (h.log.total_of_noDrop hdrop).trans hk
    have hrate := achPps_of_elapsed h hD helapsed
    rw [htotal] at hrate
    refine ⟨htotal, achPps s, exec_rd_value rfl rfl, hrate, fun h1 => ?_, fun h2 => ?_⟩
    · rw [hrate, h1, Nat.div_one, Nat.mul_one]
    · rw [hrate, Nat.mul_comm, Nat.mul_add_div hD, Nat.div_eq_of_lt h2, Nat.add_zero]

/-! ### Round robin (R173) -/

/-- Of the attempts of a log without drops, those of class `c` that succeeded are those whose index is due to `c`. -/
theorem countP_isSuccessOf_eq {es : List TxEvent} {classOf : Nat → Option Pcp}
    (hclass : ∀ t k c f r, .send t k c f r ∈ es → classOf k.toNat = some c) (hdrop : es.countP (isAnswer .wouldBlock) = 0)
    (c : Pcp) : es.countP (isSuccessOf c) = (es.filterMap attemptIndex).countP fun k => classOf k = some c := by
  induction es with
  | nil => rfl
  | cons e es ih =>
    rw [List.countP_eq_zero, List.forall_mem_cons] at hdrop
    have ih := ih (fun t k c f r hm => hclass t k c f r (List.mem_cons_of_mem _ hm)) (List.countP_eq_zero.2 hdrop.2)
    cases e with
    | opened r => simpa [isSuccessOf, attemptIndex, List.filterMap_cons] using ih
    | closed => simpa [isSuccessOf, attemptIndex, List.filterMap_cons] using ih
    | send t k d f r =>
      have hk := hclass t k d f r List.mem_cons_self
      cases r with
      | success => simp [isSuccessOf, attemptIndex, List.countP_cons, hk, ih]
      | wouldBlock => exact absurd rfl hdrop.1
      | error => simpa [isSuccessOf, attemptIndex] using ih

/-- The attempts due to the class in place `i` of the order are those whose index is `i` modulo the number of classes. -/
theorem SessionOk.attemptClass_iff {s : State} (h : SessionOk s) {i k : Nat} {c : Pcp}
    (hi : (sessionClasses s)[i]? = some c) :
    (sessionClasses s)[k % s.sN.toNat]? = some c ↔ k ≡ i [MOD s.sN.toNat] := by
  have hlt : i < s.sN.toNat := h.sessionClasses_length ▸ (List.getElem?_eq_some_iff.1 hi).1
  rw [Nat.ModEq, Nat.mod_eq_of_lt hlt]
  constructor
  · intro hk
    exact ((List.getElem?_inj (h.sessionClasses_length ▸ hlt) h.distinct).1 (hi.trans hk.symm)).symm
  · intro hk
    rw [hk, hi]

/-- Without drops a class has one success for each attempt due to it. -/
theorem FramerInv.cnt_of_noDrop {s : State} (h : FramerInv s)
    (hdrop : (sessionEvents s.txlog).countP (isAnswer .wouldBlock) = 0) {i : Nat} {c : Pcp}
    (hi : (sessionClasses s)[i]? = some c) :
    (at8 s.cnt c).toNat = s.total.toNat / s.sN.toNat + if i < s.total.toNat % s.sN.toNat then 1 else 0 := by
  have hlt : i < s.sN.toNat := h.session.sessionClasses_length ▸ (List.getElem?_eq_some_iff.1 hi).1
  calc (at8 s.cnt c).toNat
      = (List.range s.k.toNat).countP fun k => (sessionClasses s)[k % s.sN.toNat]? = some c := by
        rw [h.log.perClass, ← h.log.indices]
        exact countP_isSuccessOf_eq (classOf := fun k => (sessionClasses s)[k % s.sN.toNat]?)
          (fun t k c f r hm => (h.log.schedule t k c f r hm).1) hdrop c
    _ = s.k.toNat.count (· ≡ i [MOD s.sN.toNat]) :=
        List.countP_congr fun k _ => by simp only [decide_eq_true_eq, h.session.attemptClass_iff hi]
    _ = s.total.toNat / s.sN.toNat + if i < s.total.toNat % s.sN.toNat then 1 else 0 := by
        rw [Nat.count_modEq_card _ (Nat.zero_lt_of_lt hlt), Nat.mod_eq_of_lt hlt, h.log.total_of_noDrop hdrop]

/-- Settles O36: the log's schedule gives the classes, and its indices 0, 1, .. the counts. -/
theorem roundRobinBalanced : Obligations.RoundRobinBalanced := by
  refine fun s h => ⟨fun t k c f r hm => (h.log.schedule t k c f r hm).1,
    fun hdrop => ⟨fun i c => h.cnt_of_noDrop hdrop, fun c hc d hd => ?balanced⟩⟩
  obtain ⟨i, hi⟩ := List.mem_iff_getElem?.1 hc
  obtain ⟨j, hj⟩ := List.mem_iff_getElem?.1 hd
  rw [h.cnt_of_noDrop hdrop hi, h.cnt_of_noDrop hdrop hj]
  split <;> omega

end Sys2Proof.Machine
end

section
/-!
SUPPORT. A session that the Host leaves alone ends (42_pacedsender.md R165, R170, R172): each step of the framer ends it or
brings its end nearer.
-/

namespace Sys2Proof.Machine

/-- The steps a running session has left at most: LoopTop and Attempt for each attempt still to make, a Tick for each tick
still to pass, and the last LoopTop. -/
def stepsLeft (s : State) : Nat :=
  2 * (plannedAttempts s + 1 - s.k.toNat) + (durationTicks s - sinceStart s) + if s.phase = .top then 1 else 0

/-- A session is over with its handle closed and its result written (R168). -/
def sessionOver (t : State) : Prop :=
  t.state = .done ∧ t.svalid = true ∧ t.hopen = false ∧ (t.success = true ∨ t.err = 4)

/-- A step from `s` to `t` ends the session or brings its end nearer. -/
def nearerEnd (s t : State) : Prop :=
  0 < stepsLeft s ∧ (sessionOver t ∨ (t.state = .run ∧ t.hostq = s.hostq ∧ stepsLeft t < stepsLeft s))

theorem sessionOver_finish {s : State} (hv : s.svalid = true) (kind : FinishKind) : sessionOver (finish kind s) := by
  refine ⟨finish_state kind s, by simpa using hv, finish_hopen kind s, ?_⟩
  cases kind with
  | normal => exact .inl rfl
  | stopped => exact .inl rfl
  | fatal => exact .inr rfl

theorem stepsLeft_top {s : State} (hp : s.phase = .top) :
    stepsLeft s = 2 * (plannedAttempts s + 1 - s.k.toNat) + (durationTicks s - sinceStart s) + 1 := by
  rw [stepsLeft, if_pos hp]

theorem stepsLeft_wait {s : State} (hw : s.phase = .wait) :
    stepsLeft s = 2 * (plannedAttempts s + 1 - s.k.toNat) + (durationTicks s - sinceStart s) := by
  rw [stepsLeft, hw]
  rfl

theorem loopTop_nearerEnd {s : State} (hv : s.svalid = true) (hp : s.phase = .top) : nearerEnd s (loopTop s) := by
  have hleft := stepsLeft_top hp
  refine ⟨by omega, ?_⟩
  unfold loopTop
  split
  case isTrue => exact .inl (sessionOver_finish hv .normal)
  case isFalse =>
    have hleft' : stepsLeft (setPosition .run .wait s) = _ := stepsLeft_wait rfl
    refine .inr ⟨rfl, rfl, ?_⟩
    rw [hleft, hleft']
    exact Nat.lt_succ_self _

/-- An attempt that is counted in K leaves one attempt less, at the loop's top. -/
theorem advanceIndex_nearerEnd {s u : State} (hw : s.phase = .wait) (hk : s.k.toNat ≤ plannedAttempts s)
    (e : u = { s with txlog := u.txlog, cnt := u.cnt, total := u.total, sendQ := u.sendQ, draws := u.draws }) :
    nearerEnd s (advanceIndex u) := by
  have hleft := stepsLeft_wait hw
  have hleft' : stepsLeft (advanceIndex u) =
      2 * (plannedAttempts s + 1 - (s.k + 1).toNat) + (durationTicks s - sinceStart s) + 1 := by
    rw [e]
    exact stepsLeft_top rfl
  rw [toNat_k_succ hk] at hleft'
  refine ⟨by omega, .inr ⟨rfl, by rw [e]; rfl, by omega⟩⟩

theorem settleAttempt_nearerEnd {s : State} (hv : s.svalid = true) (hw : s.phase = .wait)
    (hk : s.k.toNat ≤ plannedAttempts s) (c : Pcp) (f : List Byte) (r : SendAns) :
    nearerEnd s (settleAttempt c r (sendSink c f s)) := by
  cases r with
  | success => exact advanceIndex_nearerEnd hw hk rfl
  | wouldBlock => exact advanceIndex_nearerEnd hw hk rfl
  | error =>
    have hleft := stepsLeft_wait hw
    exact ⟨by omega, .inl (sessionOver_finish hv .fatal)⟩

/-- While an attempt is not due there are ticks left, and a Tick uses one of them. -/
theorem tick_nearerEnd {s : State} (h : PaceOk s) (hr : s.state = .run) (hw : s.phase = .wait)
    (hd : due s s.k.toNat = false) : nearerEnd s (tick s) := by
  obtain ⟨hk, -⟩ := h.waiting hr hw
  have hticks : sinceStart s < durationTicks s := duration_left hk ((due_eq_false_iff ..).1 hd)
  have hwrap := h.noWrap hr
  have hnow : (tick s).now.toNat = s.now.toNat + 1 :=
    toNat_succ (by decide) (by simp only [sinceStart] at hticks; omega)
  have hsince : sinceStart (tick s) = sinceStart s + 1 := by
    rw [sinceStart, hnow, tick_startT, Nat.sub_add_comm (h.started hr), sinceStart]
  have hleft := stepsLeft_wait hw
  have hleft' : stepsLeft (tick s) = 2 * (plannedAttempts s + 1 - s.k.toNat) + (durationTicks s - sinceStart (tick s)) :=
    stepsLeft_wait hw
  exact ⟨by omega, .inr ⟨hr, rfl, by omega⟩⟩

/-- In RUN the framer's own agents have a step, and it brings the end nearer. -/
theorem advance_nearerEnd {s : State} (h : FramerInv s) (hr : s.state = .run) :
    ∃ t, advance s = .next t ∧ nearerEnd s t := by
  obtain ⟨-, -, hv, -, -⟩ := h.outcome.run hr
  cases hp : s.phase with
  | top => exact ⟨_, advance_top hr hp, loopTop_nearerEnd hv hp⟩
  | wait =>
    cases hd : due s s.k.toNat with
    | true =>
      obtain ⟨c, -, -, hadv⟩ := advance_attempt h.session h.frames hr hp hd
      exact ⟨_, hadv, settleAttempt_nearerEnd hv hp (h.pace.waiting hr hp).1 ..⟩
    | false => exact ⟨_, advance_tick (by simp [hp, hd]), tick_nearerEnd h.pace hr hp hd⟩

/-- With no Host act to come, a running session is over after at most `stepsLeft` steps. -/
theorem run_sessionOver (n : Nat) {s : State} (h : FramerInv s) (hr : s.state = .run) (hq : s.hostq = [])
    (hn : stepsLeft s ≤ n) : ∃ m t, m ≤ n ∧ Host.Core.run Sys2Proof.core m s = .next t ∧ sessionOver t := by
  induction n generalizing s with
  | zero =>
    obtain ⟨t, -, hpos, -⟩ := advance_nearerEnd h hr
    omega
  | succ n ih =>
    obtain ⟨t, hadv, -, hend⟩ := advance_nearerEnd h hr
    have hstep : Sys2Proof.core.step s = .next t := (step_nil hq).trans hadv
    obtain hover | ⟨hr', hq', hlt⟩ := hend
    · exact ⟨1, t, by omega, run_succ hstep rfl, hover⟩
    · obtain ⟨m, u, hm, hrun, hover⟩ := ih (advance_inv h hadv) hr' (hq'.trans hq) (by omega)
      exact ⟨m + 1, u, by omega, run_succ hstep hrun, hover⟩

/-- Settles O55: `stepsLeft` is within the bound of the statement and falls with every step. -/
theorem sessionEnds : Obligations.SessionEnds := by
  intro s h hr hq
  obtain ⟨n, t, hn, hrun, hdone, hvalid, hclosed, hresult⟩ := run_sessionOver (stepsLeft s) h hr hq le_rfl
  refine ⟨n, t, hn.trans ?bound, hrun, hdone, hvalid, hclosed, hresult⟩
  unfold stepsLeft plannedAttempts durationTicks sinceStart
  split <;> omega

end Sys2Proof.Machine
end

section
/-!
SUPPORT. The two session exceptions (60_exceptions.md R192, R194), and what a rejected command leaves (R198).
-/

namespace Sys2Proof.Machine

open Sys2Proof.Claims

/-! ### The session exceptions -/

/-- Settles O24: a START that passes its checks, where the sink does not open, is the raise procedure. -/
theorem startHandleFailure : Obligations.StartHandleFailure :=
  fun s h ho => ⟨_, exec_start_fail h ho, raise_start_keeps s, raise_start_begun s,
    rfl, rfl, rfl, rfl, rfl, rfl, rfl, rfl, rfl⟩

/-- Settles O30: the state that O29 gives for the answer `error`, field by field. -/
theorem fatalSendEndsSession : Obligations.FatalSendEndsSession := by
  intro s hS hF hr hw hd ha
  obtain ⟨c, f, t, -, -, -, hadv, -, -, herror⟩ := attemptSendsNextClass s hS hF hr hw hd
  refine ⟨t, hadv, ?_⟩
  rw [herror ha]
  exact ⟨rfl, rfl, rfl, rfl, rfl, rfl, rfl, rfl, rfl, rfl, rfl, ⟨c, f, rfl⟩, fun _ => rfl⟩

/-! ### Rejects (R198) -/

/-- The response of the latest command is OK. -/
def answeredOk (t : State) : Prop := ∃ d, t.resp = some ⟨.ok, d⟩

theorem answeredOk_respond (d : Word64) (s : State) : answeredOk (respond d s) := ⟨d, rfl⟩

/-- A command is rejected and writes nothing else, or it answers OK. -/
theorem exec_rejected_or_answeredOk {i : Instr} {s t : State} (h : exec i s = .next t) :
    (∃ r, t = reject r s) ∨ answeredOk t := by
  cases i with
  | setdst mac => exact (execSetdst_next h).imp_right fun ⟨_, e⟩ => e ▸ answeredOk_respond ..
  | setsrc mac => exact (execSetsrc_next h).imp_right fun ⟨_, e⟩ => e ▸ answeredOk_respond ..
  | setvlan hi vid => exact (execSetvlan_next h).imp_right fun ⟨_, e⟩ => e ▸ answeredOk_respond ..
  | setprof mbz prof => exact (execSetprof_next h).imp_right fun ⟨_, e⟩ => e ▸ answeredOk_respond ..
  | setpsize mbz n => exact (execSetpsize_next h).imp_right fun ⟨_, _, e⟩ => e ▸ answeredOk_respond ..
  | tcclr mbz => exact (execTcclr_next h).imp_right fun ⟨_, e⟩ => e ▸ answeredOk_respond ..
  | tcpush hi pcp => exact (execTcpush_next h).imp_right fun ⟨_, _, _, e⟩ => e ▸ answeredOk_respond ..
  | setpps mbz rate => exact (execSetpps_next h).imp_right fun ⟨_, _, e⟩ => e ▸ answeredOk_respond ..
  | setdur mbz seconds => exact (execSetdur_next h).imp_right fun ⟨_, e⟩ => e ▸ answeredOk_respond ..
  | build hi pcp => exact (execBuild_next h).imp_right fun ⟨_, _, _, e⟩ => e ▸ answeredOk_respond ..
  | start mbz =>
    refine (execStart_next h).imp_right ?_
    rintro ⟨-, -, -, -, ⟨-, rfl⟩ | ⟨-, -, rfl⟩⟩ <;> exact answeredOk_respond ..
  | stop mbz =>
    refine (execStop_next h).imp_right ?_
    rintro (⟨-, rfl⟩ | ⟨-, rfl⟩) <;> exact answeredOk_respond ..
  | rd mbz reg => exact (execRd_next h).imp_right fun ⟨_, _, _, _, e⟩ => e ▸ answeredOk_respond ..
  | rdfb mbz slot off => exact (execRdfb_next h).imp_right fun ⟨_, e⟩ => e ▸ answeredOk_respond ..

theorem runWord_rejected_or_answeredOk {w : Word64} {s t : State} (h : runWord w s = .next t) :
    (∃ r, t = reject r s) ∨ answeredOk t := by
  obtain hr | ⟨i, -, hi⟩ := runWord_next h
  · exact .inl hr
  · exact exec_rejected_or_answeredOk hi

/-- Settles O40: a word is rejected, with one of the ten codes, or answers OK. -/
theorem rejectWritesNothingElse : Obligations.RejectWritesNothingElse := by
  intro w s t h
  obtain ⟨r, rfl⟩ | hok := runWord_rejected_or_answeredOk h
  · exact .inr ⟨r.code, r.code_range.1, r.code_range.2, rfl⟩
  · exact .inl hok

end Sys2Proof.Machine
end

section
/-!
SUPPORT. The brackets of TXLOG (60_exceptions.md R208): `Open(ok)` comes with HOPEN and RUN, `Send` within RUN, and `Close`
with the end of the session.
-/

namespace Sys2Proof.Machine

open Sys2Proof.Claims

/-- The log is well bracketed, its last bracket is open exactly while the handle is, and the handle is in RUN only. -/
structure Bracketed (s : State) : Prop where
  log : scanLog s.txlog = some s.hopen
  handle : s.hopen = true ↔ s.state = .run

theorem Bracketed.of_eq {s t : State} (h : Bracketed s) (e1 : t.txlog = s.txlog) (e2 : t.hopen = s.hopen)
    (e3 : t.state = s.state) : Bracketed t :=
  ⟨by rw [e1, e2]; exact h.log, by rw [e2, e3]; exact h.handle⟩

theorem Bracketed.of_sameSession {s t : State} (h : Bracketed s) (e : sameSession s t) : Bracketed t := by
  rw [e]
  exact h.of_eq rfl rfl rfl

theorem Bracketed.scanLog_run {s : State} (h : Bracketed s) (hr : s.state = .run) : scanLog s.txlog = some true := by
  rw [h.log, h.handle.2 hr]

theorem Bracketed.scanLog_stopped {s : State} (h : Bracketed s) (hs : s.state ≠ .run) :
    scanLog s.txlog = some false := by
  rw [h.log, Bool.eq_false_iff.2 (mt h.handle.1 hs)]

/-! ### The events -/

/-- `Close` in RUN: the bracket and the handle close, the session ends. -/
theorem Bracketed.finish {s : State} (h : Bracketed s) (hr : s.state = .run) (kind : FinishKind) :
    Bracketed (finish kind s) := by
  refine ⟨?_, by simp⟩
  rw [finish_txlog, finish_hopen, scanLog_append, h.scanLog_run hr]
  rfl

/-- `Send` in RUN: the bracket stays open. -/
theorem Bracketed.sendSink {s : State} (h : Bracketed s) (hr : s.state = .run) (c : Pcp) (f : List Byte) :
    Bracketed (sendSink c f s) := by
  refine ⟨?_, h.handle⟩
  rw [sendSink_txlog, scanLog_append, h.scanLog_run hr, sendSink_hopen, h.handle.2 hr]
  rfl

/-- `Open(r)` outside RUN: the bracket opens only with the answer `ok`, and then the handle is owned in RUN. -/
theorem Bracketed.ofOpen {s t : State} {r : OpenAns} (h : Bracketed s) (hs : s.state ≠ .run)
    (hlog : t.txlog = s.txlog ++ [.opened r]) (hopen : t.hopen = decide (r = .ok)) (hrun : t.state = .run ↔ r = .ok) :
    Bracketed t := by
  refine ⟨?_, by rw [hopen, hrun, decide_eq_true_iff]⟩
  rw [hlog, hopen, scanLog_append, h.scanLog_stopped hs]
  cases r <;> rfl

/-! ### The framer's own steps -/

theorem Bracketed.loopTop {s : State} (h : Bracketed s) (hr : s.state = .run) : Bracketed (loopTop s) := by
  unfold Machine.loopTop
  split
  · exact h.finish hr .normal
  · exact h.of_eq rfl rfl hr.symm

theorem Bracketed.settleAttempt {s : State} (h : Bracketed s) (hr : s.state = .run) (c : Pcp) (r : SendAns) :
    Bracketed (settleAttempt c r s) := by
  cases r with
  | success => exact h.of_eq rfl rfl hr.symm
  | wouldBlock => exact h.of_eq rfl rfl hr.symm
  | error => exact h.finish hr .fatal

theorem Bracketed.advance {s t : State} (h : Bracketed s) (ht : advance s = .next t) : Bracketed t := by
  obtain ⟨hr, -, rfl⟩ | ⟨hr, -, -, ha⟩ | ⟨-, -, -, rfl⟩ | ⟨-, rfl⟩ := advance_next ht
  · exact h.loopTop hr
  · obtain ⟨c, f, -, -, -, rfl⟩ := attempt_next ha
    exact (h.sendSink hr c f).settleAttempt hr c _
  · exact h.of_eq rfl rfl rfl
  · exact h.of_eq rfl rfl rfl

/-! ### The commands -/

/-- Every command but START and STOP is rejected or writes what is outside the session. -/
theorem exec_sameSession {i : Instr} {s t : State} (h : exec i s = .next t) (h1 : ∀ m, i ≠ .start m)
    (h2 : ∀ m, i ≠ .stop m) : sameSession s t := by
  cases i with
  | setdst mac => obtain ⟨r, rfl⟩ | ⟨-, rfl⟩ := execSetdst_next h <;> rfl
  | setsrc mac => obtain ⟨r, rfl⟩ | ⟨-, rfl⟩ := execSetsrc_next h <;> rfl
  | setvlan hi vid => obtain ⟨r, rfl⟩ | ⟨-, rfl⟩ := execSetvlan_next h <;> rfl
  | setprof mbz prof => obtain ⟨r, rfl⟩ | ⟨-, rfl⟩ := execSetprof_next h <;> rfl
  | setpsize mbz n => obtain ⟨r, rfl⟩ | ⟨-, -, rfl⟩ := execSetpsize_next h <;> rfl
  | tcclr mbz => obtain ⟨r, rfl⟩ | ⟨-, rfl⟩ := execTcclr_next h <;> rfl
  | tcpush hi pcp => obtain ⟨r, rfl⟩ | ⟨-, -, -, rfl⟩ := execTcpush_next h <;> rfl
  | setpps mbz rate => obtain ⟨r, rfl⟩ | ⟨-, -, rfl⟩ := execSetpps_next h <;> rfl
  | setdur mbz seconds => obtain ⟨r, rfl⟩ | ⟨-, rfl⟩ := execSetdur_next h <;> rfl
  | build hi pcp =>
    obtain ⟨r, rfl⟩ | ⟨-, -, -, rfl⟩ := execBuild_next h
    · rfl
    · generalize frameFor s pcp = f
      rfl
  | start mbz => exact absurd rfl (h1 mbz)
  | stop mbz => exact absurd rfl (h2 mbz)
  | rd mbz reg => obtain ⟨r, rfl⟩ | ⟨-, d, -, -, rfl⟩ := execRd_next h <;> rfl
  | rdfb mbz slot off => obtain ⟨r, rfl⟩ | ⟨d, rfl⟩ := execRdfb_next h <;> rfl

theorem Bracketed.reject {s : State} (h : Bracketed s) (r : Reason) : Bracketed (reject r s) := h.of_eq rfl rfl rfl

theorem Bracketed.execStart {mbz : BitVec 48} {s t : State} (h : Bracketed s) (ht : execStart mbz s = .next t) :
    Bracketed t := by
  obtain ⟨r, rfl⟩ | ⟨hs, -, -, -, ⟨ho, rfl⟩ | ⟨ho, -, rfl⟩⟩ := execStart_next ht
  · exact h.reject r
  · have hopen : s.hopen = false := Bool.eq_false_iff.2 (mt h.handle.1 hs)
    exact h.ofOpen (r := .fail) hs (by rw [← ho]; rfl) hopen (by simp [raise_handleAcquisition])
  · rw [enterLoop_eq]
    exact h.ofOpen (r := .ok) hs (by rw [← ho]; rfl) rfl (by simp)

theorem Bracketed.execStop {mbz : BitVec 48} {s t : State} (h : Bracketed s) (ht : execStop mbz s = .next t) :
    Bracketed t := by
  obtain ⟨r, rfl⟩ | ⟨hr, rfl⟩ | ⟨-, rfl⟩ := execStop_next ht
  · exact h.reject r
  · exact (h.finish hr .stopped).of_eq rfl rfl rfl
  · exact h.of_eq rfl rfl rfl

theorem Bracketed.exec {i : Instr} {s t : State} (h : Bracketed s) (ht : exec i s = .next t) : Bracketed t := by
  cases i with
  | start mbz => exact h.execStart ht
  | stop mbz => exact h.execStop ht
  | _ => exact h.of_sameSession (exec_sameSession ht nofun nofun)

theorem Bracketed.runWord {w : Word64} {s t : State} (h : Bracketed s) (ht : runWord w s = .next t) : Bracketed t := by
  obtain ⟨r, rfl⟩ | ⟨i, -, hi⟩ := runWord_next ht
  · exact h.reject r
  · exact h.exec hi

theorem bracketed_resetStep (s : State) : Bracketed (resetStep s) := ⟨rfl, iff_of_false nofun nofun⟩

/-- Settles O46: each of the four things a step can do keeps the brackets, and the Host's fields are outside them. -/
theorem logStaysBracketed : Obligations.LogStaysBracketed := by
  intro s t hlog hhandle ht
  obtain ⟨q, q', o', u, rfl, hu⟩ := step_next ht
  have hq : Bracketed { s with hostq := q } := ⟨hlog, hhandle⟩
  have hbracketed : Bracketed u := by
    obtain rfl | rfl | ⟨w, hw⟩ | ha := hu
    · exact hq
    · exact bracketed_resetStep _
    · exact hq.runWord hw
    · exact hq.advance ha
  exact ⟨hbracketed.log, hbracketed.handle⟩

end Sys2Proof.Machine
end

section
/-!
SUPPORT. No step stops (60_exceptions.md R210, 41_framebuilder.md R149, 42_pacedsender.md R167): under the invariant every
command, every step of the framer's own agents and every act of the Host gives a next state, and so does every run.
-/

namespace Sys2Proof.Machine

/-- A result that is a next state, and not a fault or a refusal. -/
def goesOn (r : Result) : Prop := ∃ t, r = .next t

theorem goesOn_next (t : State) : goesOn (.next t) := ⟨t, rfl⟩

/-! ### What the results are made of -/

theorem goesOn_unlessBusy {s : State} {f : Result} (h : s.state ≠ .run → goesOn f) : goesOn (unlessBusy s f) := by
  by_cases hs : s.state = .run
  · exact ⟨_, unlessBusy_run hs⟩
  · rw [unlessBusy_free hs]
    exact h hs

theorem goesOn_check {ok : Bool} {r : Reason} {s : State} {f : Result} (h : ok = true → goesOn f) :
    goesOn (check ok r s f) := by
  cases ok with
  | false => exact ⟨_, check_false⟩
  | true => exact h rfl

theorem goesOn_thenDo {r : Result} (h : goesOn r) (f : State → State) : goesOn (thenDo r f) := by
  obtain ⟨t, rfl⟩ := h
  exact goesOn_next (f t)

/-! ### The commands -/

theorem execTcpush_goesOn {s : State} (h : ConfigOk s) (hi : BitVec 45) (c : Pcp) : goesOn (execTcpush hi c s) := by
  refine goesOn_unlessBusy fun _ => goesOn_check fun hc => ?_
  rw [if_pos (h.tccnt_lt_of_not_mem (by simpa using hc))]
  exact goesOn_next _

theorem execBuild_goesOn {s : State} (h : ConfigOk s) (hi : BitVec 45) (c : Pcp) : goesOn (execBuild hi c s) :=
  goesOn_unlessBusy fun _ => goesOn_check fun _ => ⟨_, if_pos (frameFor_length_ok h c).2.1⟩

theorem execStart_goesOn {s : State} (h : ConfigOk s) (mbz : BitVec 48) : goesOn (execStart mbz s) := by
  refine goesOn_unlessBusy fun _ => goesOn_check fun _ => goesOn_check fun _ => goesOn_check fun _ =>
    goesOn_check fun _ => ?_
  cases openAnswer s with
  | fail => exact goesOn_next _
  | ok =>
    have hfit : ((sessionClasses (clearResult s)).all fun c => decide ((frameFor s c).length ≤ frameLenMax)) = true :=
      List.all_eq_true.2 fun c _ => decide_eq_true (frameFor_length_ok h c).2.1
    exact ⟨_, if_pos hfit⟩

theorem execRd_goesOn (mbz : BitVec 40) (reg : BitVec 8) (s : State) : goesOn (execRd mbz reg s) := by
  refine goesOn_check fun _ => ?_
  cases regOfNumber reg with
  | none => exact goesOn_next _
  | some r =>
    show goesOn (answerRead (readReg s r) s)
    cases readReg s r with
    | ok d => exact goesOn_next _
    | error e => exact goesOn_next _

theorem execRdfb_goesOn {s : State} (h : FramesOk s) (mbz : BitVec 34) (c : Pcp) (off : BitVec 11) :
    goesOn (execRdfb mbz c off s) := by
  refine goesOn_check fun _ => goesOn_check fun hv => goesOn_check fun ho => ?_
  have hoff := of_decide_eq_true ho
  obtain ⟨v, hb⟩ := Memory.byte_isSome_of_bytes (h.whole c hv) hoff
  rw [memRead_one _ hv hoff hb]
  exact goesOn_next _

/-- What a command writes is a total update, but where it needs room in the class list or in a slot, or a byte that was
written; the configuration and the frame cache have these. -/
theorem exec_goesOn {s : State} (hc : ConfigOk s) (hf : FramesOk s) (i : Instr) : goesOn (exec i s) := by
  cases i with
  | setdst _ | setsrc _ | setvlan _ _ => exact goesOn_unlessBusy fun _ => goesOn_next _
  | setprof _ _ | tcclr _ | setdur _ _ => exact goesOn_unlessBusy fun _ => goesOn_check fun _ => goesOn_next _
  | setpsize _ _ | setpps _ _ =>
    exact goesOn_unlessBusy fun _ => goesOn_check fun _ => goesOn_check fun _ => goesOn_next _
  | tcpush hi c => exact execTcpush_goesOn hc hi c
  | build hi c => exact execBuild_goesOn hc hi c
  | start mbz => exact execStart_goesOn hc mbz
  | stop _ => exact goesOn_check fun _ => goesOn_next _
  | rd mbz reg => exact execRd_goesOn mbz reg s
  | rdfb mbz c off => exact execRdfb_goesOn hf mbz c off

theorem runWord_goesOn {s : State} (h : FramerInv s) (w : Word64) : goesOn (runWord w s) := by
  unfold runWord
  split
  · exact exec_goesOn h.config h.frames _
  · exact goesOn_next _
  · exact goesOn_next _

/-! ### Steps and runs -/

theorem advance_goesOn {s : State} (h : FramerInv s) : goesOn (advance s) := by
  by_cases hr : s.state = .run
  · obtain ⟨t, ht, -⟩ := advance_nearerEnd h hr
    exact ⟨t, ht⟩
  · exact ⟨_, advance_tick fun e => hr e.1⟩

theorem hostAct_goesOn {s : State} (h : FramerInv s) (a : HostAct) : goesOn (hostAct a s) := by
  have hq (q : List HostAct) : FramerInv { s with hostq := q } := h.withHost q s.hostOut
  cases a with
  | word w => exact runWord_goesOn h w
  | pass => exact advance_goesOn h
  | reset => exact goesOn_next _
  | program lines =>
    cases lines with
    | nil => exact goesOn_next _
    | cons line lines =>
      simp only [hostAct]
      split
      · exact runWord_goesOn (hq _) _
      · exact goesOn_next _
  | txgen udp args =>
    simp only [hostAct]
    split
    · exact goesOn_next _
    · exact goesOn_next _
  | invoked w => exact goesOn_thenDo (runWord_goesOn h w) afterInvoked
  | await =>
    simp only [hostAct]
    split
    · exact goesOn_thenDo (runWord_goesOn h _) takeReport
    · exact advance_goesOn (hq _)

/-- Settles O53: the act at the head of the schedule goes on, and with none the framer's own agents do. -/
theorem noStepStops : Obligations.NoStepStops := by
  intro s h
  cases hs : s.hostq with
  | nil =>
    rw [step_nil hs]
    exact advance_goesOn h
  | cons a rest =>
    rw [step_cons hs]
    exact hostAct_goesOn (h.withHost rest s.hostOut) a

/-- A run of any length from a state with the invariant goes on and keeps it. -/
theorem run_inv (n : Nat) {s : State} (h : FramerInv s) :
    ∃ t : State, Host.Core.run Sys2Proof.core n s = .next t ∧ FramerInv t := by
  induction n generalizing s with
  | zero => exact ⟨s, rfl, h⟩
  | succ n ih =>
    obtain ⟨t, ht⟩ := noStepStops s h
    obtain ⟨u, hrun, hu⟩ := ih (stepKeepsInvariant s t h ht)
    exact ⟨u, run_succ (M := Sys2Proof.core) ht hrun, hu⟩

/-- Settles O54: the state after reset has the invariant. -/
theorem everyRunGoesOn : Obligations.EveryRunGoesOn :=
  fun p q oq sq n hp => run_inv n (resetHasInvariant p q oq sq hp)

end Sys2Proof.Machine
end

section
/-!
SUPPORT. Reset and hazards (70_reset_and_hazards.md): the reset step (R220), what the loop does not read (R226), the sticky
flags (R233), and the cached frames (R228).
-/

namespace Sys2Proof.Machine

open Sys2Proof.Claims

/-! ### Reset (R220) -/

/-- Settles O44: the reset act is `resetStep`, which is the reset state but for the Host and the sink. -/
theorem resetStepClears : Obligations.ResetStepClears :=
  fun s _ hq => ⟨_, step_cons hq, hasResetValues_resetWith s.par, rfl⟩

/-! ### The loop reads no configuration register (R226) -/

/-- `s` with the configuration registers of `c`. -/
def withConfig (c s : State) : State :=
  { s with
    dst := c.dst, src := c.src, vlan := c.vlan, profile := c.profile, psize := c.psize, tccnt := c.tccnt
    tclist := c.tclist, pps := c.pps, duration := c.duration }

theorem loopTop_withConfig (c s : State) : loopTop (withConfig c s) = withConfig c (loopTop s) :=
  (apply_ite (withConfig c) (durationOver s = true) (finish .normal s) (setPosition .run .wait s)).symm

theorem settleAttempt_withConfig (c s : State) (p : Pcp) (r : SendAns) :
    settleAttempt p r (withConfig c s) = withConfig c (settleAttempt p r s) := by
  cases r <;> rfl

/-- A change to the next state of a read is a change to what its continuation answers. -/
theorem thenDo_memRead (s : State) (a n : Nat) (f : List Byte → Result) (g : State → State) :
    thenDo (memRead s a n f) g = memRead s a n fun bs => thenDo (f bs) g := by
  unfold memRead
  split
  · cases s.fs.bytes a n <;> rfl
  · rfl

theorem attempt_withConfig (c s : State) : attempt (withConfig c s) = thenDo (attempt s) (withConfig c) := by
  have hclass : attemptClass (withConfig c s) = attemptClass s := rfl
  unfold attempt
  rw [hclass]
  cases attemptClass s with
  | none => rfl
  | some p =>
    refine Eq.trans ?_ (thenDo_memRead ..).symm
    exact congrArg (memRead s _ _) (funext fun f => congrArg _ (settleAttempt_withConfig c (sendSink p f s) p _))

/-- Whether the Sender has a step, and which, does not depend on the configuration registers, and neither does its result. -/
theorem advance_withConfig (c s : State) : advance (withConfig c s) = thenDo (advance s) (withConfig c) := by
  by_cases h : s.state = .run ∧ (s.phase = .top ∨ due s s.k.toNat = true)
  case neg =>
    rw [advance_tick h, advance_tick (s := withConfig c s) h]
    rfl
  obtain ⟨hr, henabled⟩ := h
  cases hp : s.phase with
  | top =>
    rw [advance_top hr hp, advance_top (s := withConfig c s) hr hp, loopTop_withConfig]
    rfl
  | wait =>
    have hd : due s s.k.toNat = true := henabled.resolve_left (by simp [hp])
    rw [advance_due hr hp hd, advance_due (s := withConfig c s) hr hp hd, attempt_withConfig]

/-- Settles O39: the BUSY check of R104, and `advance_withConfig` at a state that holds the other values. -/
theorem configurationFrozenDuringSession : Obligations.ConfigurationFrozenDuringSession := by
  refine ⟨fun i s => exec_busy, fun s dst src vlan profile psize tccnt tclist pps duration => ?_⟩
  refine (advance_withConfig { s with
    dst := dst, src := src, vlan := vlan, profile := profile, psize := psize, tccnt := tccnt, tclist := tclist
    pps := pps, duration := duration } s).trans ?_
  cases advance s <;> rfl

/-! ### What the framer's own steps and the commands leave of the flags and the frames -/

/-- CMDERR and LASTREJ are as before, and TRUNC is not cleared. -/
def flagsKept (s t : State) : Prop :=
  t.cmderr = s.cmderr ∧ t.lastrej = s.lastrej ∧ (s.trunc = true → t.trunc = true)

/-- The frame store, FLEN and FVALID are as before. -/
def sameFrames (s t : State) : Prop := t.fs = s.fs ∧ t.flen = s.flen ∧ t.fvalid = s.fvalid

theorem sameFrames.byte_flen_fvalid {s t : State} (h : sameFrames s t) :
    (∀ a, t.fs.byte a = s.fs.byte a) ∧ t.flen = s.flen ∧ t.fvalid = s.fvalid :=
  ⟨fun a => by rw [h.1], h.2⟩

/-- The sticky flags and the frame cache are kept. -/
def flagsAndFramesKept (s t : State) : Prop := flagsKept s t ∧ sameFrames s t

/-- Where `u` is written out as an update of other fields of `s`, `h` holds field by field and is filled in. -/
theorem flagsAndFramesKept.of_eq {s t u : State} (e : t = u)
    (h : flagsAndFramesKept s u := by exact ⟨⟨rfl, rfl, id⟩, rfl, rfl, rfl⟩) : flagsAndFramesKept s t := by
  rwa [e]

theorem flagsAndFramesKept.respond {s t : State} (h : flagsAndFramesKept s t) (d : Word64) :
    flagsAndFramesKept s (respond d t) := h

theorem flagsKept.respond_noteTrunc {s t : State} (h : flagsKept s t) (b : Bool) (d : Word64) :
    flagsKept s (respond d (noteTrunc b t)) := by
  obtain ⟨hc, hl, ht⟩ := h
  exact ⟨hc, hl, fun e => by rw [respond_trunc, noteTrunc_trunc, ht e, Bool.true_or]⟩

theorem flagsAndFramesKept.respond_noteTrunc {s t : State} (h : flagsAndFramesKept s t) (b : Bool) (d : Word64) :
    flagsAndFramesKept s (Machine.respond d (noteTrunc b t)) :=
  ⟨h.1.respond_noteTrunc b d, h.2⟩

theorem finish_kept (kind : FinishKind) (s : State) : flagsAndFramesKept s (finish kind s) := by
  cases kind <;> exact .of_eq rfl

theorem loopTop_kept (s : State) : flagsAndFramesKept s (loopTop s) := by
  unfold loopTop
  split
  · exact finish_kept .normal s
  · exact .of_eq rfl

theorem settleAttempt_kept (c : Pcp) (r : SendAns) (s : State) : flagsAndFramesKept s (settleAttempt c r s) := by
  cases r with
  | error => exact finish_kept .fatal s
  | success => exact .of_eq rfl
  | wouldBlock => exact .of_eq rfl

/-- LoopTop, Attempt and Tick touch neither the sticky flags nor the frame cache. -/
theorem advance_kept {s t : State} (h : advance s = .next t) : flagsAndFramesKept s t := by
  obtain ⟨-, -, rfl⟩ | ⟨-, -, -, ha⟩ | ⟨-, -, -, rfl⟩ | ⟨-, rfl⟩ := advance_next h
  · exact loopTop_kept s
  · obtain ⟨c, f, -, -, -, rfl⟩ := attempt_next ha
    exact settleAttempt_kept c _ (sendSink c f s)
  · exact .of_eq rfl
  · exact .of_eq rfl

/-- Every command but BUILD and START is rejected, or keeps the flags and the frame cache. -/
theorem exec_rejected_or_kept {i : Instr} {s t : State} (h : exec i s = .next t) (h1 : ∀ hi c, i ≠ .build hi c)
    (h2 : ∀ m, i ≠ .start m) : (∃ r, t = reject r s) ∨ flagsAndFramesKept s t := by
  cases i with
  | setdst mac => exact (execSetdst_next h).imp_right fun ⟨_, e⟩ => .of_eq e
  | setsrc mac => exact (execSetsrc_next h).imp_right fun ⟨_, e⟩ => .of_eq e
  | setvlan hi vid =>
    exact (execSetvlan_next h).imp_right fun ⟨_, e⟩ => .of_eq e (.respond_noteTrunc (.of_eq rfl) _ _)
  | setprof mbz prof => exact (execSetprof_next h).imp_right fun ⟨_, e⟩ => .of_eq e
  | setpsize mbz n => exact (execSetpsize_next h).imp_right fun ⟨_, _, e⟩ => .of_eq e
  | tcclr mbz => exact (execTcclr_next h).imp_right fun ⟨_, e⟩ => .of_eq e
  | tcpush hi pcp =>
    exact (execTcpush_next h).imp_right fun ⟨_, _, _, e⟩ => .of_eq e (.respond_noteTrunc (.of_eq rfl) _ _)
  | setpps mbz rate => exact (execSetpps_next h).imp_right fun ⟨_, _, e⟩ => .of_eq e
  | setdur mbz seconds => exact (execSetdur_next h).imp_right fun ⟨_, e⟩ => .of_eq e
  | build hi pcp => exact absurd rfl (h1 hi pcp)
  | start mbz => exact absurd rfl (h2 mbz)
  | stop mbz =>
    refine (execStop_next h).imp_right ?_
    rintro (⟨-, rfl⟩ | ⟨-, rfl⟩)
    · exact (finish_kept .stopped s).respond 0
    · exact .of_eq rfl
  | rd mbz reg => exact (execRd_next h).imp_right fun ⟨_, _, _, _, e⟩ => .of_eq e
  | rdfb mbz slot off => exact (execRdfb_next h).imp_right fun ⟨_, e⟩ => .of_eq e

/-! ### Sticky flags (R233) -/

/-- From `s` to `t` no sticky flag is cleared, and a new LASTREJ is a reject reason noted with CMDERR. -/
structure StickyKept (s t : State) : Prop where
  trunc : s.trunc = true → t.trunc = true
  cmderr : s.cmderr = true → t.cmderr = true
  lastrej : s.lastrej ≠ 0 → t.lastrej ≠ 0
  fresh : t.lastrej ≠ s.lastrej → t.cmderr = true ∧ 1 ≤ t.lastrej.toNat ∧ t.lastrej.toNat ≤ 10

theorem StickyKept.trans {s t u : State} (h : StickyKept s t) (h' : StickyKept t u) : StickyKept s u := by
  refine ⟨h'.trunc ∘ h.trunc, h'.cmderr ∘ h.cmderr, h'.lastrej ∘ h.lastrej, fun hne => ?_⟩
  by_cases e : u.lastrej = t.lastrej
  · obtain ⟨hcmderr, hcode⟩ := h.fresh (e ▸ hne)
    exact ⟨h'.cmderr hcmderr, e ▸ hcode⟩
  · exact h'.fresh e

theorem flagsKept.sticky {s t : State} (h : flagsKept s t) : StickyKept s t := by
  obtain ⟨hc, hl, ht⟩ := h
  exact ⟨ht, fun e => by rw [hc, e], fun e => by rwa [hl], fun e => absurd hl e⟩

theorem Reason.code_ne_zero (r : Reason) : r.code ≠ 0 := by cases r <;> decide

theorem stickyKept_reject (r : Reason) (s : State) : StickyKept s (reject r s) :=
  ⟨id, fun _ => rfl, fun _ => r.code_ne_zero, fun _ => ⟨rfl, r.code_range⟩⟩

theorem flagsKept_of_startKeeps {s t : State} (h : startKeeps s t) : flagsKept s t := by
  rw [h]
  exact ⟨rfl, rfl, id⟩

/-- BUILD and START too are rejected or keep the flags, TRUNC being set at most. -/
theorem exec_rejected_or_flagsKept {i : Instr} {s t : State} (h : exec i s = .next t) :
    (∃ r, t = reject r s) ∨ flagsKept s t := by
  cases i with
  | build hi pcp =>
    refine (execBuild_next h).imp_right ?_
    rintro ⟨-, -, -, rfl⟩
    generalize frameFor s pcp = f
    exact flagsKept.respond_noteTrunc (t := installFrame pcp f s) ⟨rfl, rfl, id⟩ _ _
  | start mbz =>
    refine (execStart_next h).imp_right ?_
    rintro ⟨-, -, -, -, ⟨-, rfl⟩ | ⟨-, -, rfl⟩⟩
    · exact flagsKept_of_startKeeps (raise_start_keeps s)
    · exact flagsKept_of_startKeeps (enterLoop_start_keeps s)
  | _ => exact (exec_rejected_or_kept h nofun nofun).imp_right And.left

theorem runWord_sticky {w : Word64} {s t : State} (h : runWord w s = .next t) : StickyKept s t := by
  obtain ⟨r, rfl⟩ | ⟨i, -, hi⟩ := runWord_next h
  · exact stickyKept_reject r s
  obtain ⟨r, rfl⟩ | hkept := exec_rejected_or_flagsKept hi
  · exact stickyKept_reject r s
  · exact hkept.sticky

theorem flagsKept_afterInvoked (s : State) : flagsKept s (afterInvoked s) := by
  unfold afterInvoked
  split <;> exact ⟨rfl, rfl, id⟩

theorem stickyKept_withHost (s : State) (q : List HostAct) (o : Option HostOutcome) :
    StickyKept s { s with hostq := q, hostOut := o } :=
  flagsKept.sticky ⟨rfl, rfl, id⟩

/-- Every act of the Host but the reset step keeps the sticky flags. -/
theorem hostAct_sticky {a : HostAct} {s t : State} (ha : a ≠ .reset) (h : hostAct a s = .next t) : StickyKept s t := by
  cases a with
  | word w => exact runWord_sticky h
  | pass => exact (advance_kept h).1.sticky
  | reset => exact absurd rfl ha
  | program lines =>
    cases lines with
    | nil => cases h; exact stickyKept_withHost s _ _
    | cons line lines =>
      simp only [hostAct] at h
      split at h
      · exact (stickyKept_withHost s _ _).trans (runWord_sticky h)
      · cases h; exact stickyKept_withHost s _ _
  | txgen udp args =>
    simp only [hostAct] at h
    split at h
    · cases h; exact stickyKept_withHost s _ _
    · cases h; exact stickyKept_withHost s _ _
  | invoked w =>
    obtain ⟨u, hu, rfl⟩ := thenDo_next h
    exact (runWord_sticky hu).trans (flagsKept_afterInvoked u).sticky
  | await =>
    simp only [hostAct] at h
    split at h
    · obtain ⟨u, hu, rfl⟩ := thenDo_next h
      exact (runWord_sticky hu).trans (flagsKept.sticky ⟨rfl, rfl, id⟩)
    · exact (stickyKept_withHost s _ _).trans (advance_kept h).1.sticky

/-- Settles O42: every act but the reset step runs a word, lets the framer's own agents move or changes the Host's fields. -/
theorem stickyFlags : Obligations.StickyFlags := by
  intro s t h hreset
  have hsticky : StickyKept s t := by
    cases hq : s.hostq with
    | nil =>
      rw [step_nil hq] at h
      exact (advance_kept h).1.sticky
    | cons a rest =>
      rw [step_cons hq] at h
      exact (stickyKept_withHost s _ _).trans (hostAct_sticky (fun e => hreset rest (e ▸ hq)) h)
  exact ⟨hsticky.trunc, hsticky.cmderr, hsticky.lastrej, hsticky.fresh⟩

/-! ### Cached frames (R228) -/

/-- A frame that fits its slot leaves the bytes of the other slots. -/
theorem byte_installFrame_other_slot {c d : Pcp} {f : List Byte} (s : State) (hfit : f.length ≤ frameLenMax) (h : c ≠ d)
    {a : Nat} (hlo : slotBase c ≤ a) (hhi : a < slotBase c + 2048) :
    (installFrame d f s).fs.byte a = s.fs.byte a := by
  have hslots := slotBase_disjoint h
  simp only [frameLenMax] at hfit
  exact byte_installFrame_outside s (by omega)

/-- Settles O43: the frame cache is written by `installFrame` of BUILD's slot and by START only. -/
theorem cachedFramesStay : Obligations.CachedFramesStay := by
  refine ⟨fun i s t h hbuild hstart => ?command, fun hi d c s t h hcd => ?build,
    fun s t h => (advance_kept h).2.byte_flen_fvalid⟩
  case command =>
    obtain ⟨r, rfl⟩ | ⟨-, hframes⟩ :=
      exec_rejected_or_kept h (fun _ _ e => hbuild (e ▸ rfl)) (fun _ e => hstart (e ▸ rfl))
    · exact ⟨fun _ => rfl, rfl, rfl⟩
    · exact hframes.byte_flen_fvalid
  case build =>
    obtain ⟨r, rfl⟩ | ⟨-, -, hfit, rfl⟩ := execBuild_next h
    · exact ⟨fun _ _ _ => rfl, rfl, rfl⟩
    · generalize frameFor s d = f at hfit
      obtain ⟨hvalid, hlen⟩ := installFrame_other_slot f s hcd
      exact ⟨fun _ => byte_installFrame_other_slot s hfit hcd, hlen, hvalid⟩

end Sys2Proof.Machine
end
